-- ==== Sys2Proof/Word.lean ====
section
/-! DEFINITION. The word types of DNSHQ (00_scope.md R9, R11): every value is unsigned and of one fixed width. -/

namespace Sys2Proof

/-- An 8-bit byte, the unit of every space (20_memory.md R53). -/
abbrev Byte := BitVec 8

/-- A 16-bit value: ID, a count, QTYPE, QCLASS, or the data of a response (00_scope.md R9). -/
abbrev Half := BitVec 16

/-- A command word (30_encoding.md R90). -/
abbrev CmdWord := BitVec 64

/-- A response word (30_encoding.md R93). -/
abbrev RspWord := BitVec 32

/-- One byte of a stream with its `last` tag (20_memory.md R60, R61). -/
structure TaggedByte where
  byte : Byte
  last : Bool
deriving DecidableEq, Repr

end Sys2Proof
end

