-- ==== Sys2Proof/Config.lean ====
section
/-! DEFINITION. What one implementation fixes (the parameter QCAP, 00_scope.md R8) and the free values: contents
the spec calls unspecified, of which nothing in Lean can prove a value. -/

namespace Sys2Proof

/-- The parameters of one DNSHQ instance. 00_scope.md R8: "DNSHQ has one open parameter, QCAP: the capacity of the
question buffer in bytes". It is an argument of the model: `State.cfg` carries it and no step changes it (log 1). -/
structure Config where
  qcap : Nat
deriving DecidableEq, Repr

/-- 00_scope.md R8: "a natural number with 5 <= QCAP <= 65535". -/
def Config.Valid (c : Config) : Prop := 5 ≤ c.qcap ∧ c.qcap ≤ 65535

/-- The parameter value most vectors of 95_test_vectors.md assume ("with QCAP = 1024"); `State.reset` uses it.
DESIGN CHOICE: the spec gives QCAP no default (91_not_in_source.md N4). Unsafe for a claim about `State.reset`
itself; every obligation quantifies over the parameter (log 1). -/
def Config.vectors : Config := { qcap := 1024 }

/-- Byte `i` of the contents drawn by draw number `n`, for HDR and QBUF where the spec calls them unspecified
(10_state.md R36, 40_header_lifecycle.md R121, 42_question.md R191, R196). A free value: it has no body (log 4). -/
opaque Config.freeByte : Nat → Nat → Byte

/-- The number from which draw `n` takes QLEN where the spec calls it unspecified. A free value (log 4). -/
opaque Config.freeLength : Nat → Nat

end Sys2Proof
end

