-- ==== Sys2Proof/Syntax.lean ====
section
/-! DEFINITION. The 38 commands (30_encoding.md R96), one constructor per row of spec/opcode_table.json, with the
operands that row gives. -/

namespace Sys2Proof

/-- The symbolic OPCODE (00_scope.md R18, 41_header_fields.md R175). -/
inductive OpcodeSym where
  | query
  | iquery
  | status
  | reserved
deriving DecidableEq, Repr

/-- The symbolic RCODE (00_scope.md R18, 41_header_fields.md R175). -/
inductive RcodeSym where
  | noError
  | formatError
  | serverFailure
  | nameError
  | notImplemented
  | refused
deriving DecidableEq, Repr

/-- A command with its operands (30_encoding.md R96, R98 to R103). -/
inductive Instr where
  | getStatus
  | inNext
  | hdrClear
  | hdrLoad
  | hdrStore
  | getId
  | getQdcount
  | getAncount
  | getNscount
  | getArcount
  | setId (value : Half)
  | setQdcount (value : Half)
  | setAncount (value : Half)
  | setNscount (value : Half)
  | setArcount (value : Half)
  | getQr
  | getAa
  | getTc
  | getRd
  | getRa
  | setQr (value : Bool)
  | setAa (value : Bool)
  | setTc (value : Bool)
  | setRd (value : Bool)
  | setRa (value : Bool)
  | getOpcode
  | getRcode
  | setOpcode (sym : OpcodeSym)
  | setRcode (sym : RcodeSym)
  | getBit (byteoff : BitVec 4) (bitpos : BitVec 3)
  | setBit (byteoff : BitVec 4) (bitpos : BitVec 3) (value : Bool)
  | qBuild (nameLen qtype qclass : Half)
  | qLoad
  | qStore
  | qName
  | qGetType
  | qGetClass
  | qGetLen
deriving DecidableEq, Repr

end Sys2Proof
end

