-- ==== Sys2Proof/Machine/State.lean ====
section
/-! DEFINITION. The state of one DNSHQ instance (10_state.md R20 to R37) with its parameter, the environment state the
rules speak of (20_memory.md R60, R68), and State.reset. Plain data throughout. -/

namespace Sys2Proof.Machine

/-- The 12 header byte registers HDR[0] to HDR[11] (10_state.md R20). -/
abbrev Header := Vector Byte 12

/-- The status of a response (30_encoding.md R94, 60_exceptions.md R240). -/
inductive Status where
  | ok
  | truncatedInput
  | illegalCmd
  | noObject
  | capacity
  | unencodable
deriving DecidableEq, Repr

/-- How many more transfers the far side of an output channel is ready to take: the transport on the output channel,
the host on the response channel (20_memory.md R66, R69; 70_reset_and_hazards.md R279 (b), (c)). Environment data. -/
inductive Readiness where
  | always
  | times (n : Nat)
deriving DecidableEq, Repr

/-- The phases of the question parser (42_question.md R198). -/
inductive Phase where
  | len
  | body
  | tail
deriving DecidableEq, Repr

/-- The transient state of Q_LOAD (10_state.md R31, 42_question.md R198). `buf` is the staging buffer `S[0..n)`: its
length is the write offset `n`. -/
structure QParse where
  phase : Phase
  rem : Nat
  buf : List Byte
  ll : Bool
deriving DecidableEq, Repr

/-- The transient state of Q_BUILD (10_state.md R31, 42_question.md R195) with the operands of the command being
executed. `buf` is the staging buffer `S[0..n)`: its length is the write offset `n`. `lenAt` is the offset `s` of the
current label's length byte, `count` the current label's byte count `m`, `taken` the bytes taken `t`. -/
structure QBuild where
  nameLen : Nat
  qtype : Half
  qclass : Half
  taken : Nat
  buf : List Byte
  lenAt : Nat
  count : Nat
  ll : Bool
  big : Bool
deriving DecidableEq, Repr

/-- The transient state of Q_NAME (10_state.md R31, 42_question.md R202): the offset `i`, the remaining count REM, the
emitted count `e`; `labelDone` says that a label has just been written out, so that a separator comes next if the byte
at `i` is not zero. -/
structure NameCursor where
  i : Nat
  rem : Nat
  e : Nat
  labelDone : Bool
deriving DecidableEq, Repr

/-- What is in execution (10_state.md R31), or nothing (20_memory.md R70). -/
inductive Activity where
  /-- no command is in execution -/
  | idle
  /-- HDR_LOAD: the bytes staged so far (40_header_lifecycle.md R124) -/
  | hdrLoad (staged : List Byte)
  /-- HDR_STORE: the read offset (40_header_lifecycle.md R125) -/
  | hdrStore (k : Nat)
  /-- IN_NEXT: in its draining loop (43_stream_status.md R231) -/
  | inNext
  /-- Q_BUILD (42_question.md R195) -/
  | qBuild (b : QBuild)
  /-- Q_LOAD (42_question.md R198) -/
  | qLoad (p : QParse)
  /-- Q_STORE: the read offset (42_question.md R202) -/
  | qStore (k : Nat)
  /-- Q_NAME (42_question.md R202) -/
  | qName (c : NameCursor)
  /-- the command has had its effect and its response is presented, not yet taken (20_memory.md R69 to R71) -/
  | responding (r : RspWord)
deriving DecidableEq, Repr

/-- The state. Machine state first (10_state.md), then the parameter (00_scope.md R8), then the environment state of
20_memory.md R60 and the rst pin of R68, then the model's own counter of free values. -/
structure State where
  /-- HDR (R20) -/
  hdr : Header
  /-- HV (R22) -/
  hv : Bool
  /-- QBUF (R24): the QLEN bytes of the question buffer -/
  qbuf : List Byte
  /-- QLEN (R24) -/
  qlen : Nat
  /-- QV (R25) -/
  qv : Bool
  /-- LONG_LABEL (R27) -/
  longLabel : Bool
  /-- LONG_NAME (R27) -/
  longName : Bool
  /-- IN_EOS (R28) -/
  inEos : Bool
  /-- the command in execution and its transient state (R31) -/
  activity : Activity
  /-- QCAP (00_scope.md R8); no step changes it -/
  cfg : Config
  /-- IN: presented by the transport and not yet consumed, first element next (20_memory.md R60) -/
  input : List TaggedByte
  /-- OUT: written by DNSHQ, oldest first (20_memory.md R60) -/
  output : List TaggedByte
  /-- RSP: the responses issued, oldest first (20_memory.md R60) -/
  rsp : List RspWord
  /-- the host's command words not yet accepted, first element next (20_memory.md R60) -/
  cmds : List CmdWord
  /-- how many more output bytes the transport is ready to take (20_memory.md R66) -/
  outReady : Readiness
  /-- how many more responses the host is ready to take (20_memory.md R69) -/
  rspReady : Readiness
  /-- the level of the rst pin (20_memory.md R68) -/
  rst : Bool
  /-- the model's own: how many free values have been drawn (log 4, log 5) -/
  freeDraws : Nat
deriving DecidableEq, Repr

/-- Why a step stops with a fault: never. 60_exceptions.md R249: a failure is a response and its state effects, and
30_encoding.md R106: no encoding has undefined behaviour. The type has no constructor, so no claim can be about a
state where the model stopped and the hardware went on (safe, log 10). -/
inductive Fault where
deriving DecidableEq, Repr

/-- Why a step is refused. -/
inductive Refusal where
  /-- The instruction has no meaning in this model yet. Raised by a refused arm of `exec` only; no arm of this model
  is one, so no step raises it. Safe: nothing can be proved of a state after it. -/
  | notModelled (mnemonic : String)
deriving DecidableEq, Repr

/-- The state right after reset (10_state.md R36, 70_reset_and_hazards.md R270) of an instance with parameter `cfg`:
the five flags 0, nothing in execution. HDR, QBUF and QLEN, which R36 leaves unspecified, have a value the model names
(DESIGN CHOICE, unsafe: log 2, log 3). The environment has presented nothing and takes everything (DESIGN CHOICE,
log 9). -/
def State.resetWith (cfg : Config) : State where
  hdr := Vector.replicate 12 0
  hv := false
  qbuf := []
  qlen := 0
  qv := false
  longLabel := false
  longName := false
  inEos := false
  activity := .idle
  cfg := cfg
  input := []
  output := []
  rsp := []
  cmds := []
  outReady := .always
  rspReady := .always
  rst := false
  freeDraws := 0

/-- The machine right after reset, at the parameter value of `Config.vectors` (log 1). -/
def State.reset : State := State.resetWith Config.vectors

end Sys2Proof.Machine
end

