-- ==== Sys2Proof/Machine/Flags.lean ====
section
/-! DEFINITION. Flag computations: the STATUS view (10_state.md R30) and the two advisory flags (R27). DNSHQ has no
arithmetic condition codes (R34). -/

namespace Sys2Proof.Machine

/-- STATUS: bit 0 HV, bit 1 QV, bit 2 IN_EOS, bit 3 zero, bit 4 LONG_LABEL, bit 5 LONG_NAME, bits 15:6 zero
(10_state.md R30). -/
def statusView (s : State) : Half :=
  0#10 ++ BitVec.ofBool s.longName ++ BitVec.ofBool s.longLabel ++ 0#1 ++
    BitVec.ofBool s.inEos ++ BitVec.ofBool s.qv ++ BitVec.ofBool s.hv

/-- "a label length of 64 or more" (10_state.md R27). -/
def longLabelLength (n : Nat) : Bool := decide (64 ≤ n)

/-- "LONG_NAME = 1 says QLEN - 4 > 255" (10_state.md R27). -/
def longNameLength (qlen : Nat) : Bool := decide (qlen - 4 > 255)

/-- IN_EOS after a byte is consumed: "if last = 1: IN_EOS <- 1" (20_memory.md R62). -/
def eosAfter (eos : Bool) (x : TaggedByte) : Bool := eos || x.last

end Sys2Proof.Machine
end

