-- ==== Sys2Proof/WellFormed.lean ====
section
/-! DEFINITION. Which commands a word can spell: the operand constraints of 30_encoding.md R91 that the operand types
do not already carry. The symbols of SET_OPCODE and SET_RCODE, the 1-bit flag values, the 3-bit bit positions and the
16-bit values admit exactly the values R91 admits, so the one check left is the byte offset of the bit selector. -/

namespace Sys2Proof

/-- 30_encoding.md R103: "byteoff, the header byte offset, legal values 0 to 11". -/
def legalByteOffset (byteoff : BitVec 4) : Bool := decide (byteoff.toNat ≤ 11)

/-- Every operand is in the domain its format gives it (30_encoding.md R91, R92). -/
def Instr.wellFormed (i : Instr) : Bool :=
  match i with
  | .getBit byteoff _ => legalByteOffset byteoff
  | .setBit byteoff _ _ => legalByteOffset byteoff
  | .getStatus | .inNext | .hdrClear | .hdrLoad | .hdrStore => true
  | .getId | .getQdcount | .getAncount | .getNscount | .getArcount => true
  | .setId _ | .setQdcount _ | .setAncount _ | .setNscount _ | .setArcount _ => true
  | .getQr | .getAa | .getTc | .getRd | .getRa => true
  | .setQr _ | .setAa _ | .setTc _ | .setRd _ | .setRa _ => true
  | .getOpcode | .getRcode | .setOpcode _ | .setRcode _ => true
  | .qBuild _ _ _ | .qLoad | .qStore | .qName | .qGetType | .qGetClass | .qGetLen => true

/-- The proposition the statements use. -/
abbrev Instr.WellFormed (i : Instr) : Prop := i.wellFormed = true

end Sys2Proof
end

