-- ==== Sys2Proof/Decode.lean ====
section
/-! DEFINITION. Decoding and encoding of command words (30_encoding.md R90 to R107). Decoding is total on all 64-bit
words, depends on the word alone (R98) and rejects by name; the encoder after it is written from the same tables. -/

namespace Sys2Proof

/-! ### The fields of a command word (R90) -/

/-- `w[63:56]`: the opcode. -/
def cmdOp (w : CmdWord) : BitVec 8 := w.extractLsb' 56 8
/-- `w[55:48]`: the bit selector. -/
def cmdSel (w : CmdWord) : BitVec 8 := w.extractLsb' 48 8
/-- `w[47:32]`: the third operand. -/
def cmdC (w : CmdWord) : Half := w.extractLsb' 32 16
/-- `w[31:16]`: the second operand. -/
def cmdB (w : CmdWord) : Half := w.extractLsb' 16 16
/-- `w[15:0]`: the first operand. -/
def cmdA (w : CmdWord) : Half := w.extractLsb' 0 16

/-- The word with these five fields (R90). -/
def packWord (op sel : BitVec 8) (c b a : Half) : CmdWord := op ++ sel ++ c ++ b ++ a

/-- `sel[7:4]` (R103). -/
def selByteOffset (sel : BitVec 8) : BitVec 4 := sel.extractLsb' 4 4
/-- `sel[3]` (R103), which must be 0. -/
def selReserved (sel : BitVec 8) : BitVec 1 := sel.extractLsb' 3 1
/-- `sel[2:0]` (R103). -/
def selBitPosition (sel : BitVec 8) : BitVec 3 := sel.extractLsb' 0 3

/-! ### The opcode map (R91, R96) -/

/-- The formats of R91, each with the command it makes of its used fields. -/
inductive Form where
  | n (i : Instr)
  | v (mk : Half → Instr)
  | f (mk : Bool → Instr)
  | eo (mk : OpcodeSym → Instr)
  | er (mk : RcodeSym → Instr)
  | bg (mk : BitVec 4 → BitVec 3 → Instr)
  | bs (mk : BitVec 4 → BitVec 3 → Bool → Instr)
  /-- operands in the order name_len, qtype, qclass -/
  | q (mk : Half → Half → Half → Instr)

/-- The opcode map of R96; every opcode it does not list is reserved (R105). -/
def formOf (op : BitVec 8) : Option Form :=
  match op with
  | 0x01#8 => some (.n .getStatus)
  | 0x02#8 => some (.n .inNext)
  | 0x10#8 => some (.n .hdrClear)
  | 0x11#8 => some (.n .hdrLoad)
  | 0x12#8 => some (.n .hdrStore)
  | 0x20#8 => some (.n .getId)
  | 0x21#8 => some (.n .getQdcount)
  | 0x22#8 => some (.n .getAncount)
  | 0x23#8 => some (.n .getNscount)
  | 0x24#8 => some (.n .getArcount)
  | 0x28#8 => some (.v .setId)
  | 0x29#8 => some (.v .setQdcount)
  | 0x2A#8 => some (.v .setAncount)
  | 0x2B#8 => some (.v .setNscount)
  | 0x2C#8 => some (.v .setArcount)
  | 0x30#8 => some (.n .getQr)
  | 0x31#8 => some (.n .getAa)
  | 0x32#8 => some (.n .getTc)
  | 0x33#8 => some (.n .getRd)
  | 0x34#8 => some (.n .getRa)
  | 0x38#8 => some (.f .setQr)
  | 0x39#8 => some (.f .setAa)
  | 0x3A#8 => some (.f .setTc)
  | 0x3B#8 => some (.f .setRd)
  | 0x3C#8 => some (.f .setRa)
  | 0x40#8 => some (.n .getOpcode)
  | 0x41#8 => some (.n .getRcode)
  | 0x48#8 => some (.eo .setOpcode)
  | 0x49#8 => some (.er .setRcode)
  | 0x50#8 => some (.bg .getBit)
  | 0x58#8 => some (.bs .setBit)
  | 0x60#8 => some (.q .qBuild)
  | 0x61#8 => some (.n .qLoad)
  | 0x62#8 => some (.n .qStore)
  | 0x63#8 => some (.n .qName)
  | 0x64#8 => some (.n .qGetType)
  | 0x65#8 => some (.n .qGetClass)
  | 0x66#8 => some (.n .qGetLen)
  | _ => none

/-! ### Operand domains (R99 to R103) -/

/-- R99: a = 1 is true, a = 0 is false, and no other value is legal. -/
def flagOf (a : Half) : Option Bool :=
  match a with
  | 0#16 => some false
  | 1#16 => some true
  | _ => none

/-- R100: the OPCODE symbol with this code; values 4 to 65535 are refused. -/
def opcodeSymOf (a : Half) : Option OpcodeSym :=
  match a with
  | 0#16 => some .query
  | 1#16 => some .iquery
  | 2#16 => some .status
  | 3#16 => some .reserved
  | _ => none

/-- R101: the RCODE symbol with this code; values 6 to 65535 are refused. -/
def rcodeSymOf (a : Half) : Option RcodeSym :=
  match a with
  | 0#16 => some .noError
  | 1#16 => some .formatError
  | 2#16 => some .serverFailure
  | 3#16 => some .nameError
  | 4#16 => some .notImplemented
  | 5#16 => some .refused
  | _ => none

/-- R103: `sel[3]` = 0 and `sel[7:4]` <= 11. -/
def selectorLegal (sel : BitVec 8) : Bool := selReserved sel == 0 && legalByteOffset (selByteOffset sel)

/-! ### Decoding (R98) -/

/-- Why a word spells no command (R243). -/
inductive DecodeReject where
  /-- R105: the opcode is reserved. -/
  | reservedOpcode
  /-- R92: a field the format does not use is not zero. -/
  | unusedField
  /-- R91: a used field does not meet its constraint. -/
  | operandRange
deriving DecidableEq, Repr

/-- The command of a legal operand, or a rejection of an operand outside its domain. -/
def orOutOfRange (i : Option Instr) : Except DecodeReject Instr :=
  match i with
  | some i => .ok i
  | none => .error .operandRange

/-- `Decode` of R98 on the five fields of the word. -/
def decodeFields (op sel : BitVec 8) (c b a : Half) : Except DecodeReject Instr :=
  match formOf op with
  | none => .error .reservedOpcode
  | some (.n i) =>
    if sel = 0 ∧ c = 0 ∧ b = 0 ∧ a = 0 then .ok i else .error .unusedField
  | some (.v mk) =>
    if sel = 0 ∧ c = 0 ∧ b = 0 then .ok (mk a) else .error .unusedField
  | some (.f mk) =>
    if sel = 0 ∧ c = 0 ∧ b = 0 then orOutOfRange ((flagOf a).map mk) else .error .unusedField
  | some (.eo mk) =>
    if sel = 0 ∧ c = 0 ∧ b = 0 then orOutOfRange ((opcodeSymOf a).map mk) else .error .unusedField
  | some (.er mk) =>
    if sel = 0 ∧ c = 0 ∧ b = 0 then orOutOfRange ((rcodeSymOf a).map mk) else .error .unusedField
  | some (.bg mk) =>
    if c = 0 ∧ b = 0 ∧ a = 0 then
      if selectorLegal sel then .ok (mk (selByteOffset sel) (selBitPosition sel))
      else .error .operandRange
    else .error .unusedField
  | some (.bs mk) =>
    if c = 0 ∧ b = 0 then
      if selectorLegal sel then
        orOutOfRange ((flagOf a).map (mk (selByteOffset sel) (selBitPosition sel)))
      else .error .operandRange
    else .error .unusedField
  | some (.q mk) =>
    if sel = 0 then .ok (mk c a b) else .error .unusedField

/-- `Decode` of R98: total on 64-bit words, and a function of the word alone. -/
def decode (w : CmdWord) : Except DecodeReject Instr :=
  decodeFields (cmdOp w) (cmdSel w) (cmdC w) (cmdB w) (cmdA w)

/-! ### Encoding -/

/-- The op column of R96. -/
def opcodeByte (i : Instr) : BitVec 8 :=
  match i with
  | .getStatus => 0x01
  | .inNext => 0x02
  | .hdrClear => 0x10
  | .hdrLoad => 0x11
  | .hdrStore => 0x12
  | .getId => 0x20
  | .getQdcount => 0x21
  | .getAncount => 0x22
  | .getNscount => 0x23
  | .getArcount => 0x24
  | .setId _ => 0x28
  | .setQdcount _ => 0x29
  | .setAncount _ => 0x2A
  | .setNscount _ => 0x2B
  | .setArcount _ => 0x2C
  | .getQr => 0x30
  | .getAa => 0x31
  | .getTc => 0x32
  | .getRd => 0x33
  | .getRa => 0x34
  | .setQr _ => 0x38
  | .setAa _ => 0x39
  | .setTc _ => 0x3A
  | .setRd _ => 0x3B
  | .setRa _ => 0x3C
  | .getOpcode => 0x40
  | .getRcode => 0x41
  | .setOpcode _ => 0x48
  | .setRcode _ => 0x49
  | .getBit _ _ => 0x50
  | .setBit _ _ _ => 0x58
  | .qBuild _ _ _ => 0x60
  | .qLoad => 0x61
  | .qStore => 0x62
  | .qName => 0x63
  | .qGetType => 0x64
  | .qGetClass => 0x65
  | .qGetLen => 0x66

/-- R99: the operand of a flag value. -/
def flagField (v : Bool) : Half := if v then 1 else 0

/-- R100: the operand of an OPCODE symbol. -/
def opcodeSymField (sym : OpcodeSym) : Half :=
  match sym with
  | .query => 0
  | .iquery => 1
  | .status => 2
  | .reserved => 3

/-- R101: the operand of an RCODE symbol. -/
def rcodeSymField (sym : RcodeSym) : Half :=
  match sym with
  | .noError => 0
  | .formatError => 1
  | .serverFailure => 2
  | .nameError => 3
  | .notImplemented => 4
  | .refused => 5

/-- R103: the selector of a byte offset and a bit position, `sel[3]` = 0. -/
def selectorField (byteoff : BitVec 4) (bitpos : BitVec 3) : BitVec 8 := byteoff ++ 0#1 ++ bitpos

/-- The sel field (R90). -/
def selOperand (i : Instr) : BitVec 8 :=
  match i with
  | .getBit byteoff bitpos => selectorField byteoff bitpos
  | .setBit byteoff bitpos _ => selectorField byteoff bitpos
  | _ => 0

/-- The c field (R90). -/
def cOperand (i : Instr) : Half :=
  match i with
  | .qBuild nameLen _ _ => nameLen
  | _ => 0

/-- The b field (R90). -/
def bOperand (i : Instr) : Half :=
  match i with
  | .qBuild _ _ qclass => qclass
  | _ => 0

/-- The a field (R90). -/
def aOperand (i : Instr) : Half :=
  match i with
  | .setId v | .setQdcount v | .setAncount v | .setNscount v | .setArcount v => v
  | .setQr v | .setAa v | .setTc v | .setRd v | .setRa v => flagField v
  | .setOpcode sym => opcodeSymField sym
  | .setRcode sym => rcodeSymField sym
  | .setBit _ _ v => flagField v
  | .qBuild _ qtype _ => qtype
  | _ => 0

/-- The command word of an instruction (R90, R96, R99 to R103). -/
def encode (i : Instr) : CmdWord :=
  packWord (opcodeByte i) (selOperand i) (cOperand i) (bOperand i) (aOperand i)

/-! ### The opcode table's own patterns

R92: "the set of legal words is exactly the set matched by a row of opcode_table.json together with that row's
constraint"; for ER, BG and BS the row's `exact_patterns` express the constraint. -/

/-- A match and mask pair: it admits `w` when `w & mask = bits`. -/
structure WordPattern where
  bits : CmdWord
  mask : CmdWord
deriving DecidableEq, Repr

/-- The word agrees with the pattern on the mask. -/
def WordPattern.admits (p : WordPattern) (w : CmdWord) : Bool := w &&& p.mask == p.bits

/-- The rows of format N: one word each. -/
def tablePatternsN : List WordPattern :=
  [0x0100000000000000, 0x0200000000000000, 0x1000000000000000, 0x1100000000000000, 0x1200000000000000,
   0x2000000000000000, 0x2100000000000000, 0x2200000000000000, 0x2300000000000000, 0x2400000000000000,
   0x3000000000000000, 0x3100000000000000, 0x3200000000000000, 0x3300000000000000, 0x3400000000000000,
   0x4000000000000000, 0x4100000000000000, 0x6100000000000000, 0x6200000000000000, 0x6300000000000000,
   0x6400000000000000, 0x6500000000000000, 0x6600000000000000].map
    fun bits => { bits := bits, mask := 0xFFFFFFFFFFFFFFFF }

/-- The rows with operands, by format V, F, EO, ER, BG, BS, Q. -/
def tablePatternsOperand : List WordPattern :=
  [{ bits := 0x2800000000000000, mask := 0xFFFFFFFFFFFF0000 },
   { bits := 0x2900000000000000, mask := 0xFFFFFFFFFFFF0000 },
   { bits := 0x2A00000000000000, mask := 0xFFFFFFFFFFFF0000 },
   { bits := 0x2B00000000000000, mask := 0xFFFFFFFFFFFF0000 },
   { bits := 0x2C00000000000000, mask := 0xFFFFFFFFFFFF0000 },
   { bits := 0x3800000000000000, mask := 0xFFFFFFFFFFFFFFFE },
   { bits := 0x3900000000000000, mask := 0xFFFFFFFFFFFFFFFE },
   { bits := 0x3A00000000000000, mask := 0xFFFFFFFFFFFFFFFE },
   { bits := 0x3B00000000000000, mask := 0xFFFFFFFFFFFFFFFE },
   { bits := 0x3C00000000000000, mask := 0xFFFFFFFFFFFFFFFE },
   { bits := 0x4800000000000000, mask := 0xFFFFFFFFFFFFFFFC },
   { bits := 0x4900000000000000, mask := 0xFFFFFFFFFFFFFFFC },
   { bits := 0x4900000000000004, mask := 0xFFFFFFFFFFFFFFFE },
   { bits := 0x5000000000000000, mask := 0xFF88FFFFFFFFFFFF },
   { bits := 0x5080000000000000, mask := 0xFFC8FFFFFFFFFFFF },
   { bits := 0x5800000000000000, mask := 0xFF88FFFFFFFFFFFE },
   { bits := 0x5880000000000000, mask := 0xFFC8FFFFFFFFFFFE },
   { bits := 0x6000000000000000, mask := 0xFFFF000000000000 }]

/-- The word is in the legal set of opcode_table.json. -/
def inOpcodeTable (w : CmdWord) : Bool := (tablePatternsN ++ tablePatternsOperand).any (·.admits w)

/-! ### The host's reading of a table word -/

/-- The command this decoder reads from a table word. The command word is a parallel word without a byte order
(20_memory.md R54), so bit `k` of `w` is bit `k` of the word presented on cmd_data (log 13). -/
def decodeTableWord (nbits w : Nat) : Option Instr :=
  match decode (BitVec.ofNat 64 (w % 2 ^ nbits)) with
  | .ok i => some i
  | .error _ => none

end Sys2Proof
end

