-- ==== Sys2Proof/Machine/Operands.lean ====
section
/-! DEFINITION. Operand and view computations: byte order, the views of the header buffer (20_memory.md R50, R51), the
symbol tables (41_header_fields.md R175), the response word (30_encoding.md R93, R94). -/

namespace Sys2Proof.Machine

/-! ### Byte order (20_memory.md R54, 00_scope.md R11) -/

/-- `be16(hi, lo) = hi * 256 + lo`. -/
def be16 (hi lo : Byte) : Half := hi ++ lo

/-- `hi8(v) = v >> 8`. -/
def hi8 (v : Half) : Byte := v.extractLsb' 8 8

/-- `lo8(v) = v & 0xFF`. -/
def lo8 (v : Half) : Byte := v.extractLsb' 0 8

/-! ### The header bytes (00_scope.md R12) -/

/-- `HDR[o]`. Every use has `o` in 0 to 11. -/
def hdrByte (h : Header) (o : Nat) : Byte := h.getD o 0

/-- `HDR[o] <- v`. Every use has `o` in 0 to 11. -/
def setHdrByte (h : Header) (o : Nat) (v : Byte) : Header := h.setIfInBounds o v

/-- The header of 12 bytes, the first at offset 0 (40_header_lifecycle.md R121). -/
def headerOfBytes (bytes : List Byte) : Header := Vector.ofFn fun i => bytes.getD i 0

/-! ### 16-bit fields (41_header_fields.md R141, R147) -/

/-- The offset of ID (20_memory.md R50). -/
def offId : Nat := 0
/-- The offset of QDCOUNT (20_memory.md R50). -/
def offQdcount : Nat := 4
/-- The offset of ANCOUNT (20_memory.md R50). -/
def offAncount : Nat := 6
/-- The offset of NSCOUNT (20_memory.md R50). -/
def offNscount : Nat := 8
/-- The offset of ARCOUNT (20_memory.md R50). -/
def offArcount : Nat := 10

/-- `Get16(o)` of R141. -/
def get16 (h : Header) (o : Nat) : Half := be16 (hdrByte h o) (hdrByte h (o + 1))

/-- `Set16(o, v)` of R147. -/
def set16 (h : Header) (o : Nat) (v : Half) : Header := setHdrByte (setHdrByte h o (hi8 v)) (o + 1) (lo8 v)

/-! ### The generic bit (41_header_fields.md R154); bit position 0 is the most significant bit (00_scope.md R10) -/

/-- `1 << (7 - p)`. -/
def bitMask (p : Nat) : Byte := 1#8 <<< (7 - p)

/-- `BitGet(o, p)`: `(HDR[o] >> (7 - p)) & 1 != 0`. -/
def bitGet (h : Header) (o p : Nat) : Bool := (hdrByte h o >>> (7 - p)) &&& 1 != 0

/-- `BitSet(o, p, v)`. -/
def bitSet (h : Header) (o p : Nat) (v : Bool) : Header :=
  setHdrByte h o (if v then hdrByte h o ||| bitMask p else hdrByte h o &&& ~~~ bitMask p)

/-- The data of a bit getter: 0 or 1 (30_encoding.md R95). -/
def bitData (v : Bool) : Half := if v then 1 else 0

/-! ### The enumerated fields (20_memory.md R51, 41_header_fields.md R175 to R179) -/

/-- The raw 4-bit OPCODE: `(HDR[2] & 0x78) >> 3`. -/
def opcodeRaw (h : Header) : BitVec 4 := ((hdrByte h 2 &&& 0x78) >>> 3).setWidth 4

/-- The raw 4-bit RCODE: `HDR[3] & 0x0F`. -/
def rcodeRaw (h : Header) : BitVec 4 := (hdrByte h 3 &&& 0x0F).setWidth 4

/-- The Z field: `(HDR[3] & 0x70) >> 4`. No named accessor reads it (41_header_fields.md R186). -/
def zField (h : Header) : BitVec 3 := ((hdrByte h 3 &&& 0x70) >>> 4).setWidth 3

/-- `OpSym(x)`: 0, 1, 2 map to their symbols, every other value to RESERVED (R175). -/
def opSym (x : BitVec 4) : OpcodeSym :=
  match x with
  | 0#4 => .query
  | 1#4 => .iquery
  | 2#4 => .status
  | _ => .reserved

/-- `RcSym(x)`: present for 0 to 5, absent for 6 to 15 (R175). -/
def rcSym (x : BitVec 4) : Option RcodeSym :=
  match x with
  | 0#4 => some .noError
  | 1#4 => some .formatError
  | 2#4 => some .serverFailure
  | 3#4 => some .nameError
  | 4#4 => some .notImplemented
  | 5#4 => some .refused
  | _ => none

/-- The data of GET_RCODE: `0x0100 | code` when present, 0 when absent (R178). -/
def rcodeData (x : Option RcodeSym) : Half :=
  match x with
  | some sym => 0x0100 ||| rcodeSymField sym
  | none => 0

/-- `HDR[2] <- (HDR[2] & 0x87) | (a << 3)` (R177). -/
def setOpcodeField (h : Header) (sym : OpcodeSym) : Header :=
  setHdrByte h 2 ((hdrByte h 2 &&& 0x87) ||| (lo8 (opcodeSymField sym) <<< 3))

/-- `HDR[3] <- (HDR[3] & 0xF0) | a` (R179). -/
def setRcodeField (h : Header) (sym : RcodeSym) : Header :=
  setHdrByte h 3 ((hdrByte h 3 &&& 0xF0) ||| lo8 (rcodeSymField sym))

/-! ### The question buffer (00_scope.md R12) -/

/-- `QBUF[i]`. Where a valid question is read, `i` is below QLEN (42_question.md R201, R203, R204); an index at or
above the buffer's length reads as 0, which happens only in states the invariant rules out (log 19). -/
def qByte (buf : List Byte) (i : Nat) : Byte := buf.getD i 0

/-- The separator `.` is the byte 0x2E (42_question.md R190). -/
def separator : Byte := 0x2E

/-! ### The response word (30_encoding.md R93, R94) -/

/-- The status codes of R94. -/
def statusCode (st : Status) : BitVec 4 :=
  match st with
  | .ok => 0
  | .truncatedInput => 1
  | .illegalCmd => 2
  | .noObject => 3
  | .capacity => 4
  | .unencodable => 5

/-- `r[31:20]` = 0, `r[19:16]` = status, `r[15:0]` = data (R93). -/
def rspWord (st : Status) (data : Half) : RspWord := 0#12 ++ statusCode st ++ data

end Sys2Proof.Machine
end

