-- ==== Sys2Proof/Machine/Ops.lean ====
section
/-! DEFINITION. The named operations every meaning is written with: responses and failures (00_scope.md R14,
60_exceptions.md R249), free values, the reset of the rst pin, and the two stream primitives byte by byte
(20_memory.md R62, R66) as one reading loop and one writing loop. -/

namespace Sys2Proof.Machine

/-! ### Readiness of the far side of an output channel (20_memory.md R69) -/

/-- Of `k` transfers wanted, how many the far side takes now. -/
def Readiness.grant (r : Readiness) (k : Nat) : Nat :=
  match r with
  | .always => k
  | .times n => min n k

/-- What is left of the readiness after `k` transfers. -/
def Readiness.spend (r : Readiness) (k : Nat) : Readiness :=
  match r with
  | .always => .always
  | .times n => .times (n - k)

/-! ### Completion: responses and failures

A failure is what a processor's manual calls an exception, and this is its whole entry: "Nothing is saved, no mode
changes, nothing is masked, no control goes anywhere: the only thing that happens is the response, after the state
effects" (60_exceptions.md R249). There is no return from it (R250). -/

/-- Present the response word `r`; when the host takes it the command is over (20_memory.md R69, R70). While the host
does not, the block holds with the response presented (70_reset_and_hazards.md R279 (c)). -/
def State.deliver (s : State) (r : RspWord) : State :=
  if s.rspReady.grant 1 = 1 then
    { s with rsp := s.rsp ++ [r], rspReady := s.rspReady.spend 1, activity := .idle }
  else { s with activity := .responding r }

/-- End the command with `Rsp(st, data)` (00_scope.md R14). -/
def State.respond (s : State) (st : Status) (data : Half) : State := s.deliver (rspWord st data)

/-- `done d`: end the command with `Rsp(OK, d)` (00_scope.md R14). -/
def State.done (s : State) (data : Half) : State := s.respond .ok data

/-- `fail S`: end the command with `Rsp(S, 0)`, the failure effects already applied (00_scope.md R14). -/
def State.fail (s : State) (st : Status) : State := s.respond st 0

/-! ### Free values for unspecified contents (00_scope.md R15, log 4) -/

/-- HDR takes a free value: 40_header_lifecycle.md R121, "HDR is unspecified". -/
def State.freeHdr (s : State) : State :=
  { s with
    hdr := Vector.ofFn fun i => Config.freeByte s.freeDraws i
    freeDraws := s.freeDraws + 1 }

/-- The free value of QLEN, within the bound 10_state.md R24 keeps on it: 0 <= QLEN <= QCAP. -/
def State.freeQlen (s : State) : Nat := Config.freeLength s.freeDraws % (s.cfg.qcap + 1)

/-- QBUF and QLEN take free values: 42_question.md R191, R196, "QBUF and QLEN are unspecified". -/
def State.freeQuestion (s : State) : State :=
  { s with
    qbuf := (List.range s.freeQlen).map (Config.freeByte s.freeDraws)
    qlen := s.freeQlen
    freeDraws := s.freeDraws + 1 }

/-- The state effects of a failed HDR_LOAD, and its response: HV = 0, HDR unspecified (60_exceptions.md R241). -/
def State.failHeader (s : State) (st : Status) : State := State.fail { s with hv := false }.freeHdr st

/-- The state effects of a failed Q_BUILD or Q_LOAD, and its response: QV = 0, LONG_LABEL = 0, LONG_NAME = 0, QBUF and
QLEN unspecified (60_exceptions.md R241, R245, R246). -/
def State.failQuestion (s : State) (st : Status) : State :=
  State.fail (State.freeQuestion { s with qv := false, longLabel := false, longName := false }) st

/-! ### Reset through the pin -/

/-- What a rising edge with rst = 1 does (70_reset_and_hazards.md R270, R272): the command in execution is abandoned
without a response, the five flags are 0, HDR, QBUF and QLEN are unspecified, and no channel transfers anything. -/
def State.applyReset (s : State) : State :=
  State.freeQuestion (State.freeHdr
    { s with
      hv := false
      qv := false
      longLabel := false
      longName := false
      inEos := false
      activity := .idle })

/-! ### Slot validity (60_exceptions.md R244) -/

/-- `if HV = 0: fail NO_OBJECT`, else the command's own effect. -/
def State.withHeader (s : State) (effect : State → State) : State :=
  if s.hv then effect s else s.fail .noObject

/-- `if QV = 0: fail NO_OBJECT`, else the command's own effect. -/
def State.withQuestion (s : State) (effect : State → State) : State :=
  if s.qv then effect s else s.fail .noObject

/-- The answer to a word that spells no command: `Rsp(ILLEGAL_CMD, 0)`, state unchanged (60_exceptions.md R243). -/
def State.illegal (s : State) : State := s.fail .illegalCmd

/-! ### The reading loop (20_memory.md R62, R64, R65) -/

/-- A command that reads the input stream byte by byte. `ends` is the test it makes before each read, given IN_EOS: the
command's end, or `none` when it wants a byte. `take` is what it does with a byte. -/
structure Reader (α ε : Type) where
  ends : α → Bool → Option ε
  take : α → Byte → α

/-- How a run of reads stops: the command has ended, with what is left of IN and with IN_EOS; or it holds, wanting a
byte that the transport has not presented. -/
inductive Consumed (α ε : Type) where
  | ended (e : ε) (rest : List TaggedByte) (eos : Bool)
  | holding (a : α) (eos : Bool)
deriving DecidableEq, Repr

/-- Read from IN until the command ends or holds. Each byte read is removed from IN; a byte tagged `last` sets IN_EOS
(20_memory.md R62). -/
def consume {α ε : Type} (r : Reader α ε) : List TaggedByte → Bool → α → Consumed α ε
  | [], eos, a =>
    match r.ends a eos with
    | some e => .ended e [] eos
    | none => .holding a eos
  | x :: rest, eos, a =>
    match r.ends a eos with
    | some e => .ended e (x :: rest) eos
    | none => consume r rest (eosAfter eos x) (r.take a x.byte)

/-- The state after a run of reads: `finish` is the command's end, `held` its transient state in a hold. -/
def State.afterReads {α ε : Type} (s : State) (held : α → Activity) (finish : State → ε → State) (c : Consumed α ε) :
    State :=
  match c with
  | .ended e rest eos => finish { s with input := rest, inEos := eos } e
  | .holding a eos => { s with input := [], inEos := eos, activity := held a }

/-! ### The writing loop (20_memory.md R66, R67) -/

/-- The bytes a writing command presents, at most `n` of them, and where it stands afterwards. `next` gives the byte it
presents and the position after that byte is taken; `none` when nothing is left to write. -/
def produce {α : Type} (next : α → Option (TaggedByte × α)) : Nat → α → List TaggedByte × α
  | 0, a => ([], a)
  | n + 1, a =>
    match next a with
    | none => ([], a)
    | some (x, a') => (x :: (produce next n a').1, (produce next n a').2)

/-- Write from position `a`: the transport takes bytes while it is ready, at most `bound` of them; the command ends
when nothing is left to write, and otherwise holds (20_memory.md R66, R67). -/
def State.writeFrom {α : Type} (s : State) (next : α → Option (TaggedByte × α)) (bound : Nat) (held : α → Activity)
    (finish : State → α → State) (a : α) : State :=
  let written := produce next (s.outReady.grant bound) a
  let s' := { s with
    output := s.output ++ written.1
    outReady := s.outReady.spend written.1.length }
  match next written.2 with
  | none => finish s' written.2
  | some _ => { s' with activity := held written.2 }

end Sys2Proof.Machine
end

