-- ==== Sys2Proof/Machine/HeaderLifecycle.lean ====
section
/-! DEFINITION. HDR_CLEAR, HDR_LOAD, HDR_STORE (40_header_lifecycle.md R120 to R126), the stream commands in the
byte-step form of R124 and R125. -/

namespace Sys2Proof.Machine

/-- HDR_CLEAR (R120): all 12 bytes zero, HV <- 1, `done 0`. -/
def execHdrClear (s : State) : Host.Outcome State Fault Refusal :=
  .next (State.done { s with hdr := Vector.replicate 12 0, hv := true } 0)

/-- HDR_LOAD's steps (R124): at n = 12 it ends with the staged header; before that it ends truncated when IN_EOS = 1,
and otherwise takes a byte into the staging buffer. -/
def hdrLoadReader : Reader (List Byte) (Option Header) where
  ends := fun staged eos =>
    if staged.length = 12 then some (some (headerOfBytes staged))
    else if eos then some none
    else none
  take := fun staged b => staged ++ [b]

/-- The end of HDR_LOAD: `HDR <- S, HV <- 1`, OK; or TRUNCATED_INPUT (R121, R124). -/
def finishHdrLoad (s : State) (end_ : Option Header) : State :=
  match end_ with
  | some h => State.done { s with hdr := h, hv := true } 0
  | none => s.failHeader .truncatedInput

/-- HDR_LOAD with the bytes `staged` already taken. -/
def continueHdrLoad (s : State) (staged : List Byte) : State :=
  s.afterReads .hdrLoad finishHdrLoad (consume hdrLoadReader s.input s.inEos staged)

/-- HDR_LOAD (R121): HV <- 0, then twelve bytes from the input stream. -/
def execHdrLoad (s : State) : Host.Outcome State Fault Refusal :=
  .next (continueHdrLoad { s with hv := false } [])

/-- HDR_STORE's steps (R125): `(HDR[k], last = (k = 11))`, then k + 1, up to k = 12. -/
def hdrStoreNext (h : Header) (k : Nat) : Option (TaggedByte × Nat) :=
  if k < 12 then some ({ byte := hdrByte h k, last := decide (k = 11) }, k + 1) else none

/-- HDR_STORE from read offset `k`. -/
def continueHdrStore (s : State) (k : Nat) : State :=
  s.writeFrom (hdrStoreNext s.hdr) 12 .hdrStore (fun s' _ => s'.done 12) k

/-- HDR_STORE (R122). -/
def execHdrStore (s : State) : Host.Outcome State Fault Refusal :=
  .next (s.withHeader fun s => continueHdrStore s 0)

end Sys2Proof.Machine
end

