-- ==== Sys2Proof/Machine/Question.lean ====
section
/-! DEFINITION. The question commands (42_question.md R190 to R207), the stream commands in the byte-step form of R195,
R198 and R202. -/

namespace Sys2Proof.Machine

/-- The start of a question constructor: `QV <- 0; LONG_LABEL <- 0; LONG_NAME <- 0` (R191, R196). -/
def State.dropQuestion (s : State) : State := { s with qv := false, longLabel := false, longName := false }

/-- The success of a question constructor: QBUF, QLEN, the advisory flags and QV are written, `done QLEN`
(R191, R196). -/
def State.commitQuestion (s : State) (buf : List Byte) (ll : Bool) : State :=
  State.done
    { s with
      qbuf := buf
      qlen := buf.length
      longLabel := ll
      longName := longNameLength buf.length
      qv := true }
    (BitVec.ofNat 16 buf.length)

/-- The end of a question constructor: the bytes and LONG_LABEL of the question, or a failure. -/
def finishQuestion (s : State) (end_ : Except Status (List Byte × Bool)) : State :=
  match end_ with
  | .ok q => s.commitQuestion q.1 q.2
  | .error st => s.failQuestion st

/-! ### Q_BUILD (R190 to R195) -/

/-- The transient state at acceptance, after the CAPACITY test (R195): offset 0 is reserved for the first length byte.
What a reserved byte holds until it is written is not observable; the model puts 0 there (log 14). -/
def QBuild.start (nameLen qtype qclass : Half) : QBuild where
  nameLen := nameLen.toNat
  qtype := qtype
  qclass := qclass
  taken := 0
  buf := [0]
  lenAt := 0
  count := 0
  ll := false
  big := false

/-- Close the current label: `S[s] <- m mod 256; if m >= 64 then ll <- 1; if m > 255 then big <- 1` (R195). -/
def QBuild.closeLabel (b : QBuild) : QBuild :=
  { b with
    buf := b.buf.set b.lenAt (BitVec.ofNat 8 (b.count % 256))
    ll := b.ll || longLabelLength b.count
    big := b.big || decide (b.count > 255) }

/-- Open a label at the write offset: `s <- n; n <- n + 1; m <- 0` (R195). -/
def QBuild.openLabel (b : QBuild) : QBuild :=
  { b with lenAt := b.buf.length, buf := b.buf ++ [0], count := 0 }

/-- What Q_BUILD does with a name byte: a separator closes a label and opens the next, any other byte is label content
(R190, R195). -/
def QBuild.take (b : QBuild) (x : Byte) : QBuild :=
  if x = separator then { b.closeLabel.openLabel with taken := b.taken + 1 }
  else { b with taken := b.taken + 1, buf := b.buf ++ [x], count := b.count + 1 }

/-- The terminator, QTYPE and QCLASS, high bytes first (R191). -/
def questionTail (qtype qclass : Half) : List Byte := [0, hi8 qtype, lo8 qtype, hi8 qclass, lo8 qclass]

/-- When t = name_len: the last label is closed; UNENCODABLE if a label was too long, else the finished question
(R195). -/
def QBuild.finish (b : QBuild) : Except Status (List Byte × Bool) :=
  if b.closeLabel.big then .error .unencodable
  else .ok (b.closeLabel.buf ++ questionTail b.qtype b.qclass, b.closeLabel.ll)

/-- Q_BUILD's steps (R195): at t = name_len it ends; before that it ends truncated when IN_EOS = 1, and otherwise takes
a byte. -/
def qBuildReader : Reader QBuild (Except Status (List Byte × Bool)) where
  ends := fun b eos =>
    if b.taken = b.nameLen then some b.finish
    else if eos then some (.error .truncatedInput)
    else none
  take := QBuild.take

/-- Q_BUILD from transient state `b`. -/
def continueQBuild (s : State) (b : QBuild) : State :=
  s.afterReads .qBuild finishQuestion (consume qBuildReader s.input s.inEos b)

/-- Q_BUILD (R191): the old question is dropped; CAPACITY when name_len + 6 > QCAP, nothing read; else the name is
read. The sum is formed without wrap (R193). -/
def execQBuild (nameLen qtype qclass : Half) (s : State) : Host.Outcome State Fault Refusal :=
  .next (
    if nameLen.toNat + 6 > s.cfg.qcap then s.dropQuestion.failQuestion .capacity
    else continueQBuild s.dropQuestion (QBuild.start nameLen qtype qclass))

/-! ### Q_LOAD (R196 to R199) -/

/-- The parser at acceptance (R198). -/
def QParse.start : QParse := { phase := .len, rem := 0, buf := [], ll := false }

/-- What the parser does with a byte: `S[n] <- x; n <- n + 1`, then the arm of its phase (R198). -/
def QParse.take (p : QParse) (x : Byte) : QParse :=
  let buf := p.buf ++ [x]
  match p.phase with
  | .len =>
    if x = 0 then { p with buf := buf, phase := .tail, rem := 4 }
    else { p with buf := buf, phase := .body, rem := x.toNat, ll := p.ll || longLabelLength x.toNat }
  | .body => { p with buf := buf, phase := if p.rem - 1 = 0 then .len else .body, rem := p.rem - 1 }
  | .tail => { p with buf := buf, rem := p.rem - 1 }

/-- The four tail bytes have been taken (R198). -/
def QParse.finished (p : QParse) : Bool := p.phase == .tail && p.rem == 0

/-- Q_LOAD's steps (R198): the question when the tail is complete; else CAPACITY at n = QCAP, then TRUNCATED_INPUT at
IN_EOS = 1; else a byte is taken. -/
def qLoadReader (qcap : Nat) : Reader QParse (Except Status (List Byte × Bool)) where
  ends := fun p eos =>
    if p.finished then some (.ok (p.buf, p.ll))
    else if p.buf.length = qcap then some (.error .capacity)
    else if eos then some (.error .truncatedInput)
    else none
  take := QParse.take

/-- Q_LOAD from transient state `p`. -/
def continueQLoad (s : State) (p : QParse) : State :=
  s.afterReads .qLoad finishQuestion (consume (qLoadReader s.cfg.qcap) s.input s.inEos p)

/-- Q_LOAD (R196). -/
def execQLoad (s : State) : Host.Outcome State Fault Refusal :=
  .next (continueQLoad s.dropQuestion QParse.start)

/-! ### Reading a question -/

/-- Q_STORE's steps (R202): `(QBUF[k], last = (k = QLEN - 1))`, then k + 1, up to k = QLEN. -/
def qStoreNext (buf : List Byte) (qlen k : Nat) : Option (TaggedByte × Nat) :=
  if k < qlen then some ({ byte := qByte buf k, last := decide (k = qlen - 1) }, k + 1) else none

/-- Q_STORE from read offset `k`. -/
def continueQStore (s : State) (k : Nat) : State :=
  s.writeFrom (qStoreNext s.qbuf s.qlen) s.qlen .qStore (fun s' _ => s'.done (BitVec.ofNat 16 s'.qlen)) k

/-- Q_STORE (R200). -/
def execQStore (s : State) : Host.Outcome State Fault Refusal :=
  .next (s.withQuestion fun s => continueQStore s 0)

/-- Q_NAME at acceptance: offset 0, nothing emitted (R201, R202). -/
def NameCursor.start : NameCursor := { i := 0, rem := 0, e := 0, labelDone := false }

/-- In a body: present `QBUF[i]` with `last = (REM = 1 and QBUF[i+1] = 0)`; when taken, i + 1, REM - 1, e + 1 (R202). -/
def nameBodyByte (buf : List Byte) (c : NameCursor) : TaggedByte × NameCursor :=
  ({ byte := qByte buf c.i, last := decide (c.rem = 1 ∧ qByte buf (c.i + 1) = 0) },
   { i := c.i + 1, rem := c.rem - 1, e := c.e + 1, labelDone := decide (c.rem = 1) })

/-- Q_NAME's steps (R202). In a body, the next label byte; after a label, a separator if the byte at i is not zero; at a
length position, nothing more if it is zero, else the first byte of the label. -/
def qNameNext (buf : List Byte) (c : NameCursor) : Option (TaggedByte × NameCursor) :=
  if 0 < c.rem then some (nameBodyByte buf c)
  else if c.labelDone ∧ qByte buf c.i ≠ 0 then
    some ({ byte := separator, last := false }, { c with e := c.e + 1, labelDone := false })
  else if qByte buf c.i = 0 then none
  else some (nameBodyByte buf { c with i := c.i + 1, rem := (qByte buf c.i).toNat, labelDone := false })

/-- Q_NAME from position `c`. A valid question's name has fewer than QLEN bytes (R201 (e)), so QLEN bounds the bytes
written. -/
def continueQName (s : State) (c : NameCursor) : State :=
  s.writeFrom (qNameNext s.qbuf) s.qlen .qName (fun s' c' => s'.done (BitVec.ofNat 16 c'.e)) c

/-- Q_NAME (R201). -/
def execQName (s : State) : Host.Outcome State Fault Refusal :=
  .next (s.withQuestion fun s => continueQName s .start)

/-- QTYPE: `be16(QBUF[QLEN-4], QBUF[QLEN-3])` (R203). -/
def questionType (s : State) : Half := be16 (qByte s.qbuf (s.qlen - 4)) (qByte s.qbuf (s.qlen - 3))

/-- QCLASS: `be16(QBUF[QLEN-2], QBUF[QLEN-1])` (R204). -/
def questionClass (s : State) : Half := be16 (qByte s.qbuf (s.qlen - 2)) (qByte s.qbuf (s.qlen - 1))

/-- Q_GET_TYPE (R203). -/
def execQGetType (s : State) : Host.Outcome State Fault Refusal :=
  .next (s.withQuestion fun s => s.done (questionType s))

/-- Q_GET_CLASS (R204). -/
def execQGetClass (s : State) : Host.Outcome State Fault Refusal :=
  .next (s.withQuestion fun s => s.done (questionClass s))

/-- Q_GET_LEN (R205): `done QLEN`. -/
def execQGetLen (s : State) : Host.Outcome State Fault Refusal :=
  .next (s.withQuestion fun s => s.done (BitVec.ofNat 16 s.qlen))

end Sys2Proof.Machine
end

