-- ==== Sys2Proof/Machine/StatusStream.lean ====
section
/-! DEFINITION. GET_STATUS and IN_NEXT (43_stream_status.md R230, R231). -/

namespace Sys2Proof.Machine

/-- GET_STATUS (R230): `done STATUS`. -/
def execGetStatus (s : State) : Host.Outcome State Fault Refusal :=
  .next (s.done (statusView s))

/-- The draining loop of IN_NEXT: `while IN_EOS = 0`, a byte is removed and discarded (R231). -/
def drainReader : Reader Unit Unit where
  ends := fun _ eos => if eos then some () else none
  take := fun _ _ => ()

/-- The end of IN_NEXT: `IN_EOS <- 0; done 0` (R231). -/
def finishInNext (s : State) (_ : Unit) : State := State.done { s with inEos := false } 0

/-- IN_NEXT from inside its loop. -/
def continueInNext (s : State) : State :=
  s.afterReads (fun _ => .inNext) finishInNext (consume drainReader s.input s.inEos ())

/-- IN_NEXT (R231). -/
def execInNext (s : State) : Host.Outcome State Fault Refusal :=
  .next (continueInNext s)

end Sys2Proof.Machine
end

