-- ==== Sys2Proof/Machine/Advance.lean ====
section
/-! DEFINITION. Going on with the command in execution, taking the next command word, and placing one: what
Machine/Step.lean calls. -/

namespace Sys2Proof.Machine

/-- Go on with the command in execution as far as the channels let it (20_memory.md R64, R66, R70). Where nothing has
lifted the hold this changes nothing. -/
def State.advance (s : State) : State :=
  match s.activity with
  | .idle => s
  | .hdrLoad staged => continueHdrLoad s staged
  | .hdrStore k => continueHdrStore s k
  | .inNext => continueInNext s
  | .qBuild b => continueQBuild s b
  | .qLoad p => continueQLoad s p
  | .qStore k => continueQStore s k
  | .qName c => continueQName s c
  | .responding r => s.deliver r

/-- A word is accepted from the command channel: `rest` is what the host still has to send (20_memory.md R69). -/
def State.accept (s : State) (rest : List CmdWord) : State := { s with cmds := rest }

/-- `w` is the next word the host sends, and the block can take it: nothing is in execution and rst = 0
(20_memory.md R70, 70_reset_and_hazards.md R270; log 11). -/
def State.placeCommand (s : State) (w : CmdWord) : State :=
  { s with cmds := w :: s.cmds, activity := .idle, rst := false }

end Sys2Proof.Machine
end

