-- ==== Sys2Proof/Machine/HeaderFields.lean ====
section
/-! DEFINITION. The 26 header field accessors (41_header_fields.md R140 to R187). Each begins with
`if HV = 0: fail NO_OBJECT` (R140); a getter then answers a view of HDR and changes nothing, a setter writes the header
bits its rule names and answers `done 0`. -/

namespace Sys2Proof.Machine

/-- What all getters of the family share (R140). -/
def headerGetter (view : Header → Half) (s : State) : Host.Outcome State Fault Refusal :=
  .next (s.withHeader fun s => s.done (view s.hdr))

/-- What all setters of the family share (R140). -/
def headerSetter (write : Header → Header) (s : State) : Host.Outcome State Fault Refusal :=
  .next (s.withHeader fun s => State.done { s with hdr := write s.hdr } 0)

/-! ### The 16-bit fields -/

/-- GET_ID (R142): `done Get16(0)`. -/
def execGetId (s : State) : Host.Outcome State Fault Refusal :=
  headerGetter (fun h => get16 h offId) s

/-- GET_QDCOUNT (R143): `done Get16(4)`. -/
def execGetQdcount (s : State) : Host.Outcome State Fault Refusal :=
  headerGetter (fun h => get16 h offQdcount) s

/-- GET_ANCOUNT (R144): `done Get16(6)`. -/
def execGetAncount (s : State) : Host.Outcome State Fault Refusal :=
  headerGetter (fun h => get16 h offAncount) s

/-- GET_NSCOUNT (R145): `done Get16(8)`. -/
def execGetNscount (s : State) : Host.Outcome State Fault Refusal :=
  headerGetter (fun h => get16 h offNscount) s

/-- GET_ARCOUNT (R146): `done Get16(10)`. -/
def execGetArcount (s : State) : Host.Outcome State Fault Refusal :=
  headerGetter (fun h => get16 h offArcount) s

/-- SET_ID (R148): `Set16(0, a); done 0`. -/
def execSetId (value : Half) (s : State) : Host.Outcome State Fault Refusal :=
  headerSetter (fun h => set16 h offId value) s

/-- SET_QDCOUNT (R149): `Set16(4, a); done 0`. -/
def execSetQdcount (value : Half) (s : State) : Host.Outcome State Fault Refusal :=
  headerSetter (fun h => set16 h offQdcount value) s

/-- SET_ANCOUNT (R150): `Set16(6, a); done 0`. -/
def execSetAncount (value : Half) (s : State) : Host.Outcome State Fault Refusal :=
  headerSetter (fun h => set16 h offAncount value) s

/-- SET_NSCOUNT (R151): `Set16(8, a); done 0`. -/
def execSetNscount (value : Half) (s : State) : Host.Outcome State Fault Refusal :=
  headerSetter (fun h => set16 h offNscount value) s

/-- SET_ARCOUNT (R152): `Set16(10, a); done 0`. -/
def execSetArcount (value : Half) (s : State) : Host.Outcome State Fault Refusal :=
  headerSetter (fun h => set16 h offArcount value) s

/-! ### The five flags, at the places of R155 -/

/-- GET_QR (R156): `done BitGet(2, 0)`. -/
def execGetQr (s : State) : Host.Outcome State Fault Refusal :=
  headerGetter (fun h => bitData (bitGet h 2 0)) s

/-- GET_AA (R157): `done BitGet(2, 5)`. -/
def execGetAa (s : State) : Host.Outcome State Fault Refusal :=
  headerGetter (fun h => bitData (bitGet h 2 5)) s

/-- GET_TC (R158): `done BitGet(2, 6)`. -/
def execGetTc (s : State) : Host.Outcome State Fault Refusal :=
  headerGetter (fun h => bitData (bitGet h 2 6)) s

/-- GET_RD (R159): `done BitGet(2, 7)`. -/
def execGetRd (s : State) : Host.Outcome State Fault Refusal :=
  headerGetter (fun h => bitData (bitGet h 2 7)) s

/-- GET_RA (R160): `done BitGet(3, 0)`. -/
def execGetRa (s : State) : Host.Outcome State Fault Refusal :=
  headerGetter (fun h => bitData (bitGet h 3 0)) s

/-- SET_QR (R162): `BitSet(2, 0, a); done 0`. -/
def execSetQr (value : Bool) (s : State) : Host.Outcome State Fault Refusal :=
  headerSetter (fun h => bitSet h 2 0 value) s

/-- SET_AA (R163): `BitSet(2, 5, a); done 0`. -/
def execSetAa (value : Bool) (s : State) : Host.Outcome State Fault Refusal :=
  headerSetter (fun h => bitSet h 2 5 value) s

/-- SET_TC (R164): `BitSet(2, 6, a); done 0`. -/
def execSetTc (value : Bool) (s : State) : Host.Outcome State Fault Refusal :=
  headerSetter (fun h => bitSet h 2 6 value) s

/-- SET_RD (R165): `BitSet(2, 7, a); done 0`. -/
def execSetRd (value : Bool) (s : State) : Host.Outcome State Fault Refusal :=
  headerSetter (fun h => bitSet h 2 7 value) s

/-- SET_RA (R166): `BitSet(3, 0, a); done 0`. -/
def execSetRa (value : Bool) (s : State) : Host.Outcome State Fault Refusal :=
  headerSetter (fun h => bitSet h 3 0 value) s

/-! ### OPCODE and RCODE -/

/-- GET_OPCODE (R176): the code, 0 to 3, of the symbol of the raw field. -/
def execGetOpcode (s : State) : Host.Outcome State Fault Refusal :=
  headerGetter (fun h => opcodeSymField (opSym (opcodeRaw h))) s

/-- SET_OPCODE (R177). -/
def execSetOpcode (sym : OpcodeSym) (s : State) : Host.Outcome State Fault Refusal :=
  headerSetter (fun h => setOpcodeField h sym) s

/-- GET_RCODE (R178): `0x0100 | code` for a recognised code, 0 for an absent one; OK in both outcomes. -/
def execGetRcode (s : State) : Host.Outcome State Fault Refusal :=
  headerGetter (fun h => rcodeData (rcSym (rcodeRaw h))) s

/-- SET_RCODE (R179). -/
def execSetRcode (sym : RcodeSym) (s : State) : Host.Outcome State Fault Refusal :=
  headerSetter (fun h => setRcodeField h sym) s

/-! ### The generic bit accessor

A byte offset above 11 is refused at decode (30_encoding.md R103, R248), before slot validity is looked at: a word with
such an offset spells no command and is answered with ILLEGAL_CMD, and so is the term (log 12). -/

/-- GET_BIT (R184): `done BitGet(byteoff, bitpos)`. -/
def execGetBit (byteoff : BitVec 4) (bitpos : BitVec 3) (s : State) : Host.Outcome State Fault Refusal :=
  if legalByteOffset byteoff then
    headerGetter (fun h => bitData (bitGet h byteoff.toNat bitpos.toNat)) s
  else .next s.illegal

/-- SET_BIT (R185): `BitSet(byteoff, bitpos, a); done 0`. -/
def execSetBit (byteoff : BitVec 4) (bitpos : BitVec 3) (value : Bool) (s : State) :
    Host.Outcome State Fault Refusal :=
  if legalByteOffset byteoff then
    headerSetter (fun h => bitSet h byteoff.toNat bitpos.toNat value) s
  else .next s.illegal

end Sys2Proof.Machine
end

