-- ==== Sys2Proof/Machine/Dispatch.lean ====
section
/-! DEFINITION. exec: one arm per command of 30_encoding.md R96, each one direct call of its meaning. -/

namespace Sys2Proof.Machine

def exec (i : Instr) (s : State) : Host.Outcome State Fault Refusal :=
  match i with
  | .getStatus => Sys2Proof.Machine.execGetStatus s
  | .inNext => Sys2Proof.Machine.execInNext s
  | .hdrClear => Sys2Proof.Machine.execHdrClear s
  | .hdrLoad => Sys2Proof.Machine.execHdrLoad s
  | .hdrStore => Sys2Proof.Machine.execHdrStore s
  | .getId => Sys2Proof.Machine.execGetId s
  | .getQdcount => Sys2Proof.Machine.execGetQdcount s
  | .getAncount => Sys2Proof.Machine.execGetAncount s
  | .getNscount => Sys2Proof.Machine.execGetNscount s
  | .getArcount => Sys2Proof.Machine.execGetArcount s
  | .setId value => Sys2Proof.Machine.execSetId value s
  | .setQdcount value => Sys2Proof.Machine.execSetQdcount value s
  | .setAncount value => Sys2Proof.Machine.execSetAncount value s
  | .setNscount value => Sys2Proof.Machine.execSetNscount value s
  | .setArcount value => Sys2Proof.Machine.execSetArcount value s
  | .getQr => Sys2Proof.Machine.execGetQr s
  | .getAa => Sys2Proof.Machine.execGetAa s
  | .getTc => Sys2Proof.Machine.execGetTc s
  | .getRd => Sys2Proof.Machine.execGetRd s
  | .getRa => Sys2Proof.Machine.execGetRa s
  | .setQr value => Sys2Proof.Machine.execSetQr value s
  | .setAa value => Sys2Proof.Machine.execSetAa value s
  | .setTc value => Sys2Proof.Machine.execSetTc value s
  | .setRd value => Sys2Proof.Machine.execSetRd value s
  | .setRa value => Sys2Proof.Machine.execSetRa value s
  | .getOpcode => Sys2Proof.Machine.execGetOpcode s
  | .getRcode => Sys2Proof.Machine.execGetRcode s
  | .setOpcode sym => Sys2Proof.Machine.execSetOpcode sym s
  | .setRcode sym => Sys2Proof.Machine.execSetRcode sym s
  | .getBit byteoff bitpos => Sys2Proof.Machine.execGetBit byteoff bitpos s
  | .setBit byteoff bitpos value => Sys2Proof.Machine.execSetBit byteoff bitpos value s
  | .qBuild nameLen qtype qclass => Sys2Proof.Machine.execQBuild nameLen qtype qclass s
  | .qLoad => Sys2Proof.Machine.execQLoad s
  | .qStore => Sys2Proof.Machine.execQStore s
  | .qName => Sys2Proof.Machine.execQName s
  | .qGetType => Sys2Proof.Machine.execQGetType s
  | .qGetClass => Sys2Proof.Machine.execQGetClass s
  | .qGetLen => Sys2Proof.Machine.execQGetLen s

end Sys2Proof.Machine
end

