-- ==== Sys2Proof/Machine/Step.lean ====
section
/-! DEFINITION. One step of the block. With rst = 1 it is the reset (70_reset_and_hazards.md R270). A command in
execution goes on; otherwise the next command word is accepted, decoded and executed to its response or to a hold; with
no word there the block stays idle (R271). Between steps the environment may act (log 6, log 7). -/

namespace Sys2Proof.Machine

/-- Accept the word `w` and answer it: exec of the command it spells, or ILLEGAL_CMD (30_encoding.md R98, R104). -/
def runWord (w : CmdWord) (s : State) : Host.Outcome State Fault Refusal :=
  match decode w with
  | .ok i => exec i s
  | .error _ => .next s.illegal

/-- One step. -/
def step (s : State) : Host.Outcome State Fault Refusal :=
  if s.rst then .next s.applyReset
  else if s.activity = .idle then
    match s.cmds with
    | [] => .next s
    | w :: rest => runWord w (s.accept rest)
  else .next s.advance

/-- `s` with the command word whose bits are `w` as the next one the host sends, the block ready to take it. -/
def State.withFetchWord (s : State) (nbits w : Nat) : State :=
  s.placeCommand (BitVec.ofNat 64 (w % 2 ^ nbits))

end Sys2Proof.Machine
end

