-- ==== Sys2Proof/Machine/Assembler.lean ====
section
/-! DEFINITION. The textual form of commands and responses (30_encoding.md R108 to R112). It is no part of the machine:
no command reads a text or the record-type table (R112). A line is a list of characters; an operand outside its
format's constraint is refused, never truncated (R109). What R108 leaves open is log 20. -/

namespace Sys2Proof.Machine

/-! ### Names (R96, R109, R112) -/

/-- The op and mnemonic columns of R96. -/
def mnemonicTable : List (String × BitVec 8) :=
  [("GET_STATUS", 0x01), ("IN_NEXT", 0x02), ("HDR_CLEAR", 0x10), ("HDR_LOAD", 0x11), ("HDR_STORE", 0x12),
   ("GET_ID", 0x20), ("GET_QDCOUNT", 0x21), ("GET_ANCOUNT", 0x22), ("GET_NSCOUNT", 0x23), ("GET_ARCOUNT", 0x24)] ++
  [("SET_ID", 0x28), ("SET_QDCOUNT", 0x29), ("SET_ANCOUNT", 0x2A), ("SET_NSCOUNT", 0x2B), ("SET_ARCOUNT", 0x2C),
   ("GET_QR", 0x30), ("GET_AA", 0x31), ("GET_TC", 0x32), ("GET_RD", 0x33), ("GET_RA", 0x34)] ++
  [("SET_QR", 0x38), ("SET_AA", 0x39), ("SET_TC", 0x3A), ("SET_RD", 0x3B), ("SET_RA", 0x3C),
   ("GET_OPCODE", 0x40), ("GET_RCODE", 0x41), ("SET_OPCODE", 0x48), ("SET_RCODE", 0x49)] ++
  [("GET_BIT", 0x50), ("SET_BIT", 0x58), ("Q_BUILD", 0x60), ("Q_LOAD", 0x61), ("Q_STORE", 0x62), ("Q_NAME", 0x63),
   ("Q_GET_TYPE", 0x64), ("Q_GET_CLASS", 0x65), ("Q_GET_LEN", 0x66)]

/-- The names the assembler accepts for an OPCODE symbol (R109). -/
def opcodeNames : List (String × Nat) := [("QUERY", 0), ("IQUERY", 1), ("STATUS", 2), ("RESERVED", 3)]

/-- The names the assembler accepts for an RCODE symbol (R109). -/
def rcodeNames : List (String × Nat) :=
  [("NoError", 0), ("FormatError", 1), ("ServerFailure", 2), ("NameError", 3), ("NotImplemented", 4), ("Refused", 5)]

/-- ResourceRecordType (R112): the sixteen names in code order, accepted for the qtype operand (R109). -/
def recordTypes : List (String × Nat) :=
  [("A", 1), ("NS", 2), ("MD", 3), ("MF", 4), ("CNAME", 5), ("SOA", 6), ("MB", 7), ("MG", 8), ("MR", 9),
   ("NULL", 10), ("WKS", 11), ("PTR", 12), ("HINFO", 13), ("MINFO", 14), ("MX", 15), ("TXT", 16)]

/-- The entry of a table under a name. -/
def nameLookup {α : Type} (table : List (String × α)) (name : List Char) : Option α :=
  (table.find? fun e => e.1.toList == name).map Prod.snd

/-! ### Numbers: decimal, `0x` hexadecimal, `0b` binary, underscores between digits (R108) -/

/-- The value of a digit below the base. -/
def digitValue (base : Nat) (c : Char) : Option Nat :=
  let v :=
    if '0'.toNat ≤ c.toNat ∧ c.toNat ≤ '9'.toNat then c.toNat - '0'.toNat
    else if 'A'.toNat ≤ c.toNat ∧ c.toNat ≤ 'F'.toNat then c.toNat - 'A'.toNat + 10
    else if 'a'.toNat ≤ c.toNat ∧ c.toNat ≤ 'f'.toNat then c.toNat - 'a'.toNat + 10
    else base
  if v < base then some v else none

/-- The number the digits spell after `acc`; an underscore stands between two digits. -/
def digitsFrom (base : Nat) : List Char → Nat → Bool → Option Nat
  | [], acc, afterDigit => if afterDigit then some acc else none
  | c :: cs, acc, afterDigit =>
    if c = '_' then (if afterDigit then digitsFrom base cs acc false else none)
    else
      match digitValue base c with
      | some d => digitsFrom base cs (acc * base + d) true
      | none => none

/-- A number in one of the three notations. -/
def parseNumber (cs : List Char) : Option Nat :=
  match cs with
  | '0' :: 'x' :: r => digitsFrom 16 r 0 false
  | '0' :: 'b' :: r => digitsFrom 2 r 0 false
  | r => digitsFrom 10 r 0 false

/-- A number of at most `max`; a larger one is refused (R109). -/
def parseUpTo (max : Nat) (cs : List Char) : Option Nat := (parseNumber cs).filter (· ≤ max)

/-- A name of the table, or a number of at most `max`. -/
def parseNamed (table : List (String × Nat)) (max : Nat) (cs : List Char) : Option Nat :=
  (nameLookup table cs).orElse fun _ => parseUpTo max cs

/-- A 16-bit operand. -/
def parseHalf (cs : List Char) : Option Half := (parseUpTo 65535 cs).map (BitVec.ofNat 16)

/-- A flag operand, 0 or 1. -/
def parseFlag (cs : List Char) : Option Bool := (parseUpTo 1 cs).map (· == 1)

/-! ### Lines -/

/-- A blank between words. -/
def isBlank (c : Char) : Bool := c == ' ' || c == '\t'

/-- The text without blanks at its ends. -/
def trimBlanks (cs : List Char) : List Char := ((cs.dropWhile isBlank).reverse.dropWhile isBlank).reverse

/-- The pieces of the text between commas. -/
def commaPieces : List Char → List (List Char)
  | [] => [[]]
  | c :: cs =>
    if c = ',' then [] :: commaPieces cs
    else
      match commaPieces cs with
      | [] => [[c]]
      | p :: ps => (c :: p) :: ps

/-- The line without its comment, "from `;` to the end of the line" (R108), and without blanks at its ends. -/
def lineBody (line : List Char) : List Char := trimBlanks (line.takeWhile (· != ';'))

/-- The mnemonic: the line's first word. -/
def lineMnemonic (line : List Char) : List Char := (lineBody line).takeWhile fun c => !isBlank c

/-- The operands, separated by commas (R108). -/
def lineOperands (line : List Char) : List (List Char) :=
  let rest := trimBlanks ((lineBody line).dropWhile fun c => !isBlank c)
  if rest.isEmpty then [] else (commaPieces rest).map trimBlanks

/-- The operands of a command by its format, in the order of R108. -/
def assembleOperands (f : Form) (ops : List (List Char)) : Option Instr :=
  match f, ops with
  | .n i, [] => some i
  | .v mk, [v] => (parseHalf v).map mk
  | .f mk, [v] => (parseFlag v).map mk
  | .eo mk, [v] => ((parseNamed opcodeNames 3 v).bind fun n => opcodeSymOf (BitVec.ofNat 16 n)).map mk
  | .er mk, [v] => ((parseNamed rcodeNames 5 v).bind fun n => rcodeSymOf (BitVec.ofNat 16 n)).map mk
  | .bg mk, [o, p] =>
    (parseUpTo 11 o).bind fun o => (parseUpTo 7 p).map fun p => mk (BitVec.ofNat 4 o) (BitVec.ofNat 3 p)
  | .bs mk, [o, p, v] =>
    (parseUpTo 11 o).bind fun o => (parseUpTo 7 p).bind fun p =>
      (parseFlag v).map fun v => mk (BitVec.ofNat 4 o) (BitVec.ofNat 3 p) v
  | .q mk, [n, t, c] =>
    (parseHalf n).bind fun n => (parseNamed recordTypes 65535 t).bind fun t =>
      (parseHalf c).map fun c => mk n (BitVec.ofNat 16 t) c
  | _, _ => none

/-- The command of a line; `none` where the assembler refuses it. -/
def assembleLine (line : List Char) : Option Instr :=
  (nameLookup mnemonicTable (lineMnemonic line)).bind fun op =>
    (formOf op).bind fun f => assembleOperands f (lineOperands line)

/-- The command word of a line: "every mnemonic is one command word" (R110). -/
def assembleWord (line : List Char) : Option CmdWord := (assembleLine line).map encode

/-! ### Responses (R111) -/

/-- The status names of R94. -/
def statusName (st : Status) : String :=
  match st with
  | .ok => "OK"
  | .truncatedInput => "TRUNCATED_INPUT"
  | .illegalCmd => "ILLEGAL_CMD"
  | .noObject => "NO_OBJECT"
  | .capacity => "CAPACITY"
  | .unencodable => "UNENCODABLE"

/-- A hexadecimal digit. -/
def hexDigit (n : Nat) : Char := "0123456789ABCDEF".toList.getD n '0'

/-- `-> STATUSNAME, data` (R111), the data as four hexadecimal digits. -/
def responseText (st : Status) (data : Half) : List Char :=
  let n := data.toNat
  "-> ".toList ++ (statusName st).toList ++ ", 0x".toList ++
    [hexDigit (n / 4096), hexDigit (n / 256 % 16), hexDigit (n / 16 % 16), hexDigit (n % 16)]

end Sys2Proof.Machine
end

