-- ==== Sys2Proof/Machine/HostInterface.lean ====
section
/-! DEFINITION. What the environment can do between steps, also while a command is held (20_memory.md R60, R64, R67,
R69; 60_exceptions.md R252; 70_reset_and_hazards.md R270). -/

namespace Sys2Proof.Machine

/-- The host presents one more command word (20_memory.md R60: commands arrive in the order the host sends them). -/
def State.sendCommand (s : State) (w : CmdWord) : State := { s with cmds := s.cmds ++ [w] }

/-- The transport presents more input bytes: "the transport may append to its end at any time" (20_memory.md R60). -/
def State.presentInput (s : State) (bytes : List TaggedByte) : State := { s with input := s.input ++ bytes }

/-- The transport is ready to take output bytes as `r` says (20_memory.md R66). -/
def State.setOutReady (s : State) (r : Readiness) : State := { s with outReady := r }

/-- A readiness of `r` transfers, raised by `more`. -/
def Readiness.plus (r more : Readiness) : Readiness :=
  match r with
  | .always => .always
  | .times m =>
    match more with
    | .always => .always
    | .times n => .times (m + n)

/-- The transport is ready to take `more` output bytes than before: what lifts the hold of a storing command
(20_memory.md R67). -/
def State.takeMore (s : State) (more : Readiness) : State := { s with outReady := s.outReady.plus more }

/-- The host is ready to take responses as `r` says (20_memory.md R69). -/
def State.setRspReady (s : State) (r : Readiness) : State := { s with rspReady := r }

/-- The environment drives the rst pin (70_reset_and_hazards.md R270). -/
def State.setRst (s : State) (level : Bool) : State := { s with rst := level }

end Sys2Proof.Machine
end

