-- ==== Sys2Proof/Machine/Ports.lean ====
section
/-! DEFINITION. The output pins of one instance as they stand between steps (20_memory.md R68 to R70,
70_reset_and_hazards.md R270), computed from the state. The input pins are the environment fields of State. -/

namespace Sys2Proof.Machine

/-- cmd_ready: "1 only when no command is in execution" (R70), 0 while rst = 1 (R270), 1 when the block is idle (R270,
60_exceptions.md R260). -/
def State.cmdReady (s : State) : Bool := !s.rst && decide (s.activity = .idle)

/-- rsp_valid: a response is presented (R68), not while rst = 1 (R270). -/
def State.rspValid (s : State) : Bool :=
  !s.rst && match s.activity with
    | .responding _ => true
    | .idle | .hdrLoad _ | .hdrStore _ | .inNext | .qBuild _ | .qLoad _ | .qStore _ | .qName _ => false

/-- rsp_data, while rsp_valid = 1 (R68). -/
def State.rspData (s : State) : Option RspWord :=
  match s.activity with
  | .responding r => if s.rst then none else some r
  | .idle | .hdrLoad _ | .hdrStore _ | .inNext | .qBuild _ | .qLoad _ | .qStore _ | .qName _ => none

/-- The command in execution would take an input byte now: it is inside `ReadIn` or the draining loop and its test
before the read does not end it. -/
def State.wantsByte (s : State) : Bool :=
  match s.activity with
  | .hdrLoad staged => (hdrLoadReader.ends staged s.inEos).isNone
  | .inNext => (drainReader.ends () s.inEos).isNone
  | .qBuild b => (qBuildReader.ends b s.inEos).isNone
  | .qLoad p => ((qLoadReader s.cfg.qcap).ends p s.inEos).isNone
  | .idle | .hdrStore _ | .qStore _ | .qName _ | .responding _ => false

/-- in_ready: "1 only while the command in execution is inside ReadIn or the draining loop of IN_NEXT and wants a byte"
(R70), 0 while rst = 1 (R270). -/
def State.inReady (s : State) : Bool := !s.rst && s.wantsByte

/-- The byte the command in execution would write next. -/
def State.nextOutByte (s : State) : Option TaggedByte :=
  match s.activity with
  | .hdrStore k => (hdrStoreNext s.hdr k).map Prod.fst
  | .qStore k => (qStoreNext s.qbuf s.qlen k).map Prod.fst
  | .qName c => (qNameNext s.qbuf c).map Prod.fst
  | .idle | .hdrLoad _ | .inNext | .qBuild _ | .qLoad _ | .responding _ => none

/-- out_valid: "1 only while it is inside WriteOut" (R70), 0 while rst = 1 (R270). -/
def State.outValid (s : State) : Bool := !s.rst && s.nextOutByte.isSome

/-- out_data and out_last, while out_valid = 1 (R68). -/
def State.outData (s : State) : Option TaggedByte := if s.rst then none else s.nextOutByte

end Sys2Proof.Machine
end

