-- ==== Sys2Proof/Machine/Pseudocode.lean ====
section
/-! DEFINITION. The atomic pseudocode of the stream commands (20_memory.md R62, R66; 40_header_lifecycle.md R121, R122;
42_question.md R191, R192, R196, R200, R201; 43_stream_status.md R231), as the spec prints it. The meanings run the
byte-step refinements (R124, R125, R195, R198, R202); the obligations state that the two agree on every input. Each
function answers the state after the command, or `none` when the command holds. -/

namespace Sys2Proof.Machine

/-! ### `ReadIn(n)` (20_memory.md R62) -/

/-- What `ReadIn` answers: the bytes, with what is left of IN and with IN_EOS; `Underrun`, with what is left of IN
(IN_EOS is 1); or nothing yet, holding for a byte. -/
inductive ReadIn where
  | bytes (r : List Byte) (rest : List TaggedByte) (eos : Bool)
  | underrun (rest : List TaggedByte)
  | hold
deriving DecidableEq, Repr

/-- Put the byte just read before the bytes the rest of the loop returns. -/
def ReadIn.push (b : Byte) (r : ReadIn) : ReadIn :=
  match r with
  | .bytes bs rest eos => .bytes (b :: bs) rest eos
  | .underrun rest => .underrun rest
  | .hold => .hold

/-- `ReadIn(n)` (R62). -/
def readIn : Nat → List TaggedByte → Bool → ReadIn
  | 0, input, eos => .bytes [] input eos
  | _ + 1, input, true => .underrun input
  | _ + 1, [], false => .hold
  | n + 1, x :: rest, false => (readIn n rest (eosAfter false x)).push x.byte

/-! ### `WriteOut(l)` (20_memory.md R66) -/

/-- The bytes of `l`, the last one tagged; nothing for the empty list. -/
def tagLast : List Byte → List TaggedByte
  | [] => []
  | [b] => [{ byte := b, last := true }]
  | b :: c :: l => { byte := b, last := false } :: tagLast (c :: l)

/-- `WriteOut(l)`, then `k`: OUT has gained the bytes; `none` while the transport is not ready for all of them. -/
def writeOut (s : State) (l : List Byte) (k : State → State) : Option State :=
  if s.outReady.grant l.length = l.length then
    some (k { s with output := s.output ++ tagLast l, outReady := s.outReady.spend l.length })
  else none

/-! ### HDR_LOAD and HDR_STORE -/

/-- R121. -/
def pseudoHdrLoad (s : State) : Option State :=
  let s := { s with hv := false }
  match readIn 12 s.input s.inEos with
  | .hold => none
  | .underrun rest => some (State.failHeader { s with input := rest, inEos := true } .truncatedInput)
  | .bytes r rest eos =>
    some (State.done { s with hdr := headerOfBytes r, hv := true, input := rest, inEos := eos } 0)

/-- R122. -/
def pseudoHdrStore (s : State) : Option State :=
  if s.hv = false then some (s.fail .noObject)
  else writeOut s s.hdr.toList fun s => s.done 12

/-! ### IN_NEXT -/

/-- `while IN_EOS = 0: remove and discard a byte; if last = 1: IN_EOS <- 1` (R231): what is left of IN, or `none` for a
hold. -/
def drain : List TaggedByte → Bool → Option (List TaggedByte)
  | input, true => some input
  | [], false => none
  | x :: rest, false => drain rest (eosAfter false x)

/-- R231. -/
def pseudoInNext (s : State) : Option State :=
  match drain s.input s.inEos with
  | none => none
  | some rest => some (State.done { s with input := rest, inEos := false } 0)

/-! ### Q_BUILD -/

/-- `Split(n)` (R192): the loop, with `labels` and `cur`. -/
def splitLoop : List Byte → List (List Byte) → List Byte → List (List Byte)
  | [], labels, cur => labels ++ [cur]
  | x :: n, labels, cur =>
    if x = separator then splitLoop n (labels ++ [cur]) [] else splitLoop n labels (cur ++ [x])

/-- `Split(n)` (R192). -/
def split (n : List Byte) : List (List Byte) := splitLoop n [] []

/-- `for each label l of labels, in order: buf <- buf ++ [len(l)] ++ l` (R191). -/
def wireLabels (labels : List (List Byte)) : List Byte :=
  labels.flatMap fun l => BitVec.ofNat 8 l.length :: l

/-- R191. -/
def pseudoQBuild (nameLen qtype qclass : Half) (s : State) : Option State :=
  let s := { s with qv := false, longLabel := false, longName := false }
  if nameLen.toNat + 6 > s.cfg.qcap then some (s.failQuestion .capacity)
  else
    match readIn nameLen.toNat s.input s.inEos with
    | .hold => none
    | .underrun rest => some (State.failQuestion { s with input := rest, inEos := true } .truncatedInput)
    | .bytes n rest eos =>
      let s := { s with input := rest, inEos := eos }
      let labels := split n
      if labels.any fun l => decide (l.length > 255) then some (s.failQuestion .unencodable)
      else
        let buf := wireLabels labels ++ [0] ++ [hi8 qtype, lo8 qtype] ++ [hi8 qclass, lo8 qclass]
        some (State.done
          { s with
            qbuf := buf
            qlen := buf.length
            longLabel := labels.any fun l => decide (l.length ≥ 64)
            longName := decide (buf.length - 4 > 255)
            qv := true }
          (BitVec.ofNat 16 buf.length))

/-! ### Q_LOAD -/

/-- What `Take()` and the loops over it answer (R196): the byte or the result, with buf, IN and IN_EOS; a failure, with
what is left of IN and with IN_EOS; or a hold. -/
inductive Took (α : Type) where
  | got (a : α) (buf : List Byte) (rest : List TaggedByte) (eos : Bool)
  | fail (st : Status) (rest : List TaggedByte) (eos : Bool)
  | hold
deriving DecidableEq, Repr

/-- Go on with what was taken. -/
def Took.andThen {α β : Type} (t : Took α) (k : α → List Byte → List TaggedByte → Bool → Took β) : Took β :=
  match t with
  | .got a buf rest eos => k a buf rest eos
  | .fail st rest eos => .fail st rest eos
  | .hold => .hold

/-- `Take()` (R196): "if len(buf) = QCAP: fail CAPACITY; r <- ReadIn(1); if r = Underrun: fail TRUNCATED_INPUT;
buf <- buf ++ r; return r[0]". -/
def takeByte (qcap : Nat) (buf : List Byte) (input : List TaggedByte) (eos : Bool) : Took Byte :=
  if buf.length = qcap then .fail .capacity input eos
  else
    match readIn 1 input eos with
    | .hold => .hold
    | .underrun rest => .fail .truncatedInput rest true
    | .bytes r rest eos => .got (r.headD 0) (buf ++ r) rest eos

/-- `repeat n times: Take()` (R196). -/
def takeBytes (qcap : Nat) : Nat → List Byte → List TaggedByte → Bool → Took Unit
  | 0, buf, input, eos => .got () buf input eos
  | n + 1, buf, input, eos =>
    (takeByte qcap buf input eos).andThen fun _ buf input eos => takeBytes qcap n buf input eos

/-- The label loop of R196; it answers `ll`. Each round stores at least one byte, so QCAP rounds are enough before a
CAPACITY failure: `fuel` is more than that and is never used up. -/
def labelLoop (qcap : Nat) : Nat → Bool → List Byte → List TaggedByte → Bool → Took Bool
  | 0, _, _, _, _ => .hold
  | fuel + 1, ll, buf, input, eos =>
    (takeByte qcap buf input eos).andThen fun l buf input eos =>
      if l = 0 then .got ll buf input eos
      else
        (takeBytes qcap l.toNat buf input eos).andThen fun _ buf input eos =>
          labelLoop qcap fuel (ll || decide (l.toNat ≥ 64)) buf input eos

/-- The whole parse of R196: the label loop, then `repeat 4 times: Take()`; it answers `ll`. -/
def parseQuestion (qcap : Nat) (input : List TaggedByte) (eos : Bool) : Took Bool :=
  (labelLoop qcap (qcap + 1) false [] input eos).andThen fun ll buf input eos =>
    (takeBytes qcap 4 buf input eos).andThen fun _ buf input eos => .got ll buf input eos

/-- R196. -/
def pseudoQLoad (s : State) : Option State :=
  let s := { s with qv := false, longLabel := false, longName := false }
  match parseQuestion s.cfg.qcap s.input s.inEos with
  | .hold => none
  | .fail st rest eos => some (State.failQuestion { s with input := rest, inEos := eos } st)
  | .got ll buf rest eos =>
    some (State.done
      { s with
        input := rest
        inEos := eos
        qbuf := buf
        qlen := buf.length
        longLabel := ll
        longName := decide (buf.length - 4 > 255)
        qv := true }
      (BitVec.ofNat 16 buf.length))

/-! ### Q_STORE and Q_NAME -/

/-- R200. -/
def pseudoQStore (s : State) : Option State :=
  if s.qv = false then some (s.fail .noObject)
  else writeOut s (s.qbuf.take s.qlen) fun s' => s'.done (BitVec.ofNat 16 s.qlen)

/-- The loop of R201, from offset `i` with `out` written so far. Each round moves the offset on, so `fuel` equal to the
buffer's length is never used up on a valid question. -/
def nameLoop (buf : List Byte) : Nat → Nat → List Byte → List Byte
  | 0, _, out => out
  | fuel + 1, i, out =>
    let l := qByte buf i
    if l = 0 then out
    else
      let out := out ++ (buf.drop (i + 1)).take l.toNat
      let i := i + 1 + l.toNat
      nameLoop buf fuel i (if qByte buf i ≠ 0 then out ++ [separator] else out)

/-- The dotted string of R201. -/
def dottedName (buf : List Byte) : List Byte := nameLoop buf buf.length 0 []

/-- R201. -/
def pseudoQName (s : State) : Option State :=
  if s.qv = false then some (s.fail .noObject)
  else writeOut s (dottedName s.qbuf) fun s' => s'.done (BitVec.ofNat 16 (dottedName s.qbuf).length)

end Sys2Proof.Machine
end

