-- ==== Sys2Proof/Safety.lean ====
section
/-! DEFINITION. The terms claims are stated in: the invariant of the machine, what parts of a state agree, and where the
channels serve a command. -/

namespace Sys2Proof.Machine

/-! ### Walking a question (10_state.md R26 (d)) -/

/-- "at a length byte L at offset i, if L = 0 stop, else go to offset i + 1 + L": where the walk from `i` stops, or
`none` when it leaves the buffer. The offset grows by two at least, so `fuel` above the buffer's length is never used
up. -/
def walkFrom (buf : List Byte) : Nat → Nat → Option Nat
  | 0, _ => none
  | fuel + 1, i =>
    match buf[i]? with
    | none => none
    | some l => if l = 0 then some i else walkFrom buf fuel (i + 1 + l.toNat)

/-- The offset `T` at which the walk from offset 0 stops (R26 (d)). -/
def walkEnd (buf : List Byte) : Option Nat := walkFrom buf (buf.length + 1) 0

/-- R26 (a), (b), (d) for a buffer: at least five bytes, a terminator five bytes before the end, and a walk that stops
at or before it. -/
def QuestionBytes (buf : List Byte) : Prop :=
  5 ≤ buf.length ∧ qByte buf (buf.length - 5) = 0 ∧ ∃ t, walkEnd buf = some t ∧ t ≤ buf.length - 5

/-- R27: "LONG_LABEL = 1 says the constructor met a label length of 64 or more". The buffer is made of labels, each
after its length byte, a terminator and four bytes, and `ll` says whether one of these labels has 64 bytes or more. A
label may be empty where Q_BUILD made the question (R26 (f)). -/
def LabelsSeen (buf : List Byte) (ll : Bool) : Prop :=
  ∃ (labels : List (List Byte)) (tail : List Byte), (∀ l ∈ labels, l.length ≤ 255) ∧ tail.length = 4 ∧
    buf = wireLabels labels ++ 0 :: tail ∧ (ll = true ↔ ∃ l ∈ labels, 64 ≤ l.length)

/-! ### The invariant -/

/-- A response word as R93 to R95 allow it: one of the six statuses, data 0 unless OK. -/
def LegalResponse (r : RspWord) : Prop := ∃ st data, r = rspWord st data ∧ (st ≠ .ok → data = 0)

/-- The parser has not met the end of a question in any beginning of these bytes (42_question.md R198). -/
def Unfinished (bytes : List Byte) : Prop :=
  ∀ k, k ≤ bytes.length → ((bytes.take k).foldl QParse.take QParse.start).finished = false

/-- What holds of a command in execution and its transient state (10_state.md R31). -/
def ActivityInvariant (s : State) : Prop :=
  match s.activity with
  | .idle => True
  | .hdrLoad staged => s.hv = false ∧ staged.length ≤ 12
  | .hdrStore k => s.hv = true ∧ k ≤ 12
  | .inNext => True
  | .qBuild b =>
    s.qv = false ∧ ∃ nameLen qtype qclass : Half, ∃ name : List Byte,
      nameLen.toNat + 6 ≤ s.cfg.qcap ∧ name.length ≤ nameLen.toNat ∧
      b = name.foldl QBuild.take (QBuild.start nameLen qtype qclass)
  | .qLoad p =>
    s.qv = false ∧ p.buf.length ≤ s.cfg.qcap ∧ p = p.buf.foldl QParse.take QParse.start ∧ Unfinished p.buf
  | .qStore k => s.qv = true ∧ k ≤ s.qlen
  | .qName c => s.qv = true ∧ ∃ n, c = (produce (qNameNext s.qbuf) n .start).2
  | .responding r => LegalResponse r

/-- The invariant every step keeps: the parameter is in its range (00_scope.md R8), QBUF has QLEN bytes and they fit
(10_state.md R24), the advisory flags are 0 while QV = 0 (R27), a valid question has the form of R26 and its LONG_NAME
and LONG_LABEL (R27), the transient state is what the command in execution has made of it (R31), and every response issued is legal
(30_encoding.md R93 to R95). -/
structure Invariant (s : State) : Prop where
  parameter : s.cfg.Valid
  bufferLength : s.qbuf.length = s.qlen
  bufferFits : s.qlen ≤ s.cfg.qcap
  flagsClear : s.qv = false → s.longLabel = false ∧ s.longName = false
  question : s.qv = true → QuestionBytes s.qbuf
  longName : s.qv = true → s.longName = longNameLength s.qlen
  longLabel : s.qv = true → LabelsSeen s.qbuf s.longLabel
  activity : ActivityInvariant s
  responses : ∀ r ∈ s.rsp, LegalResponse r

/-! ### Agreement of two states, part by part -/

/-- The header slot is the same. -/
def SameHeaderSlot (s t : State) : Prop := t.hdr = s.hdr ∧ t.hv = s.hv

/-- The question slot and its advisory flags are the same. -/
def SameQuestionSlot (s t : State) : Prop :=
  t.qbuf = s.qbuf ∧ t.qlen = s.qlen ∧ t.qv = s.qv ∧ t.longLabel = s.longLabel ∧ t.longName = s.longName

/-- The input stream and its flag are the same: nothing was read. -/
def SameInput (s t : State) : Prop := t.input = s.input ∧ t.inEos = s.inEos

/-- Nothing was written: the output stream and the transport's readiness are the same. -/
def SameOutput (s t : State) : Prop := t.output = s.output ∧ t.outReady = s.outReady

/-- The parameter, the host's pending words, the rst pin and the count of free values are the same. -/
def SameRest (s t : State) : Prop :=
  t.cfg = s.cfg ∧ t.cmds = s.cmds ∧ t.rst = s.rst ∧ t.freeDraws = s.freeDraws

/-- The parameter, the host's pending words and the rst pin are the same; free values may have been drawn. -/
def SameButDraws (s t : State) : Prop := t.cfg = s.cfg ∧ t.cmds = s.cmds ∧ t.rst = s.rst

/-- The command has ended with this response, taken by the host: RSP has gained one word, the block is idle
(20_memory.md R69, R70). -/
def Answered (s t : State) (st : Status) (data : Half) : Prop :=
  t.rsp = s.rsp ++ [rspWord st data] ∧ t.rspReady = s.rspReady.spend 1 ∧ t.activity = .idle

/-- The host is ready to take one response. -/
def HostReady (s : State) : Prop := s.rspReady.grant 1 = 1

/-- The transport is ready to take `n` output bytes. -/
def TransportReady (s : State) (n : Nat) : Prop := s.outReady.grant n = n

/-! ### Input in hand -/

/-- The bytes of a piece of the stream, without their tags. -/
def untagged (l : List TaggedByte) : List Byte := l.map TaggedByte.byte

/-- No byte of the piece but possibly its last carries the `last` tag: reading it does not meet the end of the message
too early. -/
def NoEarlyLast (l : List TaggedByte) : Prop := ∀ x ∈ l.dropLast, x.last = false

/-- IN_EOS after the piece has been read from the middle of a message. -/
def eosOf (l : List TaggedByte) : Bool := l.any TaggedByte.last

/-! ### Kinds of commands -/

/-- The 26 commands of 41_header_fields.md and HDR_STORE: they need a header (60_exceptions.md R244). -/
def needsHeader (i : Instr) : Bool :=
  match i with
  | .hdrStore => true
  | .getId | .getQdcount | .getAncount | .getNscount | .getArcount => true
  | .setId _ | .setQdcount _ | .setAncount _ | .setNscount _ | .setArcount _ => true
  | .getQr | .getAa | .getTc | .getRd | .getRa => true
  | .setQr _ | .setAa _ | .setTc _ | .setRd _ | .setRa _ => true
  | .getOpcode | .getRcode | .setOpcode _ | .setRcode _ | .getBit _ _ | .setBit _ _ _ => true
  | .getStatus | .inNext | .hdrClear | .hdrLoad => false
  | .qBuild _ _ _ | .qLoad | .qStore | .qName | .qGetType | .qGetClass | .qGetLen => false

/-- The commands that need a question (60_exceptions.md R244). -/
def needsQuestion (i : Instr) : Bool :=
  match i with
  | .qStore | .qName | .qGetType | .qGetClass | .qGetLen => true
  | .getStatus | .inNext | .hdrClear | .hdrLoad | .hdrStore => false
  | .getId | .getQdcount | .getAncount | .getNscount | .getArcount => false
  | .setId _ | .setQdcount _ | .setAncount _ | .setNscount _ | .setArcount _ => false
  | .getQr | .getAa | .getTc | .getRd | .getRa => false
  | .setQr _ | .setAa _ | .setTc _ | .setRd _ | .setRa _ => false
  | .getOpcode | .getRcode | .setOpcode _ | .setRcode _ | .getBit _ _ | .setBit _ _ _ => false
  | .qBuild _ _ _ | .qLoad => false

/-- The setters of 41_header_fields.md, as what they do to HDR. -/
def headerWrite (i : Instr) : Option (Header → Header) :=
  match i with
  | .setId v => some fun h => set16 h offId v
  | .setQdcount v => some fun h => set16 h offQdcount v
  | .setAncount v => some fun h => set16 h offAncount v
  | .setNscount v => some fun h => set16 h offNscount v
  | .setArcount v => some fun h => set16 h offArcount v
  | .setQr v => some fun h => bitSet h 2 0 v
  | .setAa v => some fun h => bitSet h 2 5 v
  | .setTc v => some fun h => bitSet h 2 6 v
  | .setRd v => some fun h => bitSet h 2 7 v
  | .setRa v => some fun h => bitSet h 3 0 v
  | .setOpcode sym => some fun h => setOpcodeField h sym
  | .setRcode sym => some fun h => setRcodeField h sym
  | .setBit o p v => if legalByteOffset o then some fun h => bitSet h o.toNat p.toNat v else none
  | .getStatus | .inNext | .hdrClear | .hdrLoad | .hdrStore => none
  | .getId | .getQdcount | .getAncount | .getNscount | .getArcount => none
  | .getQr | .getAa | .getTc | .getRd | .getRa => none
  | .getOpcode | .getRcode | .getBit _ _ => none
  | .qBuild _ _ _ | .qLoad | .qStore | .qName | .qGetType | .qGetClass | .qGetLen => none

/-- The getters of 41_header_fields.md, as what they read of HDR. -/
def headerRead (i : Instr) : Option (Header → Half) :=
  match i with
  | .getId => some fun h => get16 h offId
  | .getQdcount => some fun h => get16 h offQdcount
  | .getAncount => some fun h => get16 h offAncount
  | .getNscount => some fun h => get16 h offNscount
  | .getArcount => some fun h => get16 h offArcount
  | .getQr => some fun h => bitData (bitGet h 2 0)
  | .getAa => some fun h => bitData (bitGet h 2 5)
  | .getTc => some fun h => bitData (bitGet h 2 6)
  | .getRd => some fun h => bitData (bitGet h 2 7)
  | .getRa => some fun h => bitData (bitGet h 3 0)
  | .getOpcode => some fun h => opcodeSymField (opSym (opcodeRaw h))
  | .getRcode => some fun h => rcodeData (rcSym (rcodeRaw h))
  | .getBit o p => if legalByteOffset o then some fun h => bitData (bitGet h o.toNat p.toNat) else none
  | .getStatus | .inNext | .hdrClear | .hdrLoad | .hdrStore => none
  | .setId _ | .setQdcount _ | .setAncount _ | .setNscount _ | .setArcount _ => none
  | .setQr _ | .setAa _ | .setTc _ | .setRd _ | .setRa _ => none
  | .setOpcode _ | .setRcode _ | .setBit _ _ _ => none
  | .qBuild _ _ _ | .qLoad | .qStore | .qName | .qGetType | .qGetClass | .qGetLen => none

/-! ### Shapes of statements -/

/-- Executing `i` in `s` gives a next state `t`: the command has ended with this response and `post` holds of `t`. -/
def Completes (i : Instr) (s : State) (st : Status) (data : Half) (post : State → Prop) : Prop :=
  ∃ t, exec i s = .next t ∧ Answered s t st data ∧ post t

/-- The command has done nothing but answer. -/
def OnlyAnswers (s t : State) : Prop :=
  SameHeaderSlot s t ∧ SameQuestionSlot s t ∧ SameInput s t ∧ SameOutput s t ∧ SameRest s t

/-- The command has written HDR and answered, and nothing else. -/
def OnlyWritesHeader (s t : State) : Prop :=
  t.hv = s.hv ∧ SameQuestionSlot s t ∧ SameInput s t ∧ SameOutput s t ∧ SameRest s t

/-- Executing `i` with the transport ready for some bytes, then raising its readiness by `more` and going on, gives what
executing `i` with all of that readiness gives; a command that does not wait for the transport is not touched by it; and
the byte on out_data, with its tag, is the next one the transport takes (20_memory.md R66, R67, R69). -/
def WritesInPieces (i : Instr) (s : State) : Prop :=
  ∀ (t : State) (more : Readiness), exec i s = .next t →
    (t.nextOutByte.isSome = true → exec i (s.takeMore more) = .next (t.takeMore more).advance) ∧
    (t.nextOutByte = none → exec i (s.takeMore more) = .next (t.takeMore more)) ∧
    (∀ x, t.outData = some x → more.grant 1 = 1 →
      ∃ later, (t.takeMore more).advance.output = t.output ++ x :: later ∧ (more = .times 1 → later = []))

/-- Bit `p` of header byte `o`, position 0 the most significant (00_scope.md R10). -/
def headerBit (h : Header) (o p : Nat) : Bool := (hdrByte h o).getMsbD p

/-- Executing `g` in `s` answers `OK` with `d`. -/
def Reads (g : Instr) (s : State) (d : Half) : Prop := ∃ t, exec g s = .next t ∧ Answered s t .ok d

/-- How many commands the environment has handed over so far, as the state shows it: those still waiting, those
answered, and the one in execution if there is one. -/
def accounted (s : State) : Nat := s.cmds.length + s.rsp.length + if s.activity = .idle then 0 else 1

/-- The labels a question on the wire can carry: not empty, at most 255 bytes (20_memory.md R52, 42_question.md
R196). -/
def WireLabels (labels : List (List Byte)) : Prop := ∀ l ∈ labels, 1 ≤ l.length ∧ l.length ≤ 255

/-- The labels joined by the separator. -/
def joinLabels : List (List Byte) → List Byte
  | [] => []
  | [l] => l
  | l :: m :: r => l ++ separator :: joinLabels (m :: r)

/-- `l` is what is left of the current message, and `rest` what the transport has presented after it: nothing at
IN_EOS = 1, else the bytes up to and including the first one tagged `last` (20_memory.md R61, R63). -/
def RestOfMessage (s : State) (l rest : List TaggedByte) : Prop :=
  s.input = l ++ rest ∧ NoEarlyLast l ∧ ((s.inEos = true ∧ l = []) ∨ (s.inEos = false ∧ eosOf l = true))

/-- `l` is next on the input stream and can be read to its end: no byte before its last one ends the message, and the
message has not ended already unless `l` is empty. -/
def Available (s : State) (l rest : List TaggedByte) : Prop :=
  s.input = l ++ rest ∧ NoEarlyLast l ∧ (s.inEos = false ∨ l = [])

/-- The header of `t` is that of `s` with the 16-bit value `v` at offset `o`, big-endian (41_header_fields.md R147). -/
def Holds16At (s t : State) (o : Nat) (v : Half) : Prop :=
  ∀ k, k < 12 → hdrByte t.hdr k =
    if k = o then BitVec.ofNat 8 (v.toNat / 256)
    else if k = o + 1 then BitVec.ofNat 8 (v.toNat % 256)
    else hdrByte s.hdr k

/-- The header of `t` is that of `s` with bit `p` of byte `o` equal to `v` (41_header_fields.md R154). -/
def HoldsBitAt (s t : State) (o p : Nat) (v : Bool) : Prop :=
  ∀ o' p', o' < 12 → p' < 8 → headerBit t.hdr o' p' = if o' = o ∧ p' = p then v else headerBit s.hdr o' p'

/-- The header of `t` is that of `s` with byte `o` equal to `v`. -/
def HoldsByteAt (s t : State) (o : Nat) (v : Byte) : Prop :=
  ∀ k, k < 12 → hdrByte t.hdr k = if k = o then v else hdrByte s.hdr k

/-- The reserved opcodes as 30_encoding.md R105 lists them. -/
def reservedOpcode (n : Nat) : Bool :=
  n == 0x00 || (0x03 ≤ n && n ≤ 0x0F) || (0x13 ≤ n && n ≤ 0x1F) || (0x25 ≤ n && n ≤ 0x27) ||
    (0x2D ≤ n && n ≤ 0x2F) || (0x35 ≤ n && n ≤ 0x37) || (0x3D ≤ n && n ≤ 0x3F) || (0x42 ≤ n && n ≤ 0x47) ||
    (0x4A ≤ n && n ≤ 0x4F) || (0x51 ≤ n && n ≤ 0x57) || (0x59 ≤ n && n ≤ 0x5F) || (0x67 ≤ n && n ≤ 0xFF)

/-- The commands that read the input stream (20_memory.md R53 (c)). -/
def readsInput (i : Instr) : Bool :=
  match i with
  | .inNext | .hdrLoad | .qBuild _ _ _ | .qLoad => true
  | .getStatus | .hdrClear | .hdrStore | .qStore | .qName | .qGetType | .qGetClass | .qGetLen => false
  | .getId | .getQdcount | .getAncount | .getNscount | .getArcount => false
  | .setId _ | .setQdcount _ | .setAncount _ | .setNscount _ | .setArcount _ => false
  | .getQr | .getAa | .getTc | .getRd | .getRa => false
  | .setQr _ | .setAa _ | .setTc _ | .setRd _ | .setRa _ => false
  | .getOpcode | .getRcode | .setOpcode _ | .setRcode _ | .getBit _ _ | .setBit _ _ _ => false

/-- The commands that write the output stream (20_memory.md R53 (d)). -/
def writesOutput (i : Instr) : Bool :=
  match i with
  | .hdrStore | .qStore | .qName => true
  | .getStatus | .inNext | .hdrClear | .hdrLoad | .qBuild _ _ _ | .qLoad | .qGetType | .qGetClass | .qGetLen => false
  | .getId | .getQdcount | .getAncount | .getNscount | .getArcount => false
  | .setId _ | .setQdcount _ | .setAncount _ | .setNscount _ | .setArcount _ => false
  | .getQr | .getAa | .getTc | .getRd | .getRa => false
  | .setQr _ | .setAa _ | .setTc _ | .setRd _ | .setRa _ => false
  | .getOpcode | .getRcode | .setOpcode _ | .setRcode _ | .getBit _ _ | .setBit _ _ _ => false

/-- The statuses a command can end in (60_exceptions.md R247). -/
def possibleStatuses (i : Instr) : List Status :=
  match i with
  | .getStatus | .inNext | .hdrClear => [.ok]
  | .hdrLoad => [.ok, .truncatedInput]
  | .qBuild _ _ _ => [.ok, .truncatedInput, .capacity, .unencodable]
  | .qLoad => [.ok, .truncatedInput, .capacity]
  | .hdrStore | .qStore | .qName | .qGetType | .qGetClass | .qGetLen => [.ok, .noObject]
  | .getId | .getQdcount | .getAncount | .getNscount | .getArcount => [.ok, .noObject]
  | .setId _ | .setQdcount _ | .setAncount _ | .setNscount _ | .setArcount _ => [.ok, .noObject]
  | .getQr | .getAa | .getTc | .getRd | .getRa => [.ok, .noObject]
  | .setQr _ | .setAa _ | .setTc _ | .setRd _ | .setRa _ => [.ok, .noObject]
  | .getOpcode | .getRcode | .setOpcode _ | .setRcode _ | .getBit _ _ | .setBit _ _ _ => [.ok, .noObject]

/-- At most this many input transfers, by command (70_reset_and_hazards.md R281); IN_NEXT reads the rest of the
message. -/
def inputBound (i : Instr) (s : State) : Nat :=
  match i with
  | .hdrLoad => 12
  | .qLoad => s.cfg.qcap
  | .qBuild nameLen _ _ => nameLen.toNat
  | .inNext => s.input.length
  | .getStatus | .hdrClear | .hdrStore | .qStore | .qName | .qGetType | .qGetClass | .qGetLen => 0
  | .getId | .getQdcount | .getAncount | .getNscount | .getArcount => 0
  | .setId _ | .setQdcount _ | .setAncount _ | .setNscount _ | .setArcount _ => 0
  | .getQr | .getAa | .getTc | .getRd | .getRa => 0
  | .setQr _ | .setAa _ | .setTc _ | .setRd _ | .setRa _ => 0
  | .getOpcode | .getRcode | .setOpcode _ | .setRcode _ | .getBit _ _ | .setBit _ _ _ => 0

/-- At most this many output transfers, by command (70_reset_and_hazards.md R281). -/
def outputBound (i : Instr) (s : State) : Nat :=
  match i with
  | .hdrStore => 12
  | .qStore => s.qlen
  | .qName => s.qlen - 6
  | .getStatus | .inNext | .hdrClear | .hdrLoad | .qBuild _ _ _ | .qLoad | .qGetType | .qGetClass | .qGetLen => 0
  | .getId | .getQdcount | .getAncount | .getNscount | .getArcount => 0
  | .setId _ | .setQdcount _ | .setAncount _ | .setNscount _ | .setArcount _ => 0
  | .getQr | .getAa | .getTc | .getRd | .getRa => 0
  | .setQr _ | .setAa _ | .setTc _ | .setRd _ | .setRa _ => 0
  | .getOpcode | .getRcode | .setOpcode _ | .setRcode _ | .getBit _ _ | .setBit _ _ _ => 0

end Sys2Proof.Machine
end

