-- ==== Sys2Proof/Certificates/Slice0/Obligations.lean ====
section
/-! DEFINITION. The statements for the provers, in the order of OBLIGATIONS.json. -/

open Sys2Proof Sys2Proof.Machine

/-! ### Encoding (30_encoding.md) -/

/-- Decoding the encoding of a well-formed command gives it back, every operand at every value (R90 to R103). -/
def Obligations.DecodeOfEncodeIsTheCommand : Prop :=
  ∀ i : Instr, i.WellFormed → decode (encode i) = .ok i

/-- A legal word has one meaning: it is the encoding of the command it decodes to, which is well formed (R92, R98). -/
def Obligations.EncodeOfDecodeIsTheWord : Prop :=
  ∀ (w : CmdWord) (i : Instr), decode w = .ok i → i.WellFormed ∧ encode i = w

/-- The decoder of R98 accepts exactly the words the rows of opcode_table.json match with their constraints (R92). -/
def Obligations.LegalWordsAreThoseOfTheOpcodeTable : Prop :=
  ∀ w : CmdWord, (∃ i, decode w = .ok i) ↔ inOpcodeTable w = true

/-- R105: the reserved opcodes, all illegal whatever the other fields; 218 of the 256 values; in particular the
all-zeros and the all-ones word. -/
def Obligations.ReservedOpcodesAreIllegal : Prop :=
  (∀ w : CmdWord, reservedOpcode (cmdOp w).toNat = true ↔ decode w = .error .reservedOpcode) ∧
  (List.range 256).countP reservedOpcode = 218 ∧
  decode 0 = .error .reservedOpcode ∧
  decode 0xFFFFFFFFFFFFFFFF = .error .reservedOpcode

/-- One word of each format written out from 95_test_vectors.md ENC decodes to its command. -/
def Obligations.WrittenWordsDecode : Prop :=
  decode 0x0100000000000000 = .ok .getStatus ∧
  decode 0x1100000000000000 = .ok .hdrLoad ∧
  decode 0x2800000000000A20 = .ok (.setId 0x0A20) ∧
  decode 0x3B00000000000001 = .ok (.setRd true) ∧
  decode 0x4800000000000002 = .ok (.setOpcode .status) ∧
  decode 0x4900000000000005 = .ok (.setRcode .refused) ∧
  decode 0x50B7000000000000 = .ok (.getBit 11 7) ∧
  decode 0x5831000000000001 = .ok (.setBit 3 1 true) ∧
  decode 0x6000000A00010010 = .ok (.qBuild 10 16 1)

/-- R109: "The assembler refuses an operand outside the format's constraint; it never truncates"; a line it accepts is a
well-formed command of the line's own mnemonic, and its word decodes to that command. -/
def Obligations.AssembledLinesAreLegalCommands : Prop :=
  ∀ (line : List Char) (i : Instr), assembleLine line = some i →
    i.WellFormed ∧ nameLookup mnemonicTable (lineMnemonic line) = some (opcodeByte i) ∧
    ∃ w, assembleWord line = some w ∧ decode w = .ok i

/-! ### The step -/

/-- When the block can take a command word and the word spells `i`, a step is exec of `i` with the word taken from the
command channel (20_memory.md R69, R70). While a command is in execution the step goes on with it, the model's
`advance`, and no command word is taken (R70). That one step runs a command to its response or to a hold is the model's
granularity (log 6). -/
def Obligations.StepRunsTheDecodedCommand : Prop :=
  (∀ (s : State) (w : CmdWord) (rest : List CmdWord) (i : Instr),
    s.rst = false → s.activity = .idle → s.cmds = w :: rest → decode w = .ok i →
      step s = exec i { s with cmds := rest }) ∧
  (∀ s : State, s.rst = false → s.activity ≠ .idle → step s = .next s.advance ∧ s.advance.cmds = s.cmds)

/-- R104: a word for which Decode returns Illegal is accepted, changes no state, reads nothing, writes nothing, is
answered with Rsp(ILLEGAL_CMD, 0), and the next command is accepted normally. -/
def Obligations.IllegalWordIsAnsweredAndNothingElse : Prop :=
  ∀ (s : State) (w : CmdWord) (rest : List CmdWord) (e : DecodeReject),
    s.rst = false → s.activity = .idle → s.cmds = w :: rest → decode w = .error e → HostReady s →
      ∃ t, step s = .next t ∧ Answered s t .illegalCmd 0 ∧
        SameHeaderSlot s t ∧ SameQuestionSlot s t ∧ SameInput s t ∧ SameOutput s t ∧
        t.cfg = s.cfg ∧ t.cmds = rest ∧ t.rst = false ∧ t.freeDraws = s.freeDraws ∧ t.cmdReady = true

/-- 20_memory.md R64, R67; 60_exceptions.md R252; 70_reset_and_hazards.md R271: with no command to take, or while the
command in execution waits for a byte, for the transport, or for the host, a step changes nothing. That a hold is a
step that changes nothing is the model's reading (log 7). -/
def Obligations.StepWithNoTransferChangesNothing : Prop :=
  ∀ s : State, s.rst = false →
    ((s.activity = .idle ∧ s.cmds = []) ∨
     (s.wantsByte = true ∧ s.input = []) ∨
     (s.nextOutByte.isSome = true ∧ s.outReady.grant 1 = 0) ∨
     ((∃ r, s.activity = .responding r) ∧ s.rspReady.grant 1 = 0)) →
      step s = .next s

/-- 20_memory.md R69, 70_reset_and_hazards.md R279 (c): where the host is not ready for the response, a command, and a
word legal or not (30_encoding.md R104), has all its other effects and holds with the response presented on rsp_data; an
illegal word has no other; when the host takes the response, the command is over. The hold as a state of the model, and
readiness as a count, are its reading (log 7, log 9). -/
def Obligations.ResponseWaitsForTheHost : Prop :=
  (∀ (i : Instr) (s t : State) (r : RspWord), s.rspReady = .times 0 →
    exec i (s.setRspReady (.times 1)) = .next t → t.rsp = s.rsp ++ [r] →
      exec i s = .next { t with rsp := s.rsp, activity := .responding r }) ∧
  (∀ (w : CmdWord) (s t : State) (r : RspWord), s.rspReady = .times 0 →
    runWord w (s.setRspReady (.times 1)) = .next t → t.rsp = s.rsp ++ [r] →
      runWord w s = .next { t with rsp := s.rsp, activity := .responding r }) ∧
  (∀ (s : State) (w : CmdWord) (rest : List CmdWord) (e : DecodeReject),
    s.rst = false → s.activity = .idle → s.cmds = w :: rest → decode w = .error e → ¬ HostReady s →
      step s = .next { s with cmds := rest, activity := .responding (rspWord .illegalCmd 0) }) ∧
  (∀ (u : State) (r : RspWord), u.rst = false → u.activity = .responding r →
    u.rspValid = true ∧ u.rspData = some r ∧
    (HostReady u →
      step u = .next { u with rsp := u.rsp ++ [r], rspReady := u.rspReady.spend 1, activity := .idle }))

/-- 30_encoding.md R93: "Exactly one response is issued per accepted command, legal or not": without a reset, what waits,
what is in execution and what is answered add up to the same at every step. -/
def Obligations.OneResponsePerAcceptedCommand : Prop :=
  ∀ s t : State, s.rst = false → step s = .next t → accounted t = accounted s

/-- 20_memory.md R60, R65, R72: a step only appends to OUT and RSP, one response at most, only removes from the front of
IN and of the host's words, one word at most, and never changes the parameter. -/
def Obligations.StreamsMoveOnlyForward : Prop :=
  ∀ s t : State, step s = .next t →
    (∃ written, t.output = s.output ++ written) ∧
    (∃ issued, t.rsp = s.rsp ++ issued ∧ issued.length ≤ 1) ∧
    (∃ k, t.input = s.input.drop k) ∧
    (t.cmds = s.cmds ∨ ∃ w, s.cmds = w :: t.cmds) ∧
    t.cfg = s.cfg

/-- 20_memory.md R70, R71: an input byte is consumed, and an output byte produced, only by a command that calls for it;
"No command both reads input and writes output". -/
def Obligations.TransfersOnlyInCommandsThatCallForThem : Prop :=
  (∀ s t : State, step s = .next t →
    (t.input ≠ s.input →
      s.inReady = true ∨
        (s.cmdReady = true ∧ ∃ w rest i, s.cmds = w :: rest ∧ decode w = .ok i ∧ readsInput i = true)) ∧
    (t.output ≠ s.output →
      s.outValid = true ∨
        (s.cmdReady = true ∧ ∃ w rest i, s.cmds = w :: rest ∧ decode w = .ok i ∧ writesOutput i = true))) ∧
  (∀ (i : Instr) (s t : State), exec i s = .next t →
    (t.input = s.input ∧ t.inEos = s.inEos) ∨ t.output = s.output)


/-! ### Reset (70_reset_and_hazards.md, 10_state.md R36) -/

/-- R270: at an edge with rst = 1 no channel transfers anything, the command in execution is abandoned without a
response, and the state takes its reset values; while rst = 1 the block drives its four handshake outputs 0; at the
first edge with rst = 0 it is idle with cmd_ready = 1. -/
def Obligations.ResetPinGivesTheResetState : Prop :=
  ∀ s : State, s.rst = true →
    (s.cmdReady = false ∧ s.rspValid = false ∧ s.inReady = false ∧ s.outValid = false) ∧
    ∃ t, step s = .next t ∧
      (t.hv = false ∧ t.qv = false ∧ t.longLabel = false ∧ t.longName = false ∧ t.inEos = false ∧
        t.activity = .idle) ∧
      (t.input = s.input ∧ t.output = s.output ∧ t.rsp = s.rsp ∧ t.cmds = s.cmds ∧
        t.outReady = s.outReady ∧ t.rspReady = s.rspReady ∧ t.cfg = s.cfg) ∧
      (t.setRst false).cmdReady = true

/-- 10_state.md R36: after reset the five flags are 0 and nothing is in execution, so STATUS reads 0x0000, and the block
is ready for a command. The invariant holds there for every legal parameter, with the values the model names for QCAP,
HDR, QBUF and QLEN (log 1, log 2, log 3). -/
def Obligations.ResetStateHasTheInvariant : Prop :=
  ∀ cfg : Config, cfg.Valid →
    Invariant (State.resetWith cfg) ∧ statusView (State.resetWith cfg) = 0 ∧
    (State.resetWith cfg).cmdReady = true ∧ Invariant State.reset

/-! ### Whole-machine rules -/

/-- Every step keeps the invariant: the parameter in range, QBUF of QLEN bytes within QCAP, the advisory flags 0 while
QV = 0, the form R26 gives a valid question, LONG_NAME and LONG_LABEL as R27 defines them, the transient state of R31,
and legal responses only (R93 to R95). -/
def Obligations.EveryStepKeepsTheInvariant : Prop :=
  ∀ s t : State, Invariant s → step s = .next t → Invariant t

/-- 10_state.md R22, R23: HDR changes only as the effect of HDR_CLEAR, HDR_LOAD or a setter, HV only by HDR_CLEAR and
HDR_LOAD; a command going on changes them only if it is HDR_LOAD. -/
def Obligations.HeaderIsWrittenOnlyByItsWriters : Prop :=
  (∀ (i : Instr) (s t : State), exec i s = .next t →
    (t.hdr ≠ s.hdr → i = .hdrClear ∨ i = .hdrLoad ∨ (headerWrite i).isSome = true) ∧
    (t.hv ≠ s.hv → i = .hdrClear ∨ i = .hdrLoad)) ∧
  (∀ s : State, ¬ SameHeaderSlot s s.advance → ∃ staged, s.activity = .hdrLoad staged)

/-- 10_state.md R25, R27: QBUF, QLEN, QV and the advisory flags change only as the effect of Q_BUILD or Q_LOAD. -/
def Obligations.QuestionIsWrittenOnlyByItsConstructors : Prop :=
  (∀ (i : Instr) (s t : State), exec i s = .next t → ¬ SameQuestionSlot s t →
    i = .qLoad ∨ ∃ nameLen qtype qclass, i = .qBuild nameLen qtype qclass) ∧
  (∀ s : State, ¬ SameQuestionSlot s s.advance →
    (∃ b, s.activity = .qBuild b) ∨ ∃ p, s.activity = .qLoad p)

/-- 43_stream_status.md R231 (c): IN_NEXT "is the only way IN_EOS returns to 0 other than reset". -/
def Obligations.EosIsClearedOnlyByInNextOrReset : Prop :=
  ∀ s t : State, step s = .next t → s.inEos = true → t.inEos = false →
    s.rst = true ∨ s.activity = .inNext ∨
      (s.activity = .idle ∧ ∃ w rest, s.cmds = w :: rest ∧ decode w = .ok .inNext)

/-- 10_state.md R37: while HV = 0 nothing depends on HDR. Whatever HDR holds, the step's next state is the same but for
HDR, and the same altogether once a header has been made. -/
def Obligations.HeaderIsUnobservableWhileInvalid : Prop :=
  ∀ (s t : State) (h : Header), Invariant s → s.hv = false → step s = .next t →
    ∃ t', step { s with hdr := h } = .next t' ∧ { t' with hdr := t.hdr } = t ∧ (t.hv = true → t' = t)

/-- 10_state.md R37: while QV = 0 nothing depends on QBUF or QLEN. -/
def Obligations.QuestionIsUnobservableWhileInvalid : Prop :=
  ∀ (s t : State) (buf : List Byte) (n : Nat), Invariant s → s.qv = false → step s = .next t →
    ∃ t', step { s with qbuf := buf, qlen := n } = .next t' ∧
      { t' with qbuf := t.qbuf, qlen := t.qlen } = t ∧ (t.qv = true → t' = t)

/-- 20_memory.md R64, R65: a hold is lifted by the bytes that arrive, and no command looks ahead: executing a command on
part of its input, then presenting the rest and going on, gives what executing it on all of it gives; and a command that
did not hold for input leaves the later bytes untouched. -/
def Obligations.ArrivalOfInputInPiecesMakesNoDifference : Prop :=
  ∀ (i : Instr) (s t : State) (later : List TaggedByte), exec i s = .next t →
    (t.wantsByte = true → exec i (s.presentInput later) = .next (t.presentInput later).advance) ∧
    (t.wantsByte = false → exec i (s.presentInput later) = .next (t.presentInput later))

/-! ### The byte-step refinements agree with the atomic pseudocode -/

/-- 40_header_lifecycle.md R124: HDR_LOAD step by step is the pseudocode of R121 on every input; where the pseudocode
holds, every byte presented is staged. -/
def Obligations.HdrLoadStepsGiveItsPseudocode : Prop :=
  ∀ s : State,
    (∀ t, pseudoHdrLoad s = some t → exec .hdrLoad s = .next t) ∧
    (pseudoHdrLoad s = none →
      exec .hdrLoad s =
        .next { s with hv := false, input := [], activity := .hdrLoad (untagged s.input) })

/-- 40_header_lifecycle.md R125, 42_question.md R202: HDR_STORE and Q_STORE step by step are the pseudocode of R122 and
R200; where the transport takes only the first `k` bytes, those `k` are written and the command holds at offset `k`; when it
takes more, the command goes on from there, the byte on out_data first, as if all had been taken at once (20_memory.md
R66, R67). -/
def Obligations.StoreStepsGiveTheirPseudocode : Prop :=
  (∀ s : State,
    (∀ t, pseudoHdrStore s = some t → exec .hdrStore s = .next t) ∧
    (pseudoHdrStore s = none →
      ∃ k, s.outReady = .times k ∧ k < 12 ∧
        exec .hdrStore s = .next
          { s with
            output := s.output ++ (tagLast s.hdr.toList).take k
            outReady := .times 0
            activity := .hdrStore k })) ∧
  (∀ s : State, Invariant s →
    (∀ t, pseudoQStore s = some t → exec .qStore s = .next t) ∧
    (pseudoQStore s = none →
      ∃ k, s.outReady = .times k ∧ k < s.qlen ∧
        exec .qStore s = .next
          { s with
            output := s.output ++ (tagLast s.qbuf).take k
            outReady := .times 0
            activity := .qStore k })) ∧
  (∀ s : State, WritesInPieces .hdrStore s ∧ WritesInPieces .qStore s)


/-- 42_question.md R195: Q_BUILD with its back-patched length bytes is the pseudocode of R191 and R192 on every input. -/
def Obligations.QBuildStepsGiveItsPseudocode : Prop :=
  ∀ (nameLen qtype qclass : Half) (s : State),
    (∀ t, pseudoQBuild nameLen qtype qclass s = some t → exec (.qBuild nameLen qtype qclass) s = .next t) ∧
    (pseudoQBuild nameLen qtype qclass s = none →
      exec (.qBuild nameLen qtype qclass) s = .next
        { s.dropQuestion with
          input := []
          activity := .qBuild ((untagged s.input).foldl QBuild.take (QBuild.start nameLen qtype qclass)) })

/-- 42_question.md R198: the parser's state machine is the pseudocode of R196 on every input. -/
def Obligations.QLoadStepsGiveItsPseudocode : Prop :=
  ∀ s : State,
    (∀ t, pseudoQLoad s = some t → exec .qLoad s = .next t) ∧
    (pseudoQLoad s = none →
      exec .qLoad s = .next
        { s.dropQuestion with
          input := []
          activity := .qLoad ((untagged s.input).foldl QParse.take QParse.start) })

/-- 42_question.md R202: Q_NAME step by step, deciding separators and the last tag by peeking, is the pseudocode of R201
on every valid question; where the transport takes only the first `k` bytes, the command holds, and when it takes more
the command goes on from there, the byte on out_data first, as if all had been taken at once (20_memory.md R66, R67). -/
def Obligations.QNameStepsGiveItsPseudocode : Prop :=
  ∀ s : State, Invariant s →
    (∀ t, pseudoQName s = some t → exec .qName s = .next t) ∧
    (pseudoQName s = none →
      ∃ k c, s.outReady = .times k ∧ k < (dottedName s.qbuf).length ∧ c.e = k ∧
        exec .qName s = .next
          { s with
            output := s.output ++ (tagLast (dottedName s.qbuf)).take k
            outReady := .times 0
            activity := .qName c }) ∧
    WritesInPieces .qName s

/-! ### Status and stream control (43_stream_status.md) -/

/-- R230, 10_state.md R30: GET_STATUS answers HV, QV, IN_EOS, LONG_LABEL, LONG_NAME at bits 0, 1, 2, 4, 5 and changes
nothing. -/
def Obligations.GetStatusAnswersTheFlags : Prop :=
  ∀ s : State, HostReady s →
    Completes .getStatus s .ok
      (BitVec.ofNat 16 (s.hv.toNat + 2 * s.qv.toNat + 4 * s.inEos.toNat + 16 * s.longLabel.toNat +
        32 * s.longName.toNat))
      (OnlyAnswers s)

/-- R231: IN_NEXT consumes and discards what is left of the message and clears IN_EOS; nothing else changes. On every
input its steps give the pseudocode of R231; where that holds, the bytes presented are discarded. -/
def Obligations.InNextSkipsToTheNextMessage : Prop :=
  (∀ (s : State) (l rest : List TaggedByte), HostReady s → RestOfMessage s l rest →
    Completes .inNext s .ok 0 fun t =>
      t.input = rest ∧ t.inEos = false ∧
      SameHeaderSlot s t ∧ SameQuestionSlot s t ∧ SameOutput s t ∧ SameRest s t) ∧
  (∀ s : State,
    (∀ t, pseudoInNext s = some t → exec .inNext s = .next t) ∧
    (pseudoInNext s = none → exec .inNext s = .next { s with input := [], activity := .inNext }))

/-- R232: end-of-stream is sticky. At IN_EOS = 1 every ReadIn of one byte or more underruns without consuming, so
HDR_LOAD, Q_LOAD, and Q_BUILD of a name of one byte or more that passes the capacity test, end in TRUNCATED_INPUT with
IN_EOS still 1 and nothing consumed; Q_BUILD of the empty name succeeds whatever IN_EOS is. -/
def Obligations.EndOfStreamIsSticky : Prop :=
  (∀ (n : Nat) (input : List TaggedByte), readIn (n + 1) input true = .underrun input) ∧
  (∀ s : State, HostReady s → s.cfg.Valid → s.inEos = true →
    Completes .hdrLoad s .truncatedInput 0 (SameInput s) ∧
    Completes .qLoad s .truncatedInput 0 (SameInput s) ∧
    ∀ nameLen qtype qclass : Half, 1 ≤ nameLen.toNat → nameLen.toNat + 6 ≤ s.cfg.qcap →
      Completes (.qBuild nameLen qtype qclass) s .truncatedInput 0 (SameInput s)) ∧
  (∀ (s : State) (qtype qclass : Half), HostReady s → 6 ≤ s.cfg.qcap →
    Completes (.qBuild 0 qtype qclass) s .ok 6 (SameInput s))

/-! ### Header lifecycle (40_header_lifecycle.md) -/

/-- R120: HDR_CLEAR makes the zero header from every state. -/
def Obligations.HdrClearMakesTheZeroHeader : Prop :=
  ∀ s : State, HostReady s →
    Completes .hdrClear s .ok 0 fun t =>
      (∀ k, k < 12 → hdrByte t.hdr k = 0) ∧ t.hv = true ∧
      SameQuestionSlot s t ∧ SameInput s t ∧ SameOutput s t ∧ SameRest s t

/-- R121: HDR_LOAD takes exactly twelve bytes, the first to HDR[0], and leaves the rest of the stream. -/
def Obligations.HdrLoadTakesTwelveBytes : Prop :=
  ∀ (s : State) (l rest : List TaggedByte), HostReady s → Available s l rest → l.length = 12 →
    Completes .hdrLoad s .ok 0 fun t =>
      (∀ k, k < 12 → (untagged l)[k]? = some (hdrByte t.hdr k)) ∧ t.hv = true ∧
      t.input = rest ∧ t.inEos = eosOf l ∧
      SameQuestionSlot s t ∧ SameOutput s t ∧ SameRest s t

/-- R121, 60_exceptions.md R241: with fewer than twelve bytes left in the message HDR_LOAD ends in TRUNCATED_INPUT, the
header slot invalid, the rest of the message consumed, IN_EOS = 1. HDR itself is a free value (log 4). -/
def Obligations.HdrLoadOfAShortMessageIsTruncated : Prop :=
  ∀ (s : State) (l rest : List TaggedByte), HostReady s → RestOfMessage s l rest → l.length < 12 →
    Completes .hdrLoad s .truncatedInput 0 fun t =>
      t.hv = false ∧ t.input = rest ∧ t.inEos = true ∧
      SameQuestionSlot s t ∧ SameOutput s t ∧ SameButDraws s t

/-- R122: HDR_STORE writes the twelve bytes of HDR in offset order, the last one tagged, and changes nothing else. -/
def Obligations.HdrStoreWritesTheHeader : Prop :=
  ∀ s : State, s.hv = true → HostReady s → TransportReady s 12 →
    Completes .hdrStore s .ok 12 fun t =>
      (∃ bytes : List TaggedByte, t.output = s.output ++ bytes ∧ bytes.length = 12 ∧
        ∀ k, k < 12 → bytes[k]? = some { byte := hdrByte s.hdr k, last := decide (k = 11) }) ∧
      t.outReady = s.outReady.spend 12 ∧
      SameHeaderSlot s t ∧ SameQuestionSlot s t ∧ SameInput s t ∧ SameRest s t

/-- R123: load then store is the identity on bytes, and store then load, on this or another instance, is the identity on
the header. -/
def Obligations.HeaderLoadAndStoreAreInverse : Prop :=
  (∀ s t u : State, s.rspReady = .always → s.outReady = .always →
    exec .hdrLoad s = .next t → t.hv = true → exec .hdrStore t = .next u →
      u.output = s.output ++ tagLast (untagged (s.input.take 12))) ∧
  (∀ (s other u : State) (rest : List TaggedByte), s.hv = true → HostReady other → other.inEos = false →
    other.input = tagLast s.hdr.toList ++ rest → exec .hdrLoad other = .next u →
      u.hdr = s.hdr ∧ u.hv = true ∧ u.input = rest)

/-! ### Header fields (41_header_fields.md) -/

/-- R141 to R146: the five 16-bit getters answer `HDR[o] * 256 + HDR[o+1]` at their offsets and change nothing. -/
def Obligations.SixteenBitGettersReadBigEndian : Prop :=
  ∀ s : State, s.hv = true → HostReady s →
    Completes .getId s .ok (BitVec.ofNat 16 (s.hdr[0].toNat * 256 + s.hdr[1].toNat)) (OnlyAnswers s) ∧
    Completes .getQdcount s .ok (BitVec.ofNat 16 (s.hdr[4].toNat * 256 + s.hdr[5].toNat)) (OnlyAnswers s) ∧
    Completes .getAncount s .ok (BitVec.ofNat 16 (s.hdr[6].toNat * 256 + s.hdr[7].toNat)) (OnlyAnswers s) ∧
    Completes .getNscount s .ok (BitVec.ofNat 16 (s.hdr[8].toNat * 256 + s.hdr[9].toNat)) (OnlyAnswers s) ∧
    Completes .getArcount s .ok (BitVec.ofNat 16 (s.hdr[10].toNat * 256 + s.hdr[11].toNat)) (OnlyAnswers s)

/-- R147 to R152: the five 16-bit setters write exactly their two bytes, high byte first. -/
def Obligations.SixteenBitSettersWriteTheirTwoBytes : Prop :=
  ∀ (s : State) (v : Half), s.hv = true → HostReady s →
    Completes (.setId v) s .ok 0 (fun t => Holds16At s t 0 v ∧ OnlyWritesHeader s t) ∧
    Completes (.setQdcount v) s .ok 0 (fun t => Holds16At s t 4 v ∧ OnlyWritesHeader s t) ∧
    Completes (.setAncount v) s .ok 0 (fun t => Holds16At s t 6 v ∧ OnlyWritesHeader s t) ∧
    Completes (.setNscount v) s .ok 0 (fun t => Holds16At s t 8 v ∧ OnlyWritesHeader s t) ∧
    Completes (.setArcount v) s .ok 0 (fun t => Holds16At s t 10 v ∧ OnlyWritesHeader s t)

/-- R153: the laws of the 16-bit fields. -/
def Obligations.SixteenBitFieldLaws : Prop :=
  (∀ (s t : State) (v : Half) (set : Half → Instr) (get : Instr) (o : Nat),
    (set, get, o) ∈ [(Instr.setId, Instr.getId, 0), (.setQdcount, .getQdcount, 4), (.setAncount, .getAncount, 6),
      (.setNscount, .getNscount, 8), (.setArcount, .getArcount, 10)] →
    s.hv = true → s.rspReady = .always → exec (set v) s = .next t →
      Reads get t v ∧
      ∀ (g : Instr) (d : Half), (headerRead g).isSome = true → g ≠ get →
        (∀ p, g ≠ .getBit (BitVec.ofNat 4 o) p ∧ g ≠ .getBit (BitVec.ofNat 4 (o + 1)) p) →
          (Reads g t d ↔ Reads g s d)) ∧
  (∀ (h : Header) (v : Half) (o : Nat), o ∈ [0, 4, 6, 8, 10] → get16 (set16 h o v) o = v) ∧
  (∀ v : Half, (v >>> 8).toNat * 256 + (v &&& 0xFF).toNat = v.toNat)

/-- R154 to R160: the five flag getters answer the bit at their place and change nothing. -/
def Obligations.FlagGettersReadTheirBit : Prop :=
  ∀ s : State, s.hv = true → HostReady s →
    Completes .getQr s .ok (if headerBit s.hdr 2 0 then 1 else 0) (OnlyAnswers s) ∧
    Completes .getAa s .ok (if headerBit s.hdr 2 5 then 1 else 0) (OnlyAnswers s) ∧
    Completes .getTc s .ok (if headerBit s.hdr 2 6 then 1 else 0) (OnlyAnswers s) ∧
    Completes .getRd s .ok (if headerBit s.hdr 2 7 then 1 else 0) (OnlyAnswers s) ∧
    Completes .getRa s .ok (if headerBit s.hdr 3 0 then 1 else 0) (OnlyAnswers s)

/-- R161 to R166: the five flag setters write their bit and no other. -/
def Obligations.FlagSettersWriteTheirBitOnly : Prop :=
  ∀ (s : State) (v : Bool), s.hv = true → HostReady s →
    Completes (.setQr v) s .ok 0 (fun t => HoldsBitAt s t 2 0 v ∧ OnlyWritesHeader s t) ∧
    Completes (.setAa v) s .ok 0 (fun t => HoldsBitAt s t 2 5 v ∧ OnlyWritesHeader s t) ∧
    Completes (.setTc v) s .ok 0 (fun t => HoldsBitAt s t 2 6 v ∧ OnlyWritesHeader s t) ∧
    Completes (.setRd v) s .ok 0 (fun t => HoldsBitAt s t 2 7 v ∧ OnlyWritesHeader s t) ∧
    Completes (.setRa v) s .ok 0 (fun t => HoldsBitAt s t 3 0 v ∧ OnlyWritesHeader s t)

/-- R167: the laws of the flags. -/
def Obligations.FlagLaws : Prop :=
  ∀ (s t : State) (v : Bool) (set : Bool → Instr) (get : Instr) (o p : Nat),
    (set, get, o, p) ∈ [(Instr.setQr, Instr.getQr, 2, 0), (.setAa, .getAa, 2, 5), (.setTc, .getTc, 2, 6),
      (.setRd, .getRd, 2, 7), (.setRa, .getRa, 3, 0)] →
    s.hv = true → s.rspReady = .always → exec (set v) s = .next t →
      Reads get t (if v then 1 else 0) ∧ HoldsBitAt s t o p v ∧
      ∀ (g : Instr) (d : Half), (headerRead g).isSome = true → g ≠ get →
        g ≠ .getBit (BitVec.ofNat 4 o) (BitVec.ofNat 3 p) → (Reads g t d ↔ Reads g s d)

/-- R175 to R178: GET_OPCODE answers 0, 1, 2 for those raw values and 3 for 3 to 15; GET_RCODE answers 0x0100 + code for
raw 0 to 5 and 0 for 6 to 15; both OK, neither changes anything. -/
def Obligations.EnumeratedGettersAnswerTheSymbol : Prop :=
  ∀ s : State, s.hv = true → HostReady s →
    Completes .getOpcode s .ok (BitVec.ofNat 16 (min (s.hdr[2].toNat / 8 % 16) 3)) (OnlyAnswers s) ∧
    Completes .getRcode s .ok
      (if s.hdr[3].toNat % 16 ≤ 5 then BitVec.ofNat 16 (256 + s.hdr[3].toNat % 16) else 0) (OnlyAnswers s)

/-- R177, R179: SET_OPCODE writes the four OPCODE bits of HDR[2], SET_RCODE the four RCODE bits of HDR[3], and nothing
else. -/
def Obligations.EnumeratedSettersWriteTheirFourBits : Prop :=
  ∀ s : State, s.hv = true → HostReady s →
    (∀ (sym : OpcodeSym) (code : Nat),
      (sym, code) ∈ [(OpcodeSym.query, 0), (.iquery, 1), (.status, 2), (.reserved, 3)] →
      Completes (.setOpcode sym) s .ok 0 fun t =>
        HoldsByteAt s t 2
          (BitVec.ofNat 8 (s.hdr[2].toNat / 128 * 128 + code * 8 + s.hdr[2].toNat % 8)) ∧
        OnlyWritesHeader s t) ∧
    (∀ (sym : RcodeSym) (code : Nat),
      (sym, code) ∈ [(RcodeSym.noError, 0), (.formatError, 1), (.serverFailure, 2), (.nameError, 3),
        (.notImplemented, 4), (.refused, 5)] →
      Completes (.setRcode sym) s .ok 0 fun t =>
        HoldsByteAt s t 3 (BitVec.ofNat 8 (s.hdr[3].toNat / 16 * 16 + code)) ∧ OnlyWritesHeader s t)

/-- R180: the laws of the enumerated fields. -/
def Obligations.EnumeratedFieldLaws : Prop :=
  (∀ (s t : State) (sym : OpcodeSym), s.hv = true → s.rspReady = .always → exec (.setOpcode sym) s = .next t →
    Reads .getOpcode t (opcodeSymField sym) ∧
    ∀ (g : Instr) (d : Half), (headerRead g).isSome = true → g ≠ .getOpcode →
      (∀ p, g = .getBit 2 p → ¬ (1 ≤ p.toNat ∧ p.toNat ≤ 4)) → (Reads g t d ↔ Reads g s d)) ∧
  (∀ (s t : State) (sym : RcodeSym), s.hv = true → s.rspReady = .always → exec (.setRcode sym) s = .next t →
    Reads .getRcode t (0x0100 ||| rcodeSymField sym) ∧
    ∀ (g : Instr) (d : Half), (headerRead g).isSome = true → g ≠ .getRcode →
      (∀ p, g = .getBit 3 p → ¬ (4 ≤ p.toNat ∧ p.toNat ≤ 7)) → (Reads g t d ↔ Reads g s d)) ∧
  (∀ s : State, s.hv = true → HostReady s →
    (4 ≤ (opcodeRaw s.hdr).toNat → Reads .getOpcode s 3) ∧
    (6 ≤ (rcodeRaw s.hdr).toNat → Reads .getRcode s 0))

/-- R154, R184, R185: GET_BIT answers the selected bit, SET_BIT writes it and no other, at every legal selector.
30_encoding.md R103, 60_exceptions.md R248: a byte offset of 12 to 15 is refused at decode, before slot validity; the
terms with such an offset answer as their words do, which is the model's reading (log 12). -/
def Obligations.BitAccessorsReachEveryHeaderBit : Prop :=
  (∀ (s : State) (byteoff : BitVec 4) (bitpos : BitVec 3) (v : Bool),
    s.hv = true → HostReady s → byteoff.toNat ≤ 11 →
      Completes (.getBit byteoff bitpos) s .ok (if headerBit s.hdr byteoff.toNat bitpos.toNat then 1 else 0)
        (OnlyAnswers s) ∧
      Completes (.setBit byteoff bitpos v) s .ok 0
        (fun t => HoldsBitAt s t byteoff.toNat bitpos.toNat v ∧ OnlyWritesHeader s t)) ∧
  (∀ (byteoff : BitVec 4) (bitpos : BitVec 3) (v : Bool), 12 ≤ byteoff.toNat →
    decode (encode (.getBit byteoff bitpos)) = .error .operandRange ∧
    decode (encode (.setBit byteoff bitpos v)) = .error .operandRange ∧
    ∀ s : State, HostReady s →
      Completes (.getBit byteoff bitpos) s .illegalCmd 0 (OnlyAnswers s) ∧
      Completes (.setBit byteoff bitpos v) s .illegalCmd 0 (OnlyAnswers s))


/-! ### Questions (42_question.md) -/

/-- R191 to R193: Q_BUILD of an available name that fits and has no label above 255 bytes. QLEN = name_len + 6. -/
def Obligations.QBuildEncodesTheName : Prop :=
  ∀ (s : State) (nameLen qtype qclass : Half) (l rest : List TaggedByte),
    HostReady s → Available s l rest → l.length = nameLen.toNat → nameLen.toNat + 6 ≤ s.cfg.qcap →
    (∀ label ∈ split (untagged l), label.length ≤ 255) →
      Completes (.qBuild nameLen qtype qclass) s .ok (BitVec.ofNat 16 (nameLen.toNat + 6)) fun t =>
        t.qbuf = wireLabels (split (untagged l)) ++
          [0, BitVec.ofNat 8 (qtype.toNat / 256), BitVec.ofNat 8 (qtype.toNat % 256),
            BitVec.ofNat 8 (qclass.toNat / 256), BitVec.ofNat 8 (qclass.toNat % 256)] ∧
        t.qlen = nameLen.toNat + 6 ∧ t.qv = true ∧
        (t.longLabel = true ↔ ∃ label ∈ split (untagged l), 64 ≤ label.length) ∧
        (t.longName = true ↔ 254 ≤ nameLen.toNat) ∧
        t.input = rest ∧ t.inEos = (s.inEos || eosOf l) ∧
        SameHeaderSlot s t ∧ SameOutput s t ∧ SameRest s t

/-- R191, 60_exceptions.md R245, R246, R248: the failures of Q_BUILD in their order. CAPACITY consumes nothing; a name
cut short is TRUNCATED_INPUT whatever its labels; a label above 255 bytes is UNENCODABLE, the name consumed. After each
QV, LONG_LABEL and LONG_NAME are 0; QBUF and QLEN are free values (log 4). -/
def Obligations.QBuildFailuresInOrder : Prop :=
  ∀ (s : State) (nameLen qtype qclass : Half) (l rest : List TaggedByte), HostReady s →
    (nameLen.toNat + 6 > s.cfg.qcap →
      Completes (.qBuild nameLen qtype qclass) s .capacity 0 fun t =>
        (t.qv = false ∧ t.longLabel = false ∧ t.longName = false) ∧ SameInput s t ∧
        SameHeaderSlot s t ∧ SameOutput s t ∧ SameButDraws s t) ∧
    (nameLen.toNat + 6 ≤ s.cfg.qcap → RestOfMessage s l rest → l.length < nameLen.toNat →
      Completes (.qBuild nameLen qtype qclass) s .truncatedInput 0 fun t =>
        (t.qv = false ∧ t.longLabel = false ∧ t.longName = false) ∧ t.input = rest ∧ t.inEos = true ∧
        SameHeaderSlot s t ∧ SameOutput s t ∧ SameButDraws s t) ∧
    (nameLen.toNat + 6 ≤ s.cfg.qcap → Available s l rest → l.length = nameLen.toNat →
      (∃ label ∈ split (untagged l), 255 < label.length) →
      Completes (.qBuild nameLen qtype qclass) s .unencodable 0 fun t =>
        (t.qv = false ∧ t.longLabel = false ∧ t.longName = false) ∧ t.input = rest ∧
        t.inEos = (s.inEos || eosOf l) ∧ SameHeaderSlot s t ∧ SameOutput s t ∧ SameButDraws s t)

/-- R192: a string with k separators yields k + 1 labels; joining them with the separator gives the string back, and no
label holds a separator. The separator byte is log 18. -/
def Obligations.SplitCutsAtEverySeparator : Prop :=
  ∀ n : List Byte,
    (split n).length = n.count separator + 1 ∧ joinLabels (split n) = n ∧ ∀ l ∈ split n, separator ∉ l

/-- R196, R197: Q_LOAD of a question on the wire takes exactly its bytes and stores them as they come. -/
def Obligations.QLoadParsesAWireQuestion : Prop :=
  ∀ (s : State) (l rest : List TaggedByte) (labels : List (List Byte)) (tail : List Byte),
    HostReady s → Available s l rest → WireLabels labels → tail.length = 4 →
    untagged l = wireLabels labels ++ 0 :: tail → l.length ≤ s.cfg.qcap →
      Completes .qLoad s .ok (BitVec.ofNat 16 l.length) fun t =>
        t.qbuf = untagged l ∧ t.qlen = l.length ∧ t.qv = true ∧
        (t.longLabel = true ↔ ∃ label ∈ labels, 64 ≤ label.length) ∧
        (t.longName = true ↔ 255 < l.length - 4) ∧
        t.input = rest ∧ t.inEos = eosOf l ∧
        SameHeaderSlot s t ∧ SameOutput s t ∧ SameRest s t

/-- R196, 60_exceptions.md R241, R245, R248: Q_LOAD ends in TRUNCATED_INPUT when the message ends before the question
does, and in CAPACITY when QCAP bytes are stored and another is needed, CAPACITY first when both hold. QBUF and QLEN are
free values (log 4). -/
def Obligations.QLoadFailuresInOrder : Prop :=
  ∀ (s : State) (l rest : List TaggedByte), HostReady s → Unfinished (untagged l) →
    (RestOfMessage s l rest → l.length < s.cfg.qcap →
      Completes .qLoad s .truncatedInput 0 fun t =>
        (t.qv = false ∧ t.longLabel = false ∧ t.longName = false) ∧ t.input = rest ∧ t.inEos = true ∧
        SameHeaderSlot s t ∧ SameOutput s t ∧ SameButDraws s t) ∧
    (Available s l rest → l.length = s.cfg.qcap →
      Completes .qLoad s .capacity 0 fun t =>
        (t.qv = false ∧ t.longLabel = false ∧ t.longName = false) ∧ t.input = rest ∧
        t.inEos = (s.inEos || eosOf l) ∧ SameHeaderSlot s t ∧ SameOutput s t ∧ SameButDraws s t)

/-- R200: Q_STORE writes the QLEN bytes of QBUF in order, the last one tagged, and changes nothing else. -/
def Obligations.QStoreWritesTheQuestion : Prop :=
  ∀ s : State, Invariant s → s.qv = true → HostReady s → TransportReady s s.qlen →
    Completes .qStore s .ok (BitVec.ofNat 16 s.qlen) fun t =>
      t.output = s.output ++ tagLast s.qbuf ∧ t.outReady = s.outReady.spend s.qlen ∧
      SameHeaderSlot s t ∧ SameQuestionSlot s t ∧ SameInput s t ∧ SameRest s t

/-- R201: Q_NAME writes the labels before the first zero length byte, joined by the separator, none trailing; an empty
name writes nothing. Nothing else changes. -/
def Obligations.QNameWritesTheDottedName : Prop :=
  ∀ (s : State) (labels : List (List Byte)) (tail : List Byte), Invariant s → s.qv = true → HostReady s →
    WireLabels labels → s.qbuf = wireLabels labels ++ 0 :: tail →
    TransportReady s (joinLabels labels).length →
      Completes .qName s .ok (BitVec.ofNat 16 (joinLabels labels).length) fun t =>
        t.output = s.output ++ tagLast (joinLabels labels) ∧
        t.outReady = s.outReady.spend (joinLabels labels).length ∧
        SameHeaderSlot s t ∧ SameQuestionSlot s t ∧ SameInput s t ∧ SameRest s t

/-- R203 to R205: Q_GET_TYPE and Q_GET_CLASS answer the last four bytes of QBUF as two big-endian values, Q_GET_LEN
answers QLEN; nothing changes. -/
def Obligations.QuestionGettersReadTheTail : Prop :=
  ∀ (s : State) (front : List Byte) (th tl ch cl : Byte), s.qv = true → HostReady s →
    s.qbuf = front ++ [th, tl, ch, cl] → s.qlen = s.qbuf.length →
      Completes .qGetType s .ok (BitVec.ofNat 16 (th.toNat * 256 + tl.toNat)) (OnlyAnswers s) ∧
      Completes .qGetClass s .ok (BitVec.ofNat 16 (ch.toNat * 256 + cl.toNat)) (OnlyAnswers s) ∧
      Completes .qGetLen s .ok (BitVec.ofNat 16 s.qlen) (OnlyAnswers s)

/-- R206 (a), (b): after Q_BUILD of a name with no empty label and no label above 255 bytes, Q_NAME writes exactly the
name; for every successful Q_BUILD with operands t and c, Q_GET_TYPE returns t and Q_GET_CLASS returns c, empty labels
or not. -/
def Obligations.BuiltQuestionReadsBack : Prop :=
  (∀ (s t u : State) (nameLen qtype qclass : Half) (l rest : List TaggedByte), s.cfg.Valid →
    s.rspReady = .always → s.outReady = .always → Available s l rest → l.length = nameLen.toNat →
    nameLen.toNat + 6 ≤ s.cfg.qcap →
    (∀ label ∈ split (untagged l), 1 ≤ label.length ∧ label.length ≤ 255) →
    exec (.qBuild nameLen qtype qclass) s = .next t → exec .qName t = .next u →
      u.output = s.output ++ tagLast (untagged l)) ∧
  (∀ (s t : State) (nameLen qtype qclass : Half), s.rspReady = .always →
    exec (.qBuild nameLen qtype qclass) s = .next t → t.qv = true →
      Reads .qGetType t qtype ∧ Reads .qGetClass t qclass ∧
      Reads .qGetLen t (BitVec.ofNat 16 (nameLen.toNat + 6)))


/-- R206 (c): if Q_LOAD succeeds having consumed the bytes q, a following Q_STORE writes exactly q. 10_state.md R26 (e):
the question it makes has its terminator where the walk stops. -/
def Obligations.LoadedQuestionIsStoredAsItCame : Prop :=
  (∀ s t u : State, s.cfg.Valid → s.rspReady = .always → s.outReady = .always →
    exec .qLoad s = .next t → t.qv = true → exec .qStore t = .next u →
      ∃ consumed, s.input = consumed ++ t.input ∧ consumed.length = t.qlen ∧
        u.output = s.output ++ tagLast (untagged consumed)) ∧
  (∀ s t : State, exec .qLoad s = .next t → t.qv = true →
    5 ≤ t.qlen ∧ t.qbuf.length = t.qlen ∧ walkEnd t.qbuf = some (t.qlen - 5))

/-- R206 (d), (e): presenting the bytes Q_STORE writes to Q_LOAD, on an instance where they fit, gives the question back
when its walk ends at QLEN-5, and consumes only T + 5 bytes when the walk ends at T before that. -/
def Obligations.StoredQuestionLoadsBack : Prop :=
  ∀ (s other u : State) (rest : List TaggedByte) (t : Nat), Invariant s → s.qv = true → walkEnd s.qbuf = some t →
    HostReady other → other.inEos = false → s.qlen ≤ other.cfg.qcap →
    other.input = tagLast s.qbuf ++ rest → exec .qLoad other = .next u →
      u.qv = true ∧ u.qlen = t + 5 ∧ u.qbuf = s.qbuf.take (t + 5) ∧
      u.input = (tagLast s.qbuf).drop (t + 5) ++ rest ∧
      (t = s.qlen - 5 →
        u.qbuf = s.qbuf ∧ u.qlen = s.qlen ∧ u.longLabel = s.longLabel ∧ u.longName = s.longName)

/-! ### Failures (60_exceptions.md) -/

/-- R244: a legal command that needs an object and finds its slot invalid ends in NO_OBJECT with the state entirely
unchanged; constructors, GET_STATUS and IN_NEXT never end in NO_OBJECT. -/
def Obligations.MissingObjectIsRefusedUnchanged : Prop :=
  (∀ (i : Instr) (s : State), i.WellFormed → HostReady s → needsHeader i = true → s.hv = false →
    Completes i s .noObject 0 (OnlyAnswers s)) ∧
  (∀ (i : Instr) (s : State), HostReady s → needsQuestion i = true → s.qv = false →
    Completes i s .noObject 0 (OnlyAnswers s)) ∧
  (∀ (i : Instr) (s t : State) (d : Half), needsHeader i = false → needsQuestion i = false →
    exec i s = .next t → ¬ Answered s t .noObject d)

/-- R247: a command that ends, ends in a status of its row of the matrix; NO_OBJECT only on an invalid slot; data is 0
unless the status is OK (30_encoding.md R95). -/
def Obligations.CommandsEndOnlyInTheirStatuses : Prop :=
  ∀ (i : Instr) (s t : State), i.WellFormed → HostReady s → exec i s = .next t → t.activity = .idle →
    ∃ st d, t.rsp = s.rsp ++ [rspWord st d] ∧ st ∈ possibleStatuses i ∧ (st ≠ .ok → d = 0) ∧
      (st = .noObject → (needsHeader i = true ∧ s.hv = false) ∨ (needsQuestion i = true ∧ s.qv = false))

/-! ### Liveness (70_reset_and_hazards.md R281) -/

/-- R281: the bounds on the transfers of one command. -/
def Obligations.TransfersStayWithinTheirBounds : Prop :=
  ∀ (i : Instr) (s t : State), Invariant s → exec i s = .next t →
    (∃ k, k ≤ inputBound i s ∧ t.input = s.input.drop k) ∧
    (∃ written, written.length ≤ outputBound i s ∧ t.output = s.output ++ written)

/-- R281: when the channels serve it, every command ends in the step that accepts it: the input presented holds as many
bytes as its bound or ends the message, the transport takes as many bytes as its bound, the host takes the response.
That acceptance and end fall in one step is the model's granularity (log 6). -/
def Obligations.ServedCommandsEnd : Prop :=
  ∀ (i : Instr) (s t : State), Invariant s → HostReady s →
    (s.inEos = true ∨ eosOf s.input = true ∨ (i ≠ .inNext ∧ inputBound i s ≤ s.input.length)) →
    TransportReady s (outputBound i s) → exec i s = .next t →
      t.activity = .idle ∧ t.rsp.length = s.rsp.length + 1
end

