-- ==== Sys2Proof/Laws/Decode.lean ====
section
/-! SUPPORT. The fields of a packed word, the word of its fields, and the operand tables of the decoder against those
of the encoder (30_encoding.md R90, R99 to R103). -/

namespace Sys2Proof

/-! ### The five fields (R90) -/

@[simp] theorem cmdOp_packWord (op sel : BitVec 8) (c b a : Half) : cmdOp (packWord op sel c b a) = op := by
  apply BitVec.eq_of_getLsbD_eq
  intro i hi
  simp only [cmdOp, packWord, BitVec.getLsbD_extractLsb', BitVec.getLsbD_append]
  have h1 : ¬ 56 + i < 16 := by omega
  have h2 : ¬ 56 + i - 16 < 16 := by omega
  have h3 : ¬ 56 + i - 16 - 16 < 16 := by omega
  have h4 : ¬ 56 + i - 16 - 16 - 16 < 8 := by omega
  have h5 : 56 + i - 16 - 16 - 16 - 8 = i := by omega
  simp [hi, h1, h2, h3, h4, h5]

@[simp] theorem cmdSel_packWord (op sel : BitVec 8) (c b a : Half) : cmdSel (packWord op sel c b a) = sel := by
  apply BitVec.eq_of_getLsbD_eq
  intro i hi
  simp only [cmdSel, packWord, BitVec.getLsbD_extractLsb', BitVec.getLsbD_append]
  have h1 : ¬ 48 + i < 16 := by omega
  have h2 : ¬ 48 + i - 16 < 16 := by omega
  have h3 : ¬ 48 + i - 16 - 16 < 16 := by omega
  have h4 : 48 + i - 16 - 16 - 16 = i := by omega
  simp [hi, h1, h2, h3, h4]

@[simp] theorem cmdC_packWord (op sel : BitVec 8) (c b a : Half) : cmdC (packWord op sel c b a) = c := by
  apply BitVec.eq_of_getLsbD_eq
  intro i hi
  simp only [cmdC, packWord, BitVec.getLsbD_extractLsb', BitVec.getLsbD_append]
  have h1 : ¬ 32 + i < 16 := by omega
  have h2 : ¬ 32 + i - 16 < 16 := by omega
  have h3 : 32 + i - 16 - 16 = i := by omega
  simp [hi, h1, h2, h3]

@[simp] theorem cmdB_packWord (op sel : BitVec 8) (c b a : Half) : cmdB (packWord op sel c b a) = b := by
  apply BitVec.eq_of_getLsbD_eq
  intro i hi
  simp only [cmdB, packWord, BitVec.getLsbD_extractLsb', BitVec.getLsbD_append]
  have h1 : ¬ 16 + i < 16 := by omega
  have h2 : 16 + i - 16 = i := by omega
  simp [hi, h1, h2]

@[simp] theorem cmdA_packWord (op sel : BitVec 8) (c b a : Half) : cmdA (packWord op sel c b a) = a := by
  apply BitVec.eq_of_getLsbD_eq
  intro i hi
  simp only [cmdA, packWord, BitVec.getLsbD_extractLsb', BitVec.getLsbD_append]
  simp [hi]

/-- A word is the word of its five fields. -/
theorem packWord_fields (w : CmdWord) : packWord (cmdOp w) (cmdSel w) (cmdC w) (cmdB w) (cmdA w) = w := by
  apply BitVec.eq_of_getLsbD_eq
  intro i hi
  simp only [cmdOp, cmdSel, cmdC, cmdB, cmdA, packWord, BitVec.getLsbD_extractLsb', BitVec.getLsbD_append]
  split
  · simp [*]
  · split
    · rw [show 16 + (i - 16) = i by omega]; simp [*]
    · split
      · rw [show 32 + (i - 16 - 16) = i by omega]; simp [*]
      · split
        · rw [show 48 + (i - 16 - 16 - 16) = i by omega]; simp [*]
        · rw [show 56 + (i - 16 - 16 - 16 - 8) = i by omega]
          have : i - 16 - 16 - 16 - 8 < 8 := by omega
          simp [this]

/-- `Decode` of a packed word is `Decode` of its fields. -/
theorem decode_packWord (op sel : BitVec 8) (c b a : Half) :
    decode (packWord op sel c b a) = decodeFields op sel c b a := by
  simp [decode]

/-! ### The selector (R103) -/

@[simp] theorem selByteOffset_selectorField (o : BitVec 4) (p : BitVec 3) :
    selByteOffset (selectorField o p) = o := by revert o p; decide

@[simp] theorem selReserved_selectorField (o : BitVec 4) (p : BitVec 3) :
    selReserved (selectorField o p) = 0 := by revert o p; decide

@[simp] theorem selBitPosition_selectorField (o : BitVec 4) (p : BitVec 3) :
    selBitPosition (selectorField o p) = p := by revert o p; decide

@[simp] theorem selectorLegal_selectorField (o : BitVec 4) (p : BitVec 3) :
    selectorLegal (selectorField o p) = legalByteOffset o := by simp [selectorLegal]

/-- A selector with `sel[3]` = 0 is the selector of its two operands. -/
theorem selectorField_operands (sel : BitVec 8) (h : selectorLegal sel = true) :
    selectorField (selByteOffset sel) (selBitPosition sel) = sel := by revert sel; decide

theorem legalByteOffset_of_selectorLegal (sel : BitVec 8) (h : selectorLegal sel = true) :
    legalByteOffset (selByteOffset sel) = true := by
  simp only [selectorLegal, Bool.and_eq_true] at h
  exact h.2

/-! ### The operand tables (R99 to R101): a code's symbol, and a symbol's code -/

@[simp] theorem flagOf_flagField (v : Bool) : flagOf (flagField v) = some v := by cases v <;> rfl

theorem flagField_of_flagOf (a : Half) (v : Bool) (h : flagOf a = some v) : flagField v = a := by
  unfold flagOf at h
  split at h <;> first | (cases h; rfl) | cases h

@[simp] theorem opcodeSymOf_opcodeSymField (sym : OpcodeSym) : opcodeSymOf (opcodeSymField sym) = some sym := by
  cases sym <;> rfl

theorem opcodeSymField_of_opcodeSymOf (a : Half) (sym : OpcodeSym) (h : opcodeSymOf a = some sym) :
    opcodeSymField sym = a := by
  unfold opcodeSymOf at h
  split at h <;> first | (cases h; rfl) | cases h

@[simp] theorem rcodeSymOf_rcodeSymField (sym : RcodeSym) : rcodeSymOf (rcodeSymField sym) = some sym := by
  cases sym <;> rfl

theorem rcodeSymField_of_rcodeSymOf (a : Half) (sym : RcodeSym) (h : rcodeSymOf a = some sym) :
    rcodeSymField sym = a := by
  unfold rcodeSymOf at h
  split at h <;> first | (cases h; rfl) | cases h

/-! ### The opcode map against the encoder, format by format (R91, R96) -/

/-- The five fields the encoder gives `i`. -/
def Instr.HasFields (i : Instr) (op sel : BitVec 8) (c b a : Half) : Prop :=
  opcodeByte i = op ∧ selOperand i = sel ∧ cOperand i = c ∧ bOperand i = b ∧ aOperand i = a

/-- The commands a format makes under opcode `op` have the fields R91 gives the format, and are well formed where R91
admits their operands. -/
def Form.Agrees (op : BitVec 8) (f : Form) : Prop :=
  match f with
  | .n i => i.WellFormed ∧ i.HasFields op 0 0 0 0
  | .v mk => ∀ v, (mk v).WellFormed ∧ (mk v).HasFields op 0 0 0 v
  | .f mk => ∀ v, (mk v).WellFormed ∧ (mk v).HasFields op 0 0 0 (flagField v)
  | .eo mk => ∀ v, (mk v).WellFormed ∧ (mk v).HasFields op 0 0 0 (opcodeSymField v)
  | .er mk => ∀ v, (mk v).WellFormed ∧ (mk v).HasFields op 0 0 0 (rcodeSymField v)
  | .bg mk => ∀ o p, ((mk o p).wellFormed = legalByteOffset o) ∧ (mk o p).HasFields op (selectorField o p) 0 0 0
  | .bs mk => ∀ o p v, ((mk o p v).wellFormed = legalByteOffset o) ∧
      (mk o p v).HasFields op (selectorField o p) 0 0 (flagField v)
  | .q mk => ∀ n t c, (mk n t c).WellFormed ∧ (mk n t c).HasFields op 0 n c t

/-- Every row of the opcode map agrees with the encoder. -/
theorem formOf_agrees (op : BitVec 8) (f : Form) (h : formOf op = some f) : f.Agrees op := by
  unfold formOf at h
  split at h <;> first
    | (cases h; simp only [Form.Agrees]; intros; exact ⟨rfl, rfl, rfl, rfl, rfl, rfl⟩)
    | cases h

/-- The encoding is the word of the fields. -/
theorem Instr.HasFields.encode_eq {i : Instr} {op sel : BitVec 8} {c b a : Half} (h : i.HasFields op sel c b a) :
    encode i = packWord op sel c b a := by
  obtain ⟨rfl, rfl, rfl, rfl, rfl⟩ := h
  rfl

end Sys2Proof
end

