-- ==== Sys2Proof/Laws/Operands.lean ====
section
/-! SUPPORT. The header bytes, byte order, the bits of a header byte and the response word (Machine/Operands.lean): one
lemma per operation. -/

namespace Sys2Proof.Machine

/-! ### Header bytes -/

theorem hdrByte_eq (h : Header) (k : Nat) (hk : k < 12) : hdrByte h k = h[k] := by
  simp [hdrByte, Vector.getD, hk]

theorem hdrByte_setHdrByte (h : Header) (o k : Nat) (v : Byte) (hk : k < 12) :
    hdrByte (setHdrByte h o v) k = if k = o then v else hdrByte h k := by
  rw [hdrByte_eq _ _ hk, hdrByte_eq _ _ hk, setHdrByte]
  rw [Vector.getElem_setIfInBounds hk]
  simp [eq_comm]

theorem header_ext (h h' : Header) (e : ∀ k, k < 12 → hdrByte h k = hdrByte h' k) : h = h' := by
  ext k hk
  have := e k hk
  rw [hdrByte_eq _ _ hk, hdrByte_eq _ _ hk] at this
  rw [this]

theorem hdrByte_headerOfBytes (l : List Byte) (k : Nat) (hk : k < 12) :
    hdrByte (headerOfBytes l) k = l.getD k 0 := by
  rw [hdrByte_eq _ _ hk]
  simp [headerOfBytes]

/-- The bytes of a header make the header. -/
theorem headerOfBytes_toList (h : Header) : headerOfBytes h.toList = h := by
  apply header_ext
  intro k hk
  rw [hdrByte_headerOfBytes _ _ hk, hdrByte_eq _ _ hk]
  simp [hk]

/-- Twelve bytes are the bytes of the header they make. -/
theorem toList_headerOfBytes (l : List Byte) (h : l.length = 12) : (headerOfBytes l).toList = l := by
  apply List.ext_getElem
  · simp [h]
  · intro k h1 h2
    simp [headerOfBytes, h2]

/-! ### Byte order (20_memory.md R54) -/

@[simp] theorem hi8_be16 (hi lo : Byte) : hi8 (be16 hi lo) = hi := by
  apply BitVec.eq_of_getLsbD_eq
  intro i hi'
  simp only [hi8, be16, BitVec.getLsbD_extractLsb', BitVec.getLsbD_append]
  have h1 : ¬ 8 + i < 8 := by omega
  have h2 : 8 + i - 8 = i := by omega
  simp [hi', h1, h2]

@[simp] theorem lo8_be16 (hi lo : Byte) : lo8 (be16 hi lo) = lo := by
  apply BitVec.eq_of_getLsbD_eq
  intro i hi'
  simp only [lo8, be16, BitVec.getLsbD_extractLsb', BitVec.getLsbD_append]
  simp [hi']

@[simp] theorem be16_hi8_lo8 (v : Half) : be16 (hi8 v) (lo8 v) = v := by
  apply BitVec.eq_of_getLsbD_eq
  intro i hi'
  simp only [hi8, lo8, be16, BitVec.getLsbD_extractLsb', BitVec.getLsbD_append]
  split
  · simp [*]
  · rw [show 8 + (i - 8) = i by omega]
    have : i - 8 < 8 := by omega
    simp [this]

theorem be16_toNat (hi lo : Byte) : (be16 hi lo).toNat = hi.toNat * 256 + lo.toNat := by
  have := lo.isLt
  rw [be16, BitVec.toNat_append, ← Nat.shiftLeft_add_eq_or_of_lt this, Nat.shiftLeft_eq]

theorem hi8_eq (v : Half) : hi8 v = BitVec.ofNat 8 (v.toNat / 256) := by
  apply BitVec.eq_of_toNat_eq
  simp [hi8, Nat.shiftRight_eq_div_pow]

theorem lo8_eq (v : Half) : lo8 v = BitVec.ofNat 8 (v.toNat % 256) := by
  apply BitVec.eq_of_toNat_eq
  simp [lo8]

theorem be16_eq (hi lo : Byte) : be16 hi lo = BitVec.ofNat 16 (hi.toNat * 256 + lo.toNat) := by
  apply BitVec.eq_of_toNat_eq
  have := hi.isLt
  have := lo.isLt
  rw [be16_toNat, BitVec.toNat_ofNat, Nat.mod_eq_of_lt]
  omega

/-! ### Bits of a header byte (41_header_fields.md R154) -/

/-- The bit `BitGet` reads, and every bit of the byte `BitSet` writes. -/
theorem byte_bitGet : ∀ (b : Byte) (p : BitVec 3), ((b >>> (7 - p.toNat)) &&& 1 != 0) = b.getMsbD p.toNat := by decide

theorem byte_bitSet_true : ∀ (b : Byte) (p q : BitVec 3),
    (b ||| bitMask p.toNat).getMsbD q.toNat = (if q = p then true else b.getMsbD q.toNat) := by decide

theorem byte_bitSet_false : ∀ (b : Byte) (p q : BitVec 3),
    (b &&& ~~~ bitMask p.toNat).getMsbD q.toNat = (if q = p then false else b.getMsbD q.toNat) := by decide

/-- `BitGet` is the header bit. -/
theorem bitGet_eq (h : Header) (o p : Nat) (hp : p < 8) : bitGet h o p = headerBit h o p := by
  have := byte_bitGet (hdrByte h o) (BitVec.ofNat 3 p)
  rw [show (BitVec.ofNat 3 p).toNat = p by simp; omega] at this
  exact this

/-- `BitSet` writes one header bit. -/
theorem headerBit_bitSet (h : Header) (o p o' p' : Nat) (v : Bool) (hp : p < 8) (ho' : o' < 12) (hp' : p' < 8) :
    headerBit (bitSet h o p v) o' p' = if o' = o ∧ p' = p then v else headerBit h o' p' := by
  have e1 : (BitVec.ofNat 3 p).toNat = p := by simp; omega
  have e2 : (BitVec.ofNat 3 p').toNat = p' := by simp; omega
  have e3 : (BitVec.ofNat 3 p' = BitVec.ofNat 3 p) ↔ p' = p := by
    constructor
    · intro h; rw [← e1, ← e2, h]
    · rintro rfl; rfl
  unfold headerBit bitSet
  rw [hdrByte_setHdrByte _ _ _ _ ho']
  by_cases ho : o' = o
  · subst ho
    cases v
    · have := byte_bitSet_false (hdrByte h o') (BitVec.ofNat 3 p) (BitVec.ofNat 3 p')
      rw [e1, e2, if_congr e3 rfl rfl] at this
      simpa using this
    · have := byte_bitSet_true (hdrByte h o') (BitVec.ofNat 3 p) (BitVec.ofNat 3 p')
      rw [e1, e2, if_congr e3 rfl rfl] at this
      simpa using this
  · simp [ho]

/-- Two bytes with the same eight bits are the same. -/
theorem byte_eq_of_bits (a b : Byte) (h : ∀ p, p < 8 → a.getMsbD p = b.getMsbD p) : a = b := by
  apply BitVec.eq_of_getMsbD_eq
  intro i hi
  exact h i hi

/-! ### The enumerated fields, on the byte that holds them -/

theorem opcodeRaw_toNat (h : Header) : (opcodeRaw h).toNat = (hdrByte h 2).toNat / 8 % 16 := by
  have : ∀ b : Byte, (((b &&& 0x78) >>> 3).setWidth 4).toNat = b.toNat / 8 % 16 := by decide
  exact this _

theorem rcodeRaw_toNat (h : Header) : (rcodeRaw h).toNat = (hdrByte h 3).toNat % 16 := by
  have : ∀ b : Byte, ((b &&& 0x0F).setWidth 4).toNat = b.toNat % 16 := by decide
  exact this _

/-- The OPCODE field is bits 1 to 4 of header byte 2. -/
theorem opcodeRaw_congr (h h' : Header) (e : ∀ p, 1 ≤ p → p ≤ 4 → headerBit h 2 p = headerBit h' 2 p) :
    opcodeRaw h = opcodeRaw h' := by
  have : ∀ b : Byte, ((b &&& 0x78) >>> 3).setWidth 4 =
      BitVec.ofBool (b.getMsbD 1) ++ BitVec.ofBool (b.getMsbD 2) ++ BitVec.ofBool (b.getMsbD 3) ++
        BitVec.ofBool (b.getMsbD 4) := by decide
  unfold headerBit at e
  rw [opcodeRaw, opcodeRaw, this, this, e 1, e 2, e 3, e 4] <;> decide

/-- The RCODE field is bits 4 to 7 of header byte 3. -/
theorem rcodeRaw_congr (h h' : Header) (e : ∀ p, 4 ≤ p → p ≤ 7 → headerBit h 3 p = headerBit h' 3 p) :
    rcodeRaw h = rcodeRaw h' := by
  have : ∀ b : Byte, (b &&& 0x0F).setWidth 4 =
      BitVec.ofBool (b.getMsbD 4) ++ BitVec.ofBool (b.getMsbD 5) ++ BitVec.ofBool (b.getMsbD 6) ++
        BitVec.ofBool (b.getMsbD 7) := by decide
  unfold headerBit at e
  rw [rcodeRaw, rcodeRaw, this, this, e 4, e 5, e 6, e 7] <;> decide

/-- A header byte is its bits. -/
theorem hdrByte_congr (h h' : Header) (o : Nat) (e : ∀ p, p < 8 → headerBit h o p = headerBit h' o p) :
    hdrByte h o = hdrByte h' o := byte_eq_of_bits _ _ e

theorem opSym_field (x : BitVec 4) : opcodeSymField (opSym x) = BitVec.ofNat 16 (min x.toNat 3) := by
  revert x; decide

theorem rcSym_data (x : BitVec 4) :
    rcodeData (rcSym x) = if x.toNat ≤ 5 then BitVec.ofNat 16 (256 + x.toNat) else 0 := by
  revert x; decide

/-! ### The response word (30_encoding.md R93) -/

/-- r[15:0] is the data. -/
@[simp] theorem rspWord_data (st : Status) (d : Half) : (rspWord st d).extractLsb' 0 16 = d := by
  apply BitVec.eq_of_getLsbD_eq
  intro i hi
  simp only [rspWord, BitVec.getLsbD_extractLsb', BitVec.getLsbD_append]
  simp [hi]

/-- r[19:16] is the status. -/
@[simp] theorem rspWord_status (st : Status) (d : Half) : (rspWord st d).extractLsb' 16 4 = statusCode st := by
  apply BitVec.eq_of_getLsbD_eq
  intro i hi
  simp only [rspWord, BitVec.getLsbD_extractLsb', BitVec.getLsbD_append]
  have h1 : ¬ 16 + i < 16 := by omega
  have h2 : 16 + i - 16 = i := by omega
  simp [hi, h1, h2]

/-- The status and the data of a response word can be read back. -/
theorem rspWord_inj {st st' : Status} {d d' : Half} (h : rspWord st d = rspWord st' d') : st = st' ∧ d = d' := by
  have h1 := congrArg (fun r => r.extractLsb' 0 16) h
  have h2 := congrArg (fun r => r.extractLsb' 16 4) h
  simp only [rspWord_data, rspWord_status] at h1 h2
  refine ⟨?_, h1⟩
  revert h2
  cases st <;> cases st' <;> decide

end Sys2Proof.Machine
end

