-- ==== Sys2Proof/Laws/State.lean ====
section
/-! SUPPORT. One lemma per field per update of State: later proofs cite these and never unfold a record update. -/

namespace Sys2Proof.Machine

/-! ### Responses: everything but rsp, rspReady and activity is unchanged -/

@[simp] theorem State.deliver_hdr (s : State) (r : RspWord) : (s.deliver r).hdr = s.hdr := by unfold State.deliver; split <;> rfl
@[simp] theorem State.deliver_hv (s : State) (r : RspWord) : (s.deliver r).hv = s.hv := by unfold State.deliver; split <;> rfl
@[simp] theorem State.deliver_qbuf (s : State) (r : RspWord) : (s.deliver r).qbuf = s.qbuf := by unfold State.deliver; split <;> rfl
@[simp] theorem State.deliver_qlen (s : State) (r : RspWord) : (s.deliver r).qlen = s.qlen := by unfold State.deliver; split <;> rfl
@[simp] theorem State.deliver_qv (s : State) (r : RspWord) : (s.deliver r).qv = s.qv := by unfold State.deliver; split <;> rfl
@[simp] theorem State.deliver_longLabel (s : State) (r : RspWord) : (s.deliver r).longLabel = s.longLabel := by unfold State.deliver; split <;> rfl
@[simp] theorem State.deliver_longName (s : State) (r : RspWord) : (s.deliver r).longName = s.longName := by unfold State.deliver; split <;> rfl
@[simp] theorem State.deliver_inEos (s : State) (r : RspWord) : (s.deliver r).inEos = s.inEos := by unfold State.deliver; split <;> rfl
@[simp] theorem State.deliver_cfg (s : State) (r : RspWord) : (s.deliver r).cfg = s.cfg := by unfold State.deliver; split <;> rfl
@[simp] theorem State.deliver_input (s : State) (r : RspWord) : (s.deliver r).input = s.input := by unfold State.deliver; split <;> rfl
@[simp] theorem State.deliver_output (s : State) (r : RspWord) : (s.deliver r).output = s.output := by unfold State.deliver; split <;> rfl
@[simp] theorem State.deliver_cmds (s : State) (r : RspWord) : (s.deliver r).cmds = s.cmds := by unfold State.deliver; split <;> rfl
@[simp] theorem State.deliver_outReady (s : State) (r : RspWord) : (s.deliver r).outReady = s.outReady := by unfold State.deliver; split <;> rfl
@[simp] theorem State.deliver_rst (s : State) (r : RspWord) : (s.deliver r).rst = s.rst := by unfold State.deliver; split <;> rfl
@[simp] theorem State.deliver_freeDraws (s : State) (r : RspWord) : (s.deliver r).freeDraws = s.freeDraws := by unfold State.deliver; split <;> rfl

@[simp] theorem State.respond_hdr (s : State) (st : Status) (d : Half) : (s.respond st d).hdr = s.hdr := s.deliver_hdr _
@[simp] theorem State.respond_hv (s : State) (st : Status) (d : Half) : (s.respond st d).hv = s.hv := s.deliver_hv _
@[simp] theorem State.respond_qbuf (s : State) (st : Status) (d : Half) : (s.respond st d).qbuf = s.qbuf := s.deliver_qbuf _
@[simp] theorem State.respond_qlen (s : State) (st : Status) (d : Half) : (s.respond st d).qlen = s.qlen := s.deliver_qlen _
@[simp] theorem State.respond_qv (s : State) (st : Status) (d : Half) : (s.respond st d).qv = s.qv := s.deliver_qv _
@[simp] theorem State.respond_longLabel (s : State) (st : Status) (d : Half) : (s.respond st d).longLabel = s.longLabel := s.deliver_longLabel _
@[simp] theorem State.respond_longName (s : State) (st : Status) (d : Half) : (s.respond st d).longName = s.longName := s.deliver_longName _
@[simp] theorem State.respond_inEos (s : State) (st : Status) (d : Half) : (s.respond st d).inEos = s.inEos := s.deliver_inEos _
@[simp] theorem State.respond_cfg (s : State) (st : Status) (d : Half) : (s.respond st d).cfg = s.cfg := s.deliver_cfg _
@[simp] theorem State.respond_input (s : State) (st : Status) (d : Half) : (s.respond st d).input = s.input := s.deliver_input _
@[simp] theorem State.respond_output (s : State) (st : Status) (d : Half) : (s.respond st d).output = s.output := s.deliver_output _
@[simp] theorem State.respond_cmds (s : State) (st : Status) (d : Half) : (s.respond st d).cmds = s.cmds := s.deliver_cmds _
@[simp] theorem State.respond_outReady (s : State) (st : Status) (d : Half) : (s.respond st d).outReady = s.outReady := s.deliver_outReady _
@[simp] theorem State.respond_rst (s : State) (st : Status) (d : Half) : (s.respond st d).rst = s.rst := s.deliver_rst _
@[simp] theorem State.respond_freeDraws (s : State) (st : Status) (d : Half) : (s.respond st d).freeDraws = s.freeDraws := s.deliver_freeDraws _

@[simp] theorem State.done_hdr (s : State) (d : Half) : (s.done d).hdr = s.hdr := s.respond_hdr _ _
@[simp] theorem State.done_hv (s : State) (d : Half) : (s.done d).hv = s.hv := s.respond_hv _ _
@[simp] theorem State.done_qbuf (s : State) (d : Half) : (s.done d).qbuf = s.qbuf := s.respond_qbuf _ _
@[simp] theorem State.done_qlen (s : State) (d : Half) : (s.done d).qlen = s.qlen := s.respond_qlen _ _
@[simp] theorem State.done_qv (s : State) (d : Half) : (s.done d).qv = s.qv := s.respond_qv _ _
@[simp] theorem State.done_longLabel (s : State) (d : Half) : (s.done d).longLabel = s.longLabel := s.respond_longLabel _ _
@[simp] theorem State.done_longName (s : State) (d : Half) : (s.done d).longName = s.longName := s.respond_longName _ _
@[simp] theorem State.done_inEos (s : State) (d : Half) : (s.done d).inEos = s.inEos := s.respond_inEos _ _
@[simp] theorem State.done_cfg (s : State) (d : Half) : (s.done d).cfg = s.cfg := s.respond_cfg _ _
@[simp] theorem State.done_input (s : State) (d : Half) : (s.done d).input = s.input := s.respond_input _ _
@[simp] theorem State.done_output (s : State) (d : Half) : (s.done d).output = s.output := s.respond_output _ _
@[simp] theorem State.done_cmds (s : State) (d : Half) : (s.done d).cmds = s.cmds := s.respond_cmds _ _
@[simp] theorem State.done_outReady (s : State) (d : Half) : (s.done d).outReady = s.outReady := s.respond_outReady _ _
@[simp] theorem State.done_rst (s : State) (d : Half) : (s.done d).rst = s.rst := s.respond_rst _ _
@[simp] theorem State.done_freeDraws (s : State) (d : Half) : (s.done d).freeDraws = s.freeDraws := s.respond_freeDraws _ _

@[simp] theorem State.fail_hdr (s : State) (st : Status) : (s.fail st).hdr = s.hdr := s.respond_hdr _ _
@[simp] theorem State.fail_hv (s : State) (st : Status) : (s.fail st).hv = s.hv := s.respond_hv _ _
@[simp] theorem State.fail_qbuf (s : State) (st : Status) : (s.fail st).qbuf = s.qbuf := s.respond_qbuf _ _
@[simp] theorem State.fail_qlen (s : State) (st : Status) : (s.fail st).qlen = s.qlen := s.respond_qlen _ _
@[simp] theorem State.fail_qv (s : State) (st : Status) : (s.fail st).qv = s.qv := s.respond_qv _ _
@[simp] theorem State.fail_longLabel (s : State) (st : Status) : (s.fail st).longLabel = s.longLabel := s.respond_longLabel _ _
@[simp] theorem State.fail_longName (s : State) (st : Status) : (s.fail st).longName = s.longName := s.respond_longName _ _
@[simp] theorem State.fail_inEos (s : State) (st : Status) : (s.fail st).inEos = s.inEos := s.respond_inEos _ _
@[simp] theorem State.fail_cfg (s : State) (st : Status) : (s.fail st).cfg = s.cfg := s.respond_cfg _ _
@[simp] theorem State.fail_input (s : State) (st : Status) : (s.fail st).input = s.input := s.respond_input _ _
@[simp] theorem State.fail_output (s : State) (st : Status) : (s.fail st).output = s.output := s.respond_output _ _
@[simp] theorem State.fail_cmds (s : State) (st : Status) : (s.fail st).cmds = s.cmds := s.respond_cmds _ _
@[simp] theorem State.fail_outReady (s : State) (st : Status) : (s.fail st).outReady = s.outReady := s.respond_outReady _ _
@[simp] theorem State.fail_rst (s : State) (st : Status) : (s.fail st).rst = s.rst := s.respond_rst _ _
@[simp] theorem State.fail_freeDraws (s : State) (st : Status) : (s.fail st).freeDraws = s.freeDraws := s.respond_freeDraws _ _

@[simp] theorem State.illegal_hdr (s : State) : (s.illegal).hdr = s.hdr := s.fail_hdr _
@[simp] theorem State.illegal_hv (s : State) : (s.illegal).hv = s.hv := s.fail_hv _
@[simp] theorem State.illegal_qbuf (s : State) : (s.illegal).qbuf = s.qbuf := s.fail_qbuf _
@[simp] theorem State.illegal_qlen (s : State) : (s.illegal).qlen = s.qlen := s.fail_qlen _
@[simp] theorem State.illegal_qv (s : State) : (s.illegal).qv = s.qv := s.fail_qv _
@[simp] theorem State.illegal_longLabel (s : State) : (s.illegal).longLabel = s.longLabel := s.fail_longLabel _
@[simp] theorem State.illegal_longName (s : State) : (s.illegal).longName = s.longName := s.fail_longName _
@[simp] theorem State.illegal_inEos (s : State) : (s.illegal).inEos = s.inEos := s.fail_inEos _
@[simp] theorem State.illegal_cfg (s : State) : (s.illegal).cfg = s.cfg := s.fail_cfg _
@[simp] theorem State.illegal_input (s : State) : (s.illegal).input = s.input := s.fail_input _
@[simp] theorem State.illegal_output (s : State) : (s.illegal).output = s.output := s.fail_output _
@[simp] theorem State.illegal_cmds (s : State) : (s.illegal).cmds = s.cmds := s.fail_cmds _
@[simp] theorem State.illegal_outReady (s : State) : (s.illegal).outReady = s.outReady := s.fail_outReady _
@[simp] theorem State.illegal_rst (s : State) : (s.illegal).rst = s.rst := s.fail_rst _
@[simp] theorem State.illegal_freeDraws (s : State) : (s.illegal).freeDraws = s.freeDraws := s.fail_freeDraws _

/-! ### The other named updates -/

@[simp] theorem State.freeHdr_hdr (s : State) : (s.freeHdr).hdr = Vector.ofFn fun i => Config.freeByte s.freeDraws i := rfl
@[simp] theorem State.freeHdr_hv (s : State) : (s.freeHdr).hv = s.hv := rfl
@[simp] theorem State.freeHdr_qbuf (s : State) : (s.freeHdr).qbuf = s.qbuf := rfl
@[simp] theorem State.freeHdr_qlen (s : State) : (s.freeHdr).qlen = s.qlen := rfl
@[simp] theorem State.freeHdr_qv (s : State) : (s.freeHdr).qv = s.qv := rfl
@[simp] theorem State.freeHdr_longLabel (s : State) : (s.freeHdr).longLabel = s.longLabel := rfl
@[simp] theorem State.freeHdr_longName (s : State) : (s.freeHdr).longName = s.longName := rfl
@[simp] theorem State.freeHdr_inEos (s : State) : (s.freeHdr).inEos = s.inEos := rfl
@[simp] theorem State.freeHdr_activity (s : State) : (s.freeHdr).activity = s.activity := rfl
@[simp] theorem State.freeHdr_cfg (s : State) : (s.freeHdr).cfg = s.cfg := rfl
@[simp] theorem State.freeHdr_input (s : State) : (s.freeHdr).input = s.input := rfl
@[simp] theorem State.freeHdr_output (s : State) : (s.freeHdr).output = s.output := rfl
@[simp] theorem State.freeHdr_rsp (s : State) : (s.freeHdr).rsp = s.rsp := rfl
@[simp] theorem State.freeHdr_cmds (s : State) : (s.freeHdr).cmds = s.cmds := rfl
@[simp] theorem State.freeHdr_outReady (s : State) : (s.freeHdr).outReady = s.outReady := rfl
@[simp] theorem State.freeHdr_rspReady (s : State) : (s.freeHdr).rspReady = s.rspReady := rfl
@[simp] theorem State.freeHdr_rst (s : State) : (s.freeHdr).rst = s.rst := rfl
@[simp] theorem State.freeHdr_freeDraws (s : State) : (s.freeHdr).freeDraws = s.freeDraws + 1 := rfl

@[simp] theorem State.freeQuestion_hdr (s : State) : (s.freeQuestion).hdr = s.hdr := rfl
@[simp] theorem State.freeQuestion_hv (s : State) : (s.freeQuestion).hv = s.hv := rfl
@[simp] theorem State.freeQuestion_qbuf (s : State) : (s.freeQuestion).qbuf = (List.range s.freeQlen).map (Config.freeByte s.freeDraws) := rfl
@[simp] theorem State.freeQuestion_qlen (s : State) : (s.freeQuestion).qlen = s.freeQlen := rfl
@[simp] theorem State.freeQuestion_qv (s : State) : (s.freeQuestion).qv = s.qv := rfl
@[simp] theorem State.freeQuestion_longLabel (s : State) : (s.freeQuestion).longLabel = s.longLabel := rfl
@[simp] theorem State.freeQuestion_longName (s : State) : (s.freeQuestion).longName = s.longName := rfl
@[simp] theorem State.freeQuestion_inEos (s : State) : (s.freeQuestion).inEos = s.inEos := rfl
@[simp] theorem State.freeQuestion_activity (s : State) : (s.freeQuestion).activity = s.activity := rfl
@[simp] theorem State.freeQuestion_cfg (s : State) : (s.freeQuestion).cfg = s.cfg := rfl
@[simp] theorem State.freeQuestion_input (s : State) : (s.freeQuestion).input = s.input := rfl
@[simp] theorem State.freeQuestion_output (s : State) : (s.freeQuestion).output = s.output := rfl
@[simp] theorem State.freeQuestion_rsp (s : State) : (s.freeQuestion).rsp = s.rsp := rfl
@[simp] theorem State.freeQuestion_cmds (s : State) : (s.freeQuestion).cmds = s.cmds := rfl
@[simp] theorem State.freeQuestion_outReady (s : State) : (s.freeQuestion).outReady = s.outReady := rfl
@[simp] theorem State.freeQuestion_rspReady (s : State) : (s.freeQuestion).rspReady = s.rspReady := rfl
@[simp] theorem State.freeQuestion_rst (s : State) : (s.freeQuestion).rst = s.rst := rfl
@[simp] theorem State.freeQuestion_freeDraws (s : State) : (s.freeQuestion).freeDraws = s.freeDraws + 1 := rfl

@[simp] theorem State.dropQuestion_hdr (s : State) : (s.dropQuestion).hdr = s.hdr := rfl
@[simp] theorem State.dropQuestion_hv (s : State) : (s.dropQuestion).hv = s.hv := rfl
@[simp] theorem State.dropQuestion_qbuf (s : State) : (s.dropQuestion).qbuf = s.qbuf := rfl
@[simp] theorem State.dropQuestion_qlen (s : State) : (s.dropQuestion).qlen = s.qlen := rfl
@[simp] theorem State.dropQuestion_qv (s : State) : (s.dropQuestion).qv = false := rfl
@[simp] theorem State.dropQuestion_longLabel (s : State) : (s.dropQuestion).longLabel = false := rfl
@[simp] theorem State.dropQuestion_longName (s : State) : (s.dropQuestion).longName = false := rfl
@[simp] theorem State.dropQuestion_inEos (s : State) : (s.dropQuestion).inEos = s.inEos := rfl
@[simp] theorem State.dropQuestion_activity (s : State) : (s.dropQuestion).activity = s.activity := rfl
@[simp] theorem State.dropQuestion_cfg (s : State) : (s.dropQuestion).cfg = s.cfg := rfl
@[simp] theorem State.dropQuestion_input (s : State) : (s.dropQuestion).input = s.input := rfl
@[simp] theorem State.dropQuestion_output (s : State) : (s.dropQuestion).output = s.output := rfl
@[simp] theorem State.dropQuestion_rsp (s : State) : (s.dropQuestion).rsp = s.rsp := rfl
@[simp] theorem State.dropQuestion_cmds (s : State) : (s.dropQuestion).cmds = s.cmds := rfl
@[simp] theorem State.dropQuestion_outReady (s : State) : (s.dropQuestion).outReady = s.outReady := rfl
@[simp] theorem State.dropQuestion_rspReady (s : State) : (s.dropQuestion).rspReady = s.rspReady := rfl
@[simp] theorem State.dropQuestion_rst (s : State) : (s.dropQuestion).rst = s.rst := rfl
@[simp] theorem State.dropQuestion_freeDraws (s : State) : (s.dropQuestion).freeDraws = s.freeDraws := rfl

@[simp] theorem State.accept_hdr (s : State) (rest : List CmdWord) : (s.accept rest).hdr = s.hdr := rfl
@[simp] theorem State.accept_hv (s : State) (rest : List CmdWord) : (s.accept rest).hv = s.hv := rfl
@[simp] theorem State.accept_qbuf (s : State) (rest : List CmdWord) : (s.accept rest).qbuf = s.qbuf := rfl
@[simp] theorem State.accept_qlen (s : State) (rest : List CmdWord) : (s.accept rest).qlen = s.qlen := rfl
@[simp] theorem State.accept_qv (s : State) (rest : List CmdWord) : (s.accept rest).qv = s.qv := rfl
@[simp] theorem State.accept_longLabel (s : State) (rest : List CmdWord) : (s.accept rest).longLabel = s.longLabel := rfl
@[simp] theorem State.accept_longName (s : State) (rest : List CmdWord) : (s.accept rest).longName = s.longName := rfl
@[simp] theorem State.accept_inEos (s : State) (rest : List CmdWord) : (s.accept rest).inEos = s.inEos := rfl
@[simp] theorem State.accept_activity (s : State) (rest : List CmdWord) : (s.accept rest).activity = s.activity := rfl
@[simp] theorem State.accept_cfg (s : State) (rest : List CmdWord) : (s.accept rest).cfg = s.cfg := rfl
@[simp] theorem State.accept_input (s : State) (rest : List CmdWord) : (s.accept rest).input = s.input := rfl
@[simp] theorem State.accept_output (s : State) (rest : List CmdWord) : (s.accept rest).output = s.output := rfl
@[simp] theorem State.accept_rsp (s : State) (rest : List CmdWord) : (s.accept rest).rsp = s.rsp := rfl
@[simp] theorem State.accept_cmds (s : State) (rest : List CmdWord) : (s.accept rest).cmds = rest := rfl
@[simp] theorem State.accept_outReady (s : State) (rest : List CmdWord) : (s.accept rest).outReady = s.outReady := rfl
@[simp] theorem State.accept_rspReady (s : State) (rest : List CmdWord) : (s.accept rest).rspReady = s.rspReady := rfl
@[simp] theorem State.accept_rst (s : State) (rest : List CmdWord) : (s.accept rest).rst = s.rst := rfl
@[simp] theorem State.accept_freeDraws (s : State) (rest : List CmdWord) : (s.accept rest).freeDraws = s.freeDraws := rfl

@[simp] theorem State.placeCommand_hdr (s : State) (w : CmdWord) : (s.placeCommand w).hdr = s.hdr := rfl
@[simp] theorem State.placeCommand_hv (s : State) (w : CmdWord) : (s.placeCommand w).hv = s.hv := rfl
@[simp] theorem State.placeCommand_qbuf (s : State) (w : CmdWord) : (s.placeCommand w).qbuf = s.qbuf := rfl
@[simp] theorem State.placeCommand_qlen (s : State) (w : CmdWord) : (s.placeCommand w).qlen = s.qlen := rfl
@[simp] theorem State.placeCommand_qv (s : State) (w : CmdWord) : (s.placeCommand w).qv = s.qv := rfl
@[simp] theorem State.placeCommand_longLabel (s : State) (w : CmdWord) : (s.placeCommand w).longLabel = s.longLabel := rfl
@[simp] theorem State.placeCommand_longName (s : State) (w : CmdWord) : (s.placeCommand w).longName = s.longName := rfl
@[simp] theorem State.placeCommand_inEos (s : State) (w : CmdWord) : (s.placeCommand w).inEos = s.inEos := rfl
@[simp] theorem State.placeCommand_activity (s : State) (w : CmdWord) : (s.placeCommand w).activity = .idle := rfl
@[simp] theorem State.placeCommand_cfg (s : State) (w : CmdWord) : (s.placeCommand w).cfg = s.cfg := rfl
@[simp] theorem State.placeCommand_input (s : State) (w : CmdWord) : (s.placeCommand w).input = s.input := rfl
@[simp] theorem State.placeCommand_output (s : State) (w : CmdWord) : (s.placeCommand w).output = s.output := rfl
@[simp] theorem State.placeCommand_rsp (s : State) (w : CmdWord) : (s.placeCommand w).rsp = s.rsp := rfl
@[simp] theorem State.placeCommand_cmds (s : State) (w : CmdWord) : (s.placeCommand w).cmds = w :: s.cmds := rfl
@[simp] theorem State.placeCommand_outReady (s : State) (w : CmdWord) : (s.placeCommand w).outReady = s.outReady := rfl
@[simp] theorem State.placeCommand_rspReady (s : State) (w : CmdWord) : (s.placeCommand w).rspReady = s.rspReady := rfl
@[simp] theorem State.placeCommand_rst (s : State) (w : CmdWord) : (s.placeCommand w).rst = false := rfl
@[simp] theorem State.placeCommand_freeDraws (s : State) (w : CmdWord) : (s.placeCommand w).freeDraws = s.freeDraws := rfl

@[simp] theorem State.sendCommand_hdr (s : State) (w : CmdWord) : (s.sendCommand w).hdr = s.hdr := rfl
@[simp] theorem State.sendCommand_hv (s : State) (w : CmdWord) : (s.sendCommand w).hv = s.hv := rfl
@[simp] theorem State.sendCommand_qbuf (s : State) (w : CmdWord) : (s.sendCommand w).qbuf = s.qbuf := rfl
@[simp] theorem State.sendCommand_qlen (s : State) (w : CmdWord) : (s.sendCommand w).qlen = s.qlen := rfl
@[simp] theorem State.sendCommand_qv (s : State) (w : CmdWord) : (s.sendCommand w).qv = s.qv := rfl
@[simp] theorem State.sendCommand_longLabel (s : State) (w : CmdWord) : (s.sendCommand w).longLabel = s.longLabel := rfl
@[simp] theorem State.sendCommand_longName (s : State) (w : CmdWord) : (s.sendCommand w).longName = s.longName := rfl
@[simp] theorem State.sendCommand_inEos (s : State) (w : CmdWord) : (s.sendCommand w).inEos = s.inEos := rfl
@[simp] theorem State.sendCommand_activity (s : State) (w : CmdWord) : (s.sendCommand w).activity = s.activity := rfl
@[simp] theorem State.sendCommand_cfg (s : State) (w : CmdWord) : (s.sendCommand w).cfg = s.cfg := rfl
@[simp] theorem State.sendCommand_input (s : State) (w : CmdWord) : (s.sendCommand w).input = s.input := rfl
@[simp] theorem State.sendCommand_output (s : State) (w : CmdWord) : (s.sendCommand w).output = s.output := rfl
@[simp] theorem State.sendCommand_rsp (s : State) (w : CmdWord) : (s.sendCommand w).rsp = s.rsp := rfl
@[simp] theorem State.sendCommand_cmds (s : State) (w : CmdWord) : (s.sendCommand w).cmds = s.cmds ++ [w] := rfl
@[simp] theorem State.sendCommand_outReady (s : State) (w : CmdWord) : (s.sendCommand w).outReady = s.outReady := rfl
@[simp] theorem State.sendCommand_rspReady (s : State) (w : CmdWord) : (s.sendCommand w).rspReady = s.rspReady := rfl
@[simp] theorem State.sendCommand_rst (s : State) (w : CmdWord) : (s.sendCommand w).rst = s.rst := rfl
@[simp] theorem State.sendCommand_freeDraws (s : State) (w : CmdWord) : (s.sendCommand w).freeDraws = s.freeDraws := rfl

@[simp] theorem State.presentInput_hdr (s : State) (l : List TaggedByte) : (s.presentInput l).hdr = s.hdr := rfl
@[simp] theorem State.presentInput_hv (s : State) (l : List TaggedByte) : (s.presentInput l).hv = s.hv := rfl
@[simp] theorem State.presentInput_qbuf (s : State) (l : List TaggedByte) : (s.presentInput l).qbuf = s.qbuf := rfl
@[simp] theorem State.presentInput_qlen (s : State) (l : List TaggedByte) : (s.presentInput l).qlen = s.qlen := rfl
@[simp] theorem State.presentInput_qv (s : State) (l : List TaggedByte) : (s.presentInput l).qv = s.qv := rfl
@[simp] theorem State.presentInput_longLabel (s : State) (l : List TaggedByte) : (s.presentInput l).longLabel = s.longLabel := rfl
@[simp] theorem State.presentInput_longName (s : State) (l : List TaggedByte) : (s.presentInput l).longName = s.longName := rfl
@[simp] theorem State.presentInput_inEos (s : State) (l : List TaggedByte) : (s.presentInput l).inEos = s.inEos := rfl
@[simp] theorem State.presentInput_activity (s : State) (l : List TaggedByte) : (s.presentInput l).activity = s.activity := rfl
@[simp] theorem State.presentInput_cfg (s : State) (l : List TaggedByte) : (s.presentInput l).cfg = s.cfg := rfl
@[simp] theorem State.presentInput_input (s : State) (l : List TaggedByte) : (s.presentInput l).input = s.input ++ l := rfl
@[simp] theorem State.presentInput_output (s : State) (l : List TaggedByte) : (s.presentInput l).output = s.output := rfl
@[simp] theorem State.presentInput_rsp (s : State) (l : List TaggedByte) : (s.presentInput l).rsp = s.rsp := rfl
@[simp] theorem State.presentInput_cmds (s : State) (l : List TaggedByte) : (s.presentInput l).cmds = s.cmds := rfl
@[simp] theorem State.presentInput_outReady (s : State) (l : List TaggedByte) : (s.presentInput l).outReady = s.outReady := rfl
@[simp] theorem State.presentInput_rspReady (s : State) (l : List TaggedByte) : (s.presentInput l).rspReady = s.rspReady := rfl
@[simp] theorem State.presentInput_rst (s : State) (l : List TaggedByte) : (s.presentInput l).rst = s.rst := rfl
@[simp] theorem State.presentInput_freeDraws (s : State) (l : List TaggedByte) : (s.presentInput l).freeDraws = s.freeDraws := rfl

@[simp] theorem State.setOutReady_hdr (s : State) (r : Readiness) : (s.setOutReady r).hdr = s.hdr := rfl
@[simp] theorem State.setOutReady_hv (s : State) (r : Readiness) : (s.setOutReady r).hv = s.hv := rfl
@[simp] theorem State.setOutReady_qbuf (s : State) (r : Readiness) : (s.setOutReady r).qbuf = s.qbuf := rfl
@[simp] theorem State.setOutReady_qlen (s : State) (r : Readiness) : (s.setOutReady r).qlen = s.qlen := rfl
@[simp] theorem State.setOutReady_qv (s : State) (r : Readiness) : (s.setOutReady r).qv = s.qv := rfl
@[simp] theorem State.setOutReady_longLabel (s : State) (r : Readiness) : (s.setOutReady r).longLabel = s.longLabel := rfl
@[simp] theorem State.setOutReady_longName (s : State) (r : Readiness) : (s.setOutReady r).longName = s.longName := rfl
@[simp] theorem State.setOutReady_inEos (s : State) (r : Readiness) : (s.setOutReady r).inEos = s.inEos := rfl
@[simp] theorem State.setOutReady_activity (s : State) (r : Readiness) : (s.setOutReady r).activity = s.activity := rfl
@[simp] theorem State.setOutReady_cfg (s : State) (r : Readiness) : (s.setOutReady r).cfg = s.cfg := rfl
@[simp] theorem State.setOutReady_input (s : State) (r : Readiness) : (s.setOutReady r).input = s.input := rfl
@[simp] theorem State.setOutReady_output (s : State) (r : Readiness) : (s.setOutReady r).output = s.output := rfl
@[simp] theorem State.setOutReady_rsp (s : State) (r : Readiness) : (s.setOutReady r).rsp = s.rsp := rfl
@[simp] theorem State.setOutReady_cmds (s : State) (r : Readiness) : (s.setOutReady r).cmds = s.cmds := rfl
@[simp] theorem State.setOutReady_outReady (s : State) (r : Readiness) : (s.setOutReady r).outReady = r := rfl
@[simp] theorem State.setOutReady_rspReady (s : State) (r : Readiness) : (s.setOutReady r).rspReady = s.rspReady := rfl
@[simp] theorem State.setOutReady_rst (s : State) (r : Readiness) : (s.setOutReady r).rst = s.rst := rfl
@[simp] theorem State.setOutReady_freeDraws (s : State) (r : Readiness) : (s.setOutReady r).freeDraws = s.freeDraws := rfl

@[simp] theorem State.takeMore_hdr (s : State) (more : Readiness) : (s.takeMore more).hdr = s.hdr := rfl
@[simp] theorem State.takeMore_hv (s : State) (more : Readiness) : (s.takeMore more).hv = s.hv := rfl
@[simp] theorem State.takeMore_qbuf (s : State) (more : Readiness) : (s.takeMore more).qbuf = s.qbuf := rfl
@[simp] theorem State.takeMore_qlen (s : State) (more : Readiness) : (s.takeMore more).qlen = s.qlen := rfl
@[simp] theorem State.takeMore_qv (s : State) (more : Readiness) : (s.takeMore more).qv = s.qv := rfl
@[simp] theorem State.takeMore_longLabel (s : State) (more : Readiness) : (s.takeMore more).longLabel = s.longLabel := rfl
@[simp] theorem State.takeMore_longName (s : State) (more : Readiness) : (s.takeMore more).longName = s.longName := rfl
@[simp] theorem State.takeMore_inEos (s : State) (more : Readiness) : (s.takeMore more).inEos = s.inEos := rfl
@[simp] theorem State.takeMore_activity (s : State) (more : Readiness) : (s.takeMore more).activity = s.activity := rfl
@[simp] theorem State.takeMore_cfg (s : State) (more : Readiness) : (s.takeMore more).cfg = s.cfg := rfl
@[simp] theorem State.takeMore_input (s : State) (more : Readiness) : (s.takeMore more).input = s.input := rfl
@[simp] theorem State.takeMore_output (s : State) (more : Readiness) : (s.takeMore more).output = s.output := rfl
@[simp] theorem State.takeMore_rsp (s : State) (more : Readiness) : (s.takeMore more).rsp = s.rsp := rfl
@[simp] theorem State.takeMore_cmds (s : State) (more : Readiness) : (s.takeMore more).cmds = s.cmds := rfl
@[simp] theorem State.takeMore_outReady (s : State) (more : Readiness) : (s.takeMore more).outReady = s.outReady.plus more := rfl
@[simp] theorem State.takeMore_rspReady (s : State) (more : Readiness) : (s.takeMore more).rspReady = s.rspReady := rfl
@[simp] theorem State.takeMore_rst (s : State) (more : Readiness) : (s.takeMore more).rst = s.rst := rfl
@[simp] theorem State.takeMore_freeDraws (s : State) (more : Readiness) : (s.takeMore more).freeDraws = s.freeDraws := rfl

@[simp] theorem State.setRspReady_hdr (s : State) (r : Readiness) : (s.setRspReady r).hdr = s.hdr := rfl
@[simp] theorem State.setRspReady_hv (s : State) (r : Readiness) : (s.setRspReady r).hv = s.hv := rfl
@[simp] theorem State.setRspReady_qbuf (s : State) (r : Readiness) : (s.setRspReady r).qbuf = s.qbuf := rfl
@[simp] theorem State.setRspReady_qlen (s : State) (r : Readiness) : (s.setRspReady r).qlen = s.qlen := rfl
@[simp] theorem State.setRspReady_qv (s : State) (r : Readiness) : (s.setRspReady r).qv = s.qv := rfl
@[simp] theorem State.setRspReady_longLabel (s : State) (r : Readiness) : (s.setRspReady r).longLabel = s.longLabel := rfl
@[simp] theorem State.setRspReady_longName (s : State) (r : Readiness) : (s.setRspReady r).longName = s.longName := rfl
@[simp] theorem State.setRspReady_inEos (s : State) (r : Readiness) : (s.setRspReady r).inEos = s.inEos := rfl
@[simp] theorem State.setRspReady_activity (s : State) (r : Readiness) : (s.setRspReady r).activity = s.activity := rfl
@[simp] theorem State.setRspReady_cfg (s : State) (r : Readiness) : (s.setRspReady r).cfg = s.cfg := rfl
@[simp] theorem State.setRspReady_input (s : State) (r : Readiness) : (s.setRspReady r).input = s.input := rfl
@[simp] theorem State.setRspReady_output (s : State) (r : Readiness) : (s.setRspReady r).output = s.output := rfl
@[simp] theorem State.setRspReady_rsp (s : State) (r : Readiness) : (s.setRspReady r).rsp = s.rsp := rfl
@[simp] theorem State.setRspReady_cmds (s : State) (r : Readiness) : (s.setRspReady r).cmds = s.cmds := rfl
@[simp] theorem State.setRspReady_outReady (s : State) (r : Readiness) : (s.setRspReady r).outReady = s.outReady := rfl
@[simp] theorem State.setRspReady_rspReady (s : State) (r : Readiness) : (s.setRspReady r).rspReady = r := rfl
@[simp] theorem State.setRspReady_rst (s : State) (r : Readiness) : (s.setRspReady r).rst = s.rst := rfl
@[simp] theorem State.setRspReady_freeDraws (s : State) (r : Readiness) : (s.setRspReady r).freeDraws = s.freeDraws := rfl

@[simp] theorem State.setRst_hdr (s : State) (level : Bool) : (s.setRst level).hdr = s.hdr := rfl
@[simp] theorem State.setRst_hv (s : State) (level : Bool) : (s.setRst level).hv = s.hv := rfl
@[simp] theorem State.setRst_qbuf (s : State) (level : Bool) : (s.setRst level).qbuf = s.qbuf := rfl
@[simp] theorem State.setRst_qlen (s : State) (level : Bool) : (s.setRst level).qlen = s.qlen := rfl
@[simp] theorem State.setRst_qv (s : State) (level : Bool) : (s.setRst level).qv = s.qv := rfl
@[simp] theorem State.setRst_longLabel (s : State) (level : Bool) : (s.setRst level).longLabel = s.longLabel := rfl
@[simp] theorem State.setRst_longName (s : State) (level : Bool) : (s.setRst level).longName = s.longName := rfl
@[simp] theorem State.setRst_inEos (s : State) (level : Bool) : (s.setRst level).inEos = s.inEos := rfl
@[simp] theorem State.setRst_activity (s : State) (level : Bool) : (s.setRst level).activity = s.activity := rfl
@[simp] theorem State.setRst_cfg (s : State) (level : Bool) : (s.setRst level).cfg = s.cfg := rfl
@[simp] theorem State.setRst_input (s : State) (level : Bool) : (s.setRst level).input = s.input := rfl
@[simp] theorem State.setRst_output (s : State) (level : Bool) : (s.setRst level).output = s.output := rfl
@[simp] theorem State.setRst_rsp (s : State) (level : Bool) : (s.setRst level).rsp = s.rsp := rfl
@[simp] theorem State.setRst_cmds (s : State) (level : Bool) : (s.setRst level).cmds = s.cmds := rfl
@[simp] theorem State.setRst_outReady (s : State) (level : Bool) : (s.setRst level).outReady = s.outReady := rfl
@[simp] theorem State.setRst_rspReady (s : State) (level : Bool) : (s.setRst level).rspReady = s.rspReady := rfl
@[simp] theorem State.setRst_rst (s : State) (level : Bool) : (s.setRst level).rst = level := rfl
@[simp] theorem State.setRst_freeDraws (s : State) (level : Bool) : (s.setRst level).freeDraws = s.freeDraws := rfl

@[simp] theorem State.applyReset_hv (s : State) : (s.applyReset).hv = false := rfl
@[simp] theorem State.applyReset_qv (s : State) : (s.applyReset).qv = false := rfl
@[simp] theorem State.applyReset_longLabel (s : State) : (s.applyReset).longLabel = false := rfl
@[simp] theorem State.applyReset_longName (s : State) : (s.applyReset).longName = false := rfl
@[simp] theorem State.applyReset_inEos (s : State) : (s.applyReset).inEos = false := rfl
@[simp] theorem State.applyReset_activity (s : State) : (s.applyReset).activity = .idle := rfl
@[simp] theorem State.applyReset_cfg (s : State) : (s.applyReset).cfg = s.cfg := rfl
@[simp] theorem State.applyReset_input (s : State) : (s.applyReset).input = s.input := rfl
@[simp] theorem State.applyReset_output (s : State) : (s.applyReset).output = s.output := rfl
@[simp] theorem State.applyReset_rsp (s : State) : (s.applyReset).rsp = s.rsp := rfl
@[simp] theorem State.applyReset_cmds (s : State) : (s.applyReset).cmds = s.cmds := rfl
@[simp] theorem State.applyReset_outReady (s : State) : (s.applyReset).outReady = s.outReady := rfl
@[simp] theorem State.applyReset_rspReady (s : State) : (s.applyReset).rspReady = s.rspReady := rfl
@[simp] theorem State.applyReset_rst (s : State) : (s.applyReset).rst = s.rst := rfl
@[simp] theorem State.applyReset_freeDraws (s : State) : (s.applyReset).freeDraws = s.freeDraws + 2 := rfl

/-! ### The ends of the constructors -/

@[simp] theorem State.failHeader_hdr (s : State) (st : Status) : (s.failHeader st).hdr = s.freeHdr.hdr := by unfold State.failHeader; simp
@[simp] theorem State.failHeader_hv (s : State) (st : Status) : (s.failHeader st).hv = false := by unfold State.failHeader; simp
@[simp] theorem State.failHeader_qbuf (s : State) (st : Status) : (s.failHeader st).qbuf = s.qbuf := by unfold State.failHeader; simp
@[simp] theorem State.failHeader_qlen (s : State) (st : Status) : (s.failHeader st).qlen = s.qlen := by unfold State.failHeader; simp
@[simp] theorem State.failHeader_qv (s : State) (st : Status) : (s.failHeader st).qv = s.qv := by unfold State.failHeader; simp
@[simp] theorem State.failHeader_longLabel (s : State) (st : Status) : (s.failHeader st).longLabel = s.longLabel := by unfold State.failHeader; simp
@[simp] theorem State.failHeader_longName (s : State) (st : Status) : (s.failHeader st).longName = s.longName := by unfold State.failHeader; simp
@[simp] theorem State.failHeader_inEos (s : State) (st : Status) : (s.failHeader st).inEos = s.inEos := by unfold State.failHeader; simp
@[simp] theorem State.failHeader_cfg (s : State) (st : Status) : (s.failHeader st).cfg = s.cfg := by unfold State.failHeader; simp
@[simp] theorem State.failHeader_input (s : State) (st : Status) : (s.failHeader st).input = s.input := by unfold State.failHeader; simp
@[simp] theorem State.failHeader_output (s : State) (st : Status) : (s.failHeader st).output = s.output := by unfold State.failHeader; simp
@[simp] theorem State.failHeader_cmds (s : State) (st : Status) : (s.failHeader st).cmds = s.cmds := by unfold State.failHeader; simp
@[simp] theorem State.failHeader_outReady (s : State) (st : Status) : (s.failHeader st).outReady = s.outReady := by unfold State.failHeader; simp
@[simp] theorem State.failHeader_rst (s : State) (st : Status) : (s.failHeader st).rst = s.rst := by unfold State.failHeader; simp
@[simp] theorem State.failHeader_freeDraws (s : State) (st : Status) : (s.failHeader st).freeDraws = s.freeDraws + 1 := by unfold State.failHeader; simp
@[simp] theorem State.failQuestion_hdr (s : State) (st : Status) : (s.failQuestion st).hdr = s.hdr := by unfold State.failQuestion; simp
@[simp] theorem State.failQuestion_hv (s : State) (st : Status) : (s.failQuestion st).hv = s.hv := by unfold State.failQuestion; simp
@[simp] theorem State.failQuestion_qbuf (s : State) (st : Status) : (s.failQuestion st).qbuf = s.freeQuestion.qbuf := by unfold State.failQuestion; simp [State.freeQlen]
@[simp] theorem State.failQuestion_qlen (s : State) (st : Status) : (s.failQuestion st).qlen = s.freeQuestion.qlen := by unfold State.failQuestion; simp [State.freeQlen]
@[simp] theorem State.failQuestion_qv (s : State) (st : Status) : (s.failQuestion st).qv = false := by unfold State.failQuestion; simp
@[simp] theorem State.failQuestion_longLabel (s : State) (st : Status) : (s.failQuestion st).longLabel = false := by unfold State.failQuestion; simp
@[simp] theorem State.failQuestion_longName (s : State) (st : Status) : (s.failQuestion st).longName = false := by unfold State.failQuestion; simp
@[simp] theorem State.failQuestion_inEos (s : State) (st : Status) : (s.failQuestion st).inEos = s.inEos := by unfold State.failQuestion; simp
@[simp] theorem State.failQuestion_cfg (s : State) (st : Status) : (s.failQuestion st).cfg = s.cfg := by unfold State.failQuestion; simp
@[simp] theorem State.failQuestion_input (s : State) (st : Status) : (s.failQuestion st).input = s.input := by unfold State.failQuestion; simp
@[simp] theorem State.failQuestion_output (s : State) (st : Status) : (s.failQuestion st).output = s.output := by unfold State.failQuestion; simp
@[simp] theorem State.failQuestion_cmds (s : State) (st : Status) : (s.failQuestion st).cmds = s.cmds := by unfold State.failQuestion; simp
@[simp] theorem State.failQuestion_outReady (s : State) (st : Status) : (s.failQuestion st).outReady = s.outReady := by unfold State.failQuestion; simp
@[simp] theorem State.failQuestion_rst (s : State) (st : Status) : (s.failQuestion st).rst = s.rst := by unfold State.failQuestion; simp
@[simp] theorem State.failQuestion_freeDraws (s : State) (st : Status) : (s.failQuestion st).freeDraws = s.freeDraws + 1 := by unfold State.failQuestion; simp
@[simp] theorem State.commitQuestion_hdr (s : State) (buf : List Byte) (ll : Bool) : (s.commitQuestion buf ll).hdr = s.hdr := by unfold State.commitQuestion; simp
@[simp] theorem State.commitQuestion_hv (s : State) (buf : List Byte) (ll : Bool) : (s.commitQuestion buf ll).hv = s.hv := by unfold State.commitQuestion; simp
@[simp] theorem State.commitQuestion_qbuf (s : State) (buf : List Byte) (ll : Bool) : (s.commitQuestion buf ll).qbuf = buf := by unfold State.commitQuestion; simp
@[simp] theorem State.commitQuestion_qlen (s : State) (buf : List Byte) (ll : Bool) : (s.commitQuestion buf ll).qlen = buf.length := by unfold State.commitQuestion; simp
@[simp] theorem State.commitQuestion_qv (s : State) (buf : List Byte) (ll : Bool) : (s.commitQuestion buf ll).qv = true := by unfold State.commitQuestion; simp
@[simp] theorem State.commitQuestion_longLabel (s : State) (buf : List Byte) (ll : Bool) : (s.commitQuestion buf ll).longLabel = ll := by unfold State.commitQuestion; simp
@[simp] theorem State.commitQuestion_longName (s : State) (buf : List Byte) (ll : Bool) : (s.commitQuestion buf ll).longName = longNameLength buf.length := by unfold State.commitQuestion; simp
@[simp] theorem State.commitQuestion_inEos (s : State) (buf : List Byte) (ll : Bool) : (s.commitQuestion buf ll).inEos = s.inEos := by unfold State.commitQuestion; simp
@[simp] theorem State.commitQuestion_cfg (s : State) (buf : List Byte) (ll : Bool) : (s.commitQuestion buf ll).cfg = s.cfg := by unfold State.commitQuestion; simp
@[simp] theorem State.commitQuestion_input (s : State) (buf : List Byte) (ll : Bool) : (s.commitQuestion buf ll).input = s.input := by unfold State.commitQuestion; simp
@[simp] theorem State.commitQuestion_output (s : State) (buf : List Byte) (ll : Bool) : (s.commitQuestion buf ll).output = s.output := by unfold State.commitQuestion; simp
@[simp] theorem State.commitQuestion_cmds (s : State) (buf : List Byte) (ll : Bool) : (s.commitQuestion buf ll).cmds = s.cmds := by unfold State.commitQuestion; simp
@[simp] theorem State.commitQuestion_outReady (s : State) (buf : List Byte) (ll : Bool) : (s.commitQuestion buf ll).outReady = s.outReady := by unfold State.commitQuestion; simp
@[simp] theorem State.commitQuestion_rst (s : State) (buf : List Byte) (ll : Bool) : (s.commitQuestion buf ll).rst = s.rst := by unfold State.commitQuestion; simp
@[simp] theorem State.commitQuestion_freeDraws (s : State) (buf : List Byte) (ll : Bool) : (s.commitQuestion buf ll).freeDraws = s.freeDraws := by unfold State.commitQuestion; simp

end Sys2Proof.Machine
end

