-- ==== Sys2Proof/Laws/Ops.lean ====
section
/-! SUPPORT. What the shared operations of Machine/Ops.lean can do, said once: presenting a response, the reading loop,
the writing loop. Later proofs cite these and do not unfold the loops. -/

namespace Sys2Proof.Machine

/-! ### Readiness -/

@[simp] theorem Readiness.grant_always (k : Nat) : Readiness.always.grant k = k := rfl
@[simp] theorem Readiness.grant_times (n k : Nat) : (Readiness.times n).grant k = min n k := rfl
@[simp] theorem Readiness.spend_always (k : Nat) : Readiness.always.spend k = .always := rfl
@[simp] theorem Readiness.spend_times (n k : Nat) : (Readiness.times n).spend k = .times (n - k) := rfl

theorem Readiness.grant_le (r : Readiness) (k : Nat) : r.grant k ≤ k := by cases r <;> simp

theorem Readiness.spend_zero (r : Readiness) : r.spend 0 = r := by cases r <;> simp

theorem Readiness.spend_spend (r : Readiness) (m n : Nat) : (r.spend m).spend n = r.spend (m + n) := by
  cases r <;> simp [Nat.sub_sub]

theorem Readiness.grant_one (r : Readiness) : r.grant 1 = 1 ∨ r.grant 1 = 0 := by
  have := r.grant_le 1; omega

/-- Fewer than `k` admitted: the readiness is a count below `k`. -/
theorem Readiness.of_grant_ne {r : Readiness} {k : Nat} (h : r.grant k ≠ k) : ∃ n, r = .times n ∧ n < k := by
  cases r with
  | always => simp at h
  | times n => exact ⟨n, rfl, by simp at h; omega⟩

/-! ### Raising the readiness -/

@[simp] theorem Readiness.plus_always (more : Readiness) : Readiness.always.plus more = .always := rfl
@[simp] theorem Readiness.times_plus_always (m : Nat) : (Readiness.times m).plus .always = .always := rfl
@[simp] theorem Readiness.times_plus_times (m n : Nat) : (Readiness.times m).plus (.times n) = .times (m + n) := rfl

theorem Readiness.zero_plus (more : Readiness) : (Readiness.times 0).plus more = more := by cases more <;> simp

/-- Spending what the readiness grants and raising it commute. -/
theorem Readiness.plus_spend (r more : Readiness) (k n : Nat) (h : n ≤ r.grant k) :
    (r.plus more).spend n = (r.spend n).plus more := by
  cases r with
  | always => rfl
  | times m =>
    cases more with
    | always => rfl
    | times l => simp only [grant_times] at h; simp; omega

theorem Readiness.grant_le_plus (r more : Readiness) (k : Nat) : r.grant k ≤ (r.plus more).grant k := by
  cases r with
  | always => simp
  | times m => cases more <;> simp

/-- Where the readiness falls short, what it grants when raised is what it granted and then what the rise grants. -/
theorem Readiness.grant_plus (r more : Readiness) (k : Nat) (h : r.grant k < k) :
    (r.plus more).grant k = r.grant k + more.grant (k - r.grant k) ∧ r.spend (r.grant k) = .times 0 := by
  cases r with
  | always => simp at h
  | times m => cases more <;> simp at h ⊢ <;> omega

/-! ### Presenting a response -/

/-- The host is ready: the response is taken and the block is idle. -/
theorem State.deliver_ready {s : State} (h : HostReady s) (r : RspWord) :
    s.deliver r = { s with rsp := s.rsp ++ [r], rspReady := s.rspReady.spend 1, activity := .idle } := by
  unfold State.deliver; exact if_pos h

/-- The host is not ready: the response stays presented. -/
theorem State.deliver_waiting {s : State} (h : ¬ HostReady s) (r : RspWord) :
    s.deliver r = { s with activity := .responding r } := by
  unfold State.deliver; exact if_neg h

/-- A response does not touch the transport's readiness. -/
theorem State.deliver_takeMore (s : State) (more : Readiness) (r : RspWord) :
    (s.takeMore more).deliver r = (s.deliver r).takeMore more := by
  by_cases h : HostReady s
  · rw [State.deliver_ready h, State.deliver_ready (by exact h)]; rfl
  · rw [State.deliver_waiting h, State.deliver_waiting (by exact h)]; rfl

/-- What was in execution is over. -/
theorem State.deliver_activity (s : State) (act : Activity) (r : RspWord) :
    State.deliver { s with activity := act } r = s.deliver r := rfl

theorem State.deliver_answered {s : State} (h : HostReady s) (st : Status) (d : Half) :
    Answered s (s.deliver (rspWord st d)) st d := by
  rw [State.deliver_ready h]; exact ⟨rfl, rfl, rfl⟩

/-- An answered command, from a state that differs from `s` in neither the responses nor the host's readiness. -/
theorem State.respond_answered {s s' : State} (h : HostReady s) (st : Status) (d : Half)
    (hr : s'.rsp = s.rsp) (hq : s'.rspReady = s.rspReady) : Answered s (s'.respond st d) st d := by
  have h' : HostReady s' := by unfold HostReady; rw [hq]; exact h
  rw [State.respond, State.deliver_ready h']
  exact ⟨by simp [hr], by simp [hq], rfl⟩

theorem State.deliver_rsp (s : State) (r : RspWord) :
    (s.deliver r).rsp = s.rsp ++ [r] ∧ (s.deliver r).activity = .idle ∨
      (s.deliver r).rsp = s.rsp ∧ (s.deliver r).activity = .responding r := by
  by_cases h : HostReady s
  · rw [State.deliver_ready h]; exact .inl ⟨rfl, rfl⟩
  · rw [State.deliver_waiting h]; exact .inr ⟨rfl, rfl⟩

/-! ### The reading loop -/

@[simp] theorem eosOf_nil : eosOf [] = false := rfl
@[simp] theorem eosOf_cons (x : TaggedByte) (l : List TaggedByte) : eosOf (x :: l) = (x.last || eosOf l) := rfl
@[simp] theorem eosOf_append (l m : List TaggedByte) : eosOf (l ++ m) = (eosOf l || eosOf m) := by simp [eosOf]
@[simp] theorem untagged_nil : untagged [] = [] := rfl
@[simp] theorem untagged_cons (x : TaggedByte) (l : List TaggedByte) : untagged (x :: l) = x.byte :: untagged l := rfl
@[simp] theorem untagged_append (l m : List TaggedByte) : untagged (l ++ m) = untagged l ++ untagged m := by
  simp [untagged]
@[simp] theorem untagged_length (l : List TaggedByte) : (untagged l).length = l.length := by simp [untagged]

theorem consume_of_ends {α ε : Type} (r : Reader α ε) (input : List TaggedByte) (eos : Bool) (a : α) (e : ε)
    (h : r.ends a eos = some e) : consume r input eos a = .ended e input eos := by
  cases input <;> simp [consume, h]

theorem consume_nil_of_wants {α ε : Type} (r : Reader α ε) (eos : Bool) (a : α)
    (h : r.ends a eos = none) : consume r [] eos a = .holding a eos := by simp [consume, h]

theorem consume_cons_of_wants {α ε : Type} (r : Reader α ε) (x : TaggedByte) (rest : List TaggedByte) (eos : Bool)
    (a : α) (h : r.ends a eos = none) :
    consume r (x :: rest) eos a = consume r rest (eosAfter eos x) (r.take a x.byte) := by simp [consume, h]

/-- While the command wants a byte after every proper beginning of `l`, reading `l` is taking its bytes one by one. -/
theorem consume_run {α ε : Type} (r : Reader α ε) (l rest : List TaggedByte) (eos : Bool) (a : α)
    (h : ∀ m x m', l = m ++ x :: m' → r.ends ((untagged m).foldl r.take a) (eos || eosOf m) = none) :
    consume r (l ++ rest) eos a = consume r rest (eos || eosOf l) ((untagged l).foldl r.take a) := by
  induction l generalizing eos a with
  | nil => simp
  | cons x l ih =>
    have h0 := h [] x l rfl
    simp only [untagged_nil, List.foldl_nil, eosOf_nil, Bool.or_false] at h0
    rw [List.cons_append, consume_cons_of_wants r x _ eos a h0, ih]
    · simp [eosAfter, Bool.or_assoc]
    · intro m y m' hm
      have := h (x :: m) y m' (by rw [hm]; rfl)
      simpa [eosAfter, Bool.or_assoc] using this

/-- What a run of reads can do: it takes a beginning `l` of IN, wanting a byte before each of them, and then either ends
or, `l` being all of IN, holds. -/
theorem consume_cases {α ε : Type} (r : Reader α ε) (input : List TaggedByte) (eos : Bool) (a : α) :
    ∃ l rest, input = l ++ rest ∧
      (∀ m x m', l = m ++ x :: m' → r.ends ((untagged m).foldl r.take a) (eos || eosOf m) = none) ∧
      ((∃ e, r.ends ((untagged l).foldl r.take a) (eos || eosOf l) = some e ∧
          consume r input eos a = .ended e rest (eos || eosOf l)) ∨
        (rest = [] ∧ r.ends ((untagged l).foldl r.take a) (eos || eosOf l) = none ∧
          consume r input eos a = .holding ((untagged l).foldl r.take a) (eos || eosOf l))) := by
  induction input generalizing eos a with
  | nil =>
    refine ⟨[], [], rfl, by simp, ?_⟩
    cases h : r.ends a eos with
    | some e => exact .inl ⟨e, by simpa using h, by simpa using consume_of_ends r [] eos a e h⟩
    | none => exact .inr ⟨rfl, by simpa using h, by simpa using consume_nil_of_wants r eos a h⟩
  | cons x input ih =>
    cases h : r.ends a eos with
    | some e => exact ⟨[], x :: input, rfl, by simp, .inl ⟨e, by simpa using h, by
        simpa using consume_of_ends r (x :: input) eos a e h⟩⟩
    | none =>
      obtain ⟨l, rest, hl, hw, hc⟩ := ih (eosAfter eos x) (r.take a x.byte)
      refine ⟨x :: l, rest, by rw [hl]; rfl, ?_, ?_⟩
      · intro m y m' hm
        cases m with
        | nil => simpa using h
        | cons z m =>
          obtain ⟨rfl, rfl⟩ : x = z ∧ l = m ++ y :: m' := by simpa using hm
          simpa [eosAfter, Bool.or_assoc] using hw m y m' rfl
      · rw [consume_cons_of_wants r x input eos a h]
        simpa [eosAfter, Bool.or_assoc] using hc

/-- Bytes that arrive later: a command that has ended leaves them; one that holds goes on with them. -/
theorem consume_append {α ε : Type} (r : Reader α ε) (input later : List TaggedByte) (eos : Bool) (a : α) :
    consume r (input ++ later) eos a =
      match consume r input eos a with
      | .ended e rest eos' => .ended e (rest ++ later) eos'
      | .holding a' eos' => consume r later eos' a' := by
  obtain ⟨l, rest, rfl, hw, ⟨e, he, hc⟩ | ⟨rfl, hn, hc⟩⟩ := consume_cases r input eos a
  · rw [hc, List.append_assoc, consume_run r l _ eos a hw, consume_of_ends r _ _ _ e he]
  · rw [hc, List.append_nil, consume_run r l _ eos a hw]

/-- A proper beginning of a piece with no early `last` holds no `last`. -/
theorem NoEarlyLast.eosOf_prefix {l m m' : List TaggedByte} {x : TaggedByte} (h : NoEarlyLast l)
    (e : l = m ++ x :: m') : eosOf m = false := by
  rw [eosOf, List.any_eq_false]
  intro y hy
  have : y ∈ l.dropLast := by
    rw [e, List.dropLast_append_of_ne_nil (by simp)]
    exact List.mem_append_left _ hy
  simp [h y this]

/-- While an available piece is read, no end of the message is met before its last byte. -/
theorem Available.noEos {s : State} {l rest m m' : List TaggedByte} {x : TaggedByte} (h : Available s l rest)
    (e : l = m ++ x :: m') : (s.inEos || eosOf m) = false := by
  obtain ⟨-, h2, h3 | rfl⟩ := h
  · rw [h3, h2.eosOf_prefix e]; rfl
  · simp at e

/-- The rest of the message is available. -/
theorem RestOfMessage.available {s : State} {l rest : List TaggedByte} (h : RestOfMessage s l rest) :
    Available s l rest := by
  obtain ⟨h1, h2, ⟨-, h3⟩ | ⟨h3, -⟩⟩ := h
  · exact ⟨h1, h2, .inr h3⟩
  · exact ⟨h1, h2, .inl h3⟩

/-- Once the rest of the message has been read IN_EOS is 1. -/
theorem RestOfMessage.eos {s : State} {l rest : List TaggedByte} (h : RestOfMessage s l rest) :
    (s.inEos || eosOf l) = true := by
  obtain ⟨-, -, ⟨h3, -⟩ | ⟨-, h3⟩⟩ := h <;> simp [h3]

/-- Reading an available piece whose bytes the command wants, one by one. -/
theorem Available.consume {α ε : Type} {s : State} {l rest : List TaggedByte} (h : Available s l rest)
    (r : Reader α ε) (a : α)
    (hw : ∀ m x m', l = m ++ x :: m' → r.ends ((untagged m).foldl r.take a) false = none) :
    Machine.consume r s.input s.inEos a =
      Machine.consume r rest (s.inEos || eosOf l) ((untagged l).foldl r.take a) := by
  rw [h.1, consume_run]
  intro m x m' e
  rw [h.noEos e]
  exact hw m x m' e

/-! ### The writing loop -/

theorem produce_length_le {α : Type} (next : α → Option (TaggedByte × α)) (n : Nat) (a : α) :
    (produce next n a).1.length ≤ n := by
  induction n generalizing a with
  | zero => simp [produce]
  | succ n ih =>
    simp only [produce]
    split
    · simp
    · rename_i x a' _
      have := ih a'
      simp only [List.length_cons]
      omega

/-- Fewer bytes than asked for: nothing is left to write. -/
theorem produce_done {α : Type} (next : α → Option (TaggedByte × α)) (n : Nat) (a : α)
    (h : (produce next n a).1.length < n) : next (produce next n a).2 = none := by
  induction n generalizing a with
  | zero => simp at h
  | succ n ih =>
    cases hn : next a with
    | none => simp [produce, hn]
    | some p =>
      obtain ⟨x, a'⟩ := p
      simp only [produce, hn, List.length_cons] at h ⊢
      exact ih a' (by omega)

/-- Writing `m` bytes and then `n` is writing `m + n`. -/
theorem produce_add {α : Type} (next : α → Option (TaggedByte × α)) (m n : Nat) (a : α) :
    produce next (m + n) a =
      ((produce next m a).1 ++ (produce next n (produce next m a).2).1,
        (produce next n (produce next m a).2).2) := by
  induction m generalizing a with
  | zero => simp [produce]
  | succ m ih =>
    rw [show m + 1 + n = (m + n) + 1 by omega]
    cases hn : next a with
    | none =>
      have hz : ∀ k, produce next k a = ([], a) := by intro k; cases k <;> simp [produce, hn]
      simp [hz]
    | some p => obtain ⟨x, a'⟩ := p; simp [produce, hn, ih]

/-- Where nothing is left to write, nothing is written. -/
theorem produce_none {α : Type} (next : α → Option (TaggedByte × α)) (n : Nat) (a : α) (h : next a = none) :
    produce next n a = ([], a) := by
  cases n <;> simp [produce, h]

/-! ### Writing in pieces (20_memory.md R66, R67) -/

/-- A bound that is enough from the start is enough from every position on the way. -/
theorem produce_enough {α : Type} (next : α → Option (TaggedByte × α)) (bound m : Nat) (a : α)
    (h : next (produce next bound a).2 = none) (hm : m ≤ bound) :
    next (produce next (bound - m) (produce next m a).2).2 = none := by
  rw [← Nat.add_sub_cancel' hm, produce_add] at h
  simpa using h

/-- Past a bound that is enough, nothing more is written. -/
theorem produce_past {α : Type} (next : α → Option (TaggedByte × α)) (bound k : Nat) (a : α)
    (h : next (produce next bound a).2 = none) (hk : bound ≤ k) : produce next k a = produce next bound a := by
  rw [← Nat.add_sub_cancel' hk, produce_add, produce_none next _ _ h]
  simp

/-- Where `b` is enough, a larger bound on what the transport takes makes no difference. -/
theorem produce_grant {α : Type} (next : α → Option (TaggedByte × α)) (more : Readiness) (b bound : Nat) (a : α)
    (h : next (produce next b a).2 = none) (hb : b ≤ bound) :
    produce next (more.grant bound) a = produce next (more.grant b) a := by
  cases more with
  | always => exact produce_past next b bound a h hb
  | times n =>
    simp only [Readiness.grant_times]
    by_cases hn : n ≤ b
    · rw [Nat.min_eq_left hn, Nat.min_eq_left (by omega)]
    · rw [Nat.min_eq_right (by omega : b ≤ n)]
      exact produce_past next b _ a h (by omega)

/-- Where something is left to write, as many bytes were written as asked for. -/
theorem produce_full {α : Type} (next : α → Option (TaggedByte × α)) (n : Nat) (a : α)
    (h : (next (produce next n a).2).isSome = true) : (produce next n a).1.length = n := by
  have h1 := produce_length_le next n a
  have h2 := produce_done next n a
  by_contra hne
  rw [h2 (by omega)] at h
  cases h

/-- A writing command that ends is not touched by more readiness. -/
theorem State.writeFrom_ended {α : Type} (s : State) (next : α → Option (TaggedByte × α)) (bound : Nat)
    (held : α → Activity) (finish : State → α → State) (a : α) (more : Readiness)
    (hm : ∀ s' a', finish (State.takeMore s' more) a' = (finish s' a').takeMore more)
    (h : next (produce next (s.outReady.grant bound) a).2 = none) :
    (s.takeMore more).writeFrom next bound held finish a = (s.writeFrom next bound held finish a).takeMore more := by
  have e := produce_past next _ _ a h (Readiness.grant_le_plus s.outReady more bound)
  unfold State.writeFrom
  simp only [State.takeMore_outReady, e, h, State.takeMore_output]
  rw [← hm, Readiness.plus_spend _ _ bound _ (produce_length_le _ _ _)]
  rfl

/-- A writing command that holds has used up the readiness; going on with `more` gives what it gives with all of the
readiness at once. -/
theorem State.writeFrom_resumed {α : Type} (s : State) (next : α → Option (TaggedByte × α)) (bound : Nat)
    (held : α → Activity) (finish : State → α → State) (a : α) (more : Readiness)
    (hb : next (produce next bound a).2 = none)
    (ha : ∀ s' act a', finish { s' with activity := act } a' = finish s' a')
    (h : (next (produce next (s.outReady.grant bound) a).2).isSome = true) :
    s.writeFrom next bound held finish a =
      { s with
        output := s.output ++ (produce next (s.outReady.grant bound) a).1
        outReady := .times 0
        activity := held (produce next (s.outReady.grant bound) a).2 } ∧
    (s.takeMore more).writeFrom next bound held finish a =
      ((s.writeFrom next bound held finish a).takeMore more).writeFrom next bound held finish
        (produce next (s.outReady.grant bound) a).2 := by
  have hlt : s.outReady.grant bound < bound := by
    rcases Nat.lt_or_ge (s.outReady.grant bound) bound with hlt | hge
    · exact hlt
    · rw [Nat.le_antisymm (Readiness.grant_le _ _) hge, hb] at h; cases h
  obtain ⟨hg, hz⟩ := Readiness.grant_plus s.outReady more bound hlt
  have hlen := produce_full next _ a h
  have e1 : s.writeFrom next bound held finish a =
      { s with
        output := s.output ++ (produce next (s.outReady.grant bound) a).1
        outReady := .times 0
        activity := held (produce next (s.outReady.grant bound) a).2 } := by
    obtain ⟨p, hp⟩ := Option.isSome_iff_exists.1 h
    unfold State.writeFrom
    simp only [hp, hlen, hz]
  refine ⟨e1, ?_⟩
  rw [e1]
  have e2 := produce_grant next more _ bound _ (produce_enough next bound _ a hb (Nat.le_of_lt hlt)) (Nat.sub_le _ _)
  have hsp : ∀ k, (s.outReady.plus more).spend (s.outReady.grant bound + k) = more.spend k := by
    intro k
    rw [← Readiness.spend_spend, Readiness.plus_spend _ _ bound _ (Nat.le_refl _), hz, Readiness.zero_plus]
  unfold State.writeFrom
  simp only [State.takeMore_outReady, State.takeMore_output, hg, produce_add, Readiness.zero_plus, e2,
    List.length_append, hlen, hsp, List.append_assoc]
  split
  · rw [← ha _ (held (produce next (s.outReady.grant bound) a).2)]; rfl
  · rfl

/-! ### The two loops as case distinctions: what holds of both the end and the hold -/

/-- What holds of the command's end and of its hold holds of the state after a run of reads. -/
theorem State.afterReads_of {α ε : Type} (P : State → Prop) (s : State) (held : α → Activity)
    (finish : State → ε → State) (c : Consumed α ε)
    (h1 : ∀ (e : ε) (rest : List TaggedByte) (eos : Bool), c = .ended e rest eos →
      P (finish { s with input := rest, inEos := eos } e))
    (h2 : ∀ (a : α) (eos : Bool), c = .holding a eos →
      P { s with input := [], inEos := eos, activity := held a }) :
    P (s.afterReads held finish c) := by
  cases c with
  | ended e rest eos => exact h1 _ _ _ rfl
  | holding a eos => exact h2 _ _ rfl

/-- What holds of the command's end and of its hold holds of the state after a run of writes. -/
theorem State.writeFrom_of {α : Type} (P : State → Prop) (s : State) (next : α → Option (TaggedByte × α))
    (bound : Nat) (held : α → Activity) (finish : State → α → State) (a : α)
    (h1 : ∀ (w : List TaggedByte) (a' : α), (w, a') = produce next (s.outReady.grant bound) a → next a' = none →
      P (finish { s with output := s.output ++ w, outReady := s.outReady.spend w.length } a'))
    (h2 : ∀ (w : List TaggedByte) (a' : α), (w, a') = produce next (s.outReady.grant bound) a →
      (next a').isSome = true →
      P { s with output := s.output ++ w, outReady := s.outReady.spend w.length, activity := held a' }) :
    P (s.writeFrom next bound held finish a) := by
  unfold State.writeFrom
  simp only
  split
  · rename_i h
    exact h1 _ _ rfl h
  · rename_i p h
    exact h2 _ _ rfl (by rw [h]; rfl)

end Sys2Proof.Machine
end

