-- ==== Sys2Proof/Laws/Header.lean ====
section
/-! SUPPORT. What the shared operations of the header families can do, said once: slot validity, the getter and the
setter of 41_header_fields.md, the steps of HDR_LOAD and HDR_STORE. -/

namespace Sys2Proof.Machine

/-! ### Answering and nothing else -/

theorem respond_onlyAnswers (s : State) (st : Status) (d : Half) : OnlyAnswers s (s.respond st d) := by
  simp [OnlyAnswers, SameHeaderSlot, SameQuestionSlot, SameInput, SameOutput, SameRest]

theorem withHeader_of_valid {s : State} (h : s.hv = true) (f : State → State) : s.withHeader f = f s := by
  simp [State.withHeader, h]

theorem withHeader_of_invalid {s : State} (h : s.hv = false) (f : State → State) : s.withHeader f = s.fail .noObject := by
  simp [State.withHeader, h]

theorem withQuestion_of_valid {s : State} (h : s.qv = true) (f : State → State) : s.withQuestion f = f s := by
  simp [State.withQuestion, h]

theorem withQuestion_of_invalid {s : State} (h : s.qv = false) (f : State → State) :
    s.withQuestion f = s.fail .noObject := by
  simp [State.withQuestion, h]

/-! ### Getters and setters -/

/-- A getter on a valid header answers its view. -/
theorem headerGetter_ready {s : State} (hv : s.hv = true) (hr : HostReady s) (view : Header → Half) :
    ∃ t, headerGetter view s = .next t ∧ Answered s t .ok (view s.hdr) ∧ OnlyAnswers s t :=
  ⟨s.done (view s.hdr), by simp [headerGetter, withHeader_of_valid hv], s.respond_answered hr _ _ rfl rfl,
    respond_onlyAnswers s _ _⟩

/-- A setter on a valid header writes HDR and answers 0. -/
theorem headerSetter_ready {s : State} (hv : s.hv = true) (hr : HostReady s) (write : Header → Header) :
    ∃ t, headerSetter write s = .next t ∧ Answered s t .ok 0 ∧ t.hdr = write s.hdr ∧ OnlyWritesHeader s t :=
  ⟨State.done { s with hdr := write s.hdr } 0, by simp [headerSetter, withHeader_of_valid hv],
    State.respond_answered hr _ _ rfl rfl, by simp,
    by simp [OnlyWritesHeader, SameQuestionSlot, SameInput, SameOutput, SameRest]⟩

/-- The getters of 41_header_fields.md are the getter of their view. -/
theorem exec_of_headerRead {i : Instr} {view : Header → Half} (h : headerRead i = some view) (s : State) :
    exec i s = headerGetter view s := by
  cases i <;> simp only [headerRead] at h <;> first
    | (cases h; done)
    | (cases h; rfl)
    | (split at h
       · rename_i hl; cases h; simp only [exec, execGetBit, hl, if_true]
       · cases h)

/-- The setters of 41_header_fields.md are the setter of what they write. -/
theorem exec_of_headerWrite {i : Instr} {write : Header → Header} (h : headerWrite i = some write) (s : State) :
    exec i s = headerSetter write s := by
  cases i <;> simp only [headerWrite] at h <;> first
    | (cases h; done)
    | (cases h; rfl)
    | (split at h
       · rename_i hl; cases h; simp only [exec, execSetBit, hl, if_true]
       · cases h)

/-- What a getter answers on a valid header is its view, and only that. -/
theorem reads_iff {g : Instr} {view : Header → Half} (h : headerRead g = some view) {s : State} (hv : s.hv = true)
    (hr : HostReady s) (d : Half) : Reads g s d ↔ d = view s.hdr := by
  obtain ⟨t, ht, ha, -⟩ := headerGetter_ready hv hr view
  constructor
  · rintro ⟨t', ht', ha'⟩
    rw [exec_of_headerRead h, ht] at ht'
    cases ht'
    have := ha.1.symm.trans ha'.1
    rw [List.append_cancel_left_eq, List.cons.injEq] at this
    exact (rspWord_inj this.1).2.symm
  · rintro rfl
    exact ⟨t, (exec_of_headerRead h s).trans ht, ha⟩

/-- `Set16` writes its two bytes. -/
theorem hdrByte_set16 (h : Header) (o k : Nat) (v : Half) (hk : k < 12) :
    hdrByte (set16 h o v) k = if k = o then hi8 v else if k = o + 1 then lo8 v else hdrByte h k := by
  simp only [set16]
  rw [hdrByte_setHdrByte _ _ _ _ hk, hdrByte_setHdrByte _ _ _ _ hk]
  by_cases h1 : k = o
  · subst h1; simp
  · simp [h1]

/-- SET_OPCODE's byte. -/
theorem hdrByte_setOpcodeField (h : Header) (sym : OpcodeSym) (k : Nat) (hk : k < 12) :
    hdrByte (setOpcodeField h sym) k =
      if k = 2 then (hdrByte h 2 &&& 0x87) ||| (lo8 (opcodeSymField sym) <<< 3) else hdrByte h k := by
  rw [setOpcodeField, hdrByte_setHdrByte _ _ _ _ hk]

/-- SET_RCODE's byte. -/
theorem hdrByte_setRcodeField (h : Header) (sym : RcodeSym) (k : Nat) (hk : k < 12) :
    hdrByte (setRcodeField h sym) k =
      if k = 3 then (hdrByte h 3 &&& 0xF0) ||| lo8 (rcodeSymField sym) else hdrByte h k := by
  rw [setRcodeField, hdrByte_setHdrByte _ _ _ _ hk]

/-! ### HDR_LOAD's steps (40_header_lifecycle.md R124) -/

@[simp] theorem hdrLoad_foldl (l : List Byte) (staged : List Byte) :
    l.foldl hdrLoadReader.take staged = staged ++ l := by
  induction l generalizing staged with
  | nil => simp
  | cons b l ih =>
    rw [List.foldl_cons, ih]
    exact List.append_assoc staged [b] l

theorem hdrLoad_ends_full (staged : List Byte) (eos : Bool) (h : staged.length = 12) :
    hdrLoadReader.ends staged eos = some (some (headerOfBytes staged)) := by simp [hdrLoadReader, h]

theorem hdrLoad_ends_truncated (staged : List Byte) (h : staged.length ≠ 12) :
    hdrLoadReader.ends staged true = some none := by simp [hdrLoadReader, h]

theorem hdrLoad_wants (staged : List Byte) (h : staged.length ≠ 12) :
    hdrLoadReader.ends staged false = none := by simp [hdrLoadReader, h]

/-! ### HDR_STORE's steps (R125) -/

theorem tagLast_length (l : List Byte) : (tagLast l).length = l.length := by
  induction l with
  | nil => rfl
  | cons b l ih => cases l with
    | nil => rfl
    | cons c l => simp only [tagLast, List.length_cons] at ih ⊢; omega

theorem tagLast_getElem? (l : List Byte) (k : Nat) (h : k < l.length) :
    (tagLast l)[k]? = some { byte := l[k], last := decide (k = l.length - 1) } := by
  induction l generalizing k with
  | nil => simp at h
  | cons b l ih => cases l with
    | nil =>
      obtain rfl : k = 0 := by simpa using h
      rfl
    | cons c l =>
      cases k with
      | zero => simp [tagLast]
      | succ k =>
        simp only [tagLast, List.getElem?_cons_succ, List.getElem_cons_succ]
        rw [ih k (by simpa using h)]
        simp

theorem untagged_tagLast (l : List Byte) : untagged (tagLast l) = l := by
  induction l with
  | nil => rfl
  | cons b l ih => cases l with
    | nil => rfl
    | cons c l => simp only [tagLast, untagged_cons, ih]

/-- A counting writer: `n` bytes from position `k` of a list. -/
theorem produce_counting (next : Nat → Option (TaggedByte × Nat)) (l : List TaggedByte)
    (h : ∀ k, next k = (l[k]?).map fun x => (x, k + 1)) (n k : Nat) (hk : k ≤ l.length) :
    produce next n k = ((l.drop k).take n, min (k + n) l.length) := by
  induction n generalizing k with
  | zero => simp [produce, hk]
  | succ n ih =>
    by_cases hl : k < l.length
    · have e : next k = some (l[k], k + 1) := by rw [h]; simp [hl]
      simp only [produce, e]
      rw [ih (k + 1) hl, List.drop_eq_getElem_cons hl]
      simp only [List.take_succ_cons, Prod.mk.injEq, true_and]
      omega
    · have e : next k = none := by rw [h]; simp; omega
      rw [produce_none _ _ _ e]
      have : l.drop k = [] := by simp; omega
      simp only [this, List.take_nil, Prod.mk.injEq, true_and]
      omega

theorem hdrStoreNext_eq (h : Header) (k : Nat) :
    hdrStoreNext h k = ((tagLast h.toList)[k]?).map fun x => (x, k + 1) := by
  unfold hdrStoreNext
  split
  · rename_i hk
    rw [tagLast_getElem? _ _ (by simpa using hk), hdrByte_eq _ _ hk]
    simp
  · rename_i hk
    have : (tagLast h.toList).length ≤ k := by rw [tagLast_length]; simp; omega
    simp [List.getElem?_eq_none this]

end Sys2Proof.Machine
end

