-- ==== Sys2Proof/Laws/Pseudocode.lean ====
section
/-! SUPPORT. What the loops of Machine/Pseudocode.lean can do, said once: `ReadIn` and `WriteOut` of 20_memory.md R62,
R66, and the draining loop of 43_stream_status.md R231. -/

namespace Sys2Proof.Machine

/-- What `ReadIn(n)` can do: it takes a beginning `l` of IN, meeting no end of the message before the last byte of `l`,
and it has the `n` bytes, or the message has ended first, or it waits. -/
theorem readIn_cases (n : Nat) (input : List TaggedByte) (eos : Bool) :
    ∃ l rest, input = l ++ rest ∧
      (∀ m x m', l = m ++ x :: m' → (eos || eosOf m) = false) ∧
      ((l.length = n ∧ readIn n input eos = .bytes (untagged l) rest (eos || eosOf l)) ∨
        (l.length < n ∧ (eos || eosOf l) = true ∧ readIn n input eos = .underrun rest) ∨
        (l.length < n ∧ rest = [] ∧ (eos || eosOf l) = false ∧ readIn n input eos = .hold)) := by
  induction n generalizing input eos with
  | zero => exact ⟨[], input, rfl, by simp, .inl ⟨rfl, by simp [readIn]⟩⟩
  | succ n ih =>
    cases eos with
    | true => exact ⟨[], input, rfl, by simp, .inr (.inl ⟨by simp, rfl, by cases input <;> rfl⟩)⟩
    | false =>
      cases input with
      | nil => exact ⟨[], [], rfl, by simp, .inr (.inr ⟨by simp, rfl, rfl, rfl⟩)⟩
      | cons x input =>
        obtain ⟨l, rest, hl, hw, h⟩ := ih input (eosAfter false x)
        refine ⟨x :: l, rest, by rw [hl]; rfl, ?_, ?_⟩
        · intro m y m' hm
          cases m with
          | nil => rfl
          | cons z m =>
            obtain ⟨rfl, rfl⟩ : x = z ∧ l = m ++ y :: m' := by simpa using hm
            simpa [eosAfter] using hw m y m' rfl
        · rcases h with ⟨h1, h2⟩ | ⟨h1, h2, h3⟩ | ⟨h1, h2, h3, h4⟩
          · exact .inl ⟨by simp [h1], by rw [readIn, h2]; simp [ReadIn.push, eosAfter]⟩
          · exact .inr (.inl ⟨by simp [h1], by simpa [eosAfter] using h2, by simp [readIn, h3, ReadIn.push]⟩)
          · exact .inr (.inr ⟨by simp [h1], h2, by simpa [eosAfter] using h3, by simp [readIn, h4, ReadIn.push]⟩)

/-- The draining loop consumes the rest of the message, or waits with all of IN consumed. -/
theorem drain_cases (input : List TaggedByte) (eos : Bool) :
    ∃ l rest, input = l ++ rest ∧
      (∀ m x m', l = m ++ x :: m' → (eos || eosOf m) = false) ∧
      (((eos || eosOf l) = true ∧ drain input eos = some rest) ∨
        (rest = [] ∧ (eos || eosOf l) = false ∧ drain input eos = none)) := by
  induction input generalizing eos with
  | nil =>
    cases eos
    · exact ⟨[], [], rfl, by simp, .inr ⟨rfl, rfl, rfl⟩⟩
    · exact ⟨[], [], rfl, by simp, .inl ⟨rfl, rfl⟩⟩
  | cons x input ih =>
    cases eos with
    | true => exact ⟨[], x :: input, rfl, by simp, .inl ⟨rfl, rfl⟩⟩
    | false =>
      obtain ⟨l, rest, hl, hw, h⟩ := ih (eosAfter false x)
      refine ⟨x :: l, rest, by rw [hl]; rfl, ?_, ?_⟩
      · intro m y m' hm
        cases m with
        | nil => rfl
        | cons z m =>
          obtain ⟨rfl, rfl⟩ : x = z ∧ l = m ++ y :: m' := by simpa using hm
          simpa [eosAfter] using hw m y m' rfl
      · rcases h with ⟨h1, h2⟩ | ⟨h1, h2, h3⟩
        · exact .inl ⟨by simpa [eosAfter] using h1, by simpa [drain] using h2⟩
        · exact .inr ⟨h1, by simpa [eosAfter] using h2, by simpa [drain] using h3⟩

/-- `WriteOut` of bytes the transport is ready for. -/
theorem writeOut_ready {s : State} {l : List Byte} (h : TransportReady s l.length) (k : State → State) :
    writeOut s l k =
      some (k { s with output := s.output ++ tagLast l, outReady := s.outReady.spend l.length }) := if_pos h

/-- `WriteOut` of bytes the transport is not ready for. -/
theorem writeOut_waiting {s : State} {l : List Byte} (h : ¬ TransportReady s l.length) (k : State → State) :
    writeOut s l k = none := if_neg h

end Sys2Proof.Machine
end

