-- ==== Sys2Proof/Laws/Question.lean ====
section
/-! SUPPORT. What the steps of Q_BUILD, Q_LOAD, Q_STORE and Q_NAME do, said once: the transient state of each against
the pseudocode of 42_question.md. -/

namespace Sys2Proof.Machine

/-! ### `Split` (R192) -/

/-- `Split` of a longer string goes on from the labels and the current label of the shorter one. -/
theorem splitLoop_append (n : List Byte) (labels : List (List Byte)) (cur : List Byte) :
    ∃ init last, splitLoop n labels cur = init ++ [last] ∧
      ∀ m, splitLoop (n ++ m) labels cur = splitLoop m init last := by
  induction n generalizing labels cur with
  | nil => exact ⟨labels, cur, rfl, fun m => rfl⟩
  | cons x n ih =>
    by_cases h : x = separator
    · obtain ⟨init, last, h1, h2⟩ := ih (labels ++ [cur]) []
      exact ⟨init, last, by simp [splitLoop, h, h1], fun m => by simp [splitLoop, h, h2]⟩
    · obtain ⟨init, last, h1, h2⟩ := ih labels (cur ++ [x])
      exact ⟨init, last, by simp [splitLoop, h, h1], fun m => by simp [splitLoop, h, h2]⟩

@[simp] theorem wireLabels_nil : wireLabels [] = [] := rfl

@[simp] theorem wireLabels_cons (l : List Byte) (labels : List (List Byte)) :
    wireLabels (l :: labels) = BitVec.ofNat 8 l.length :: (l ++ wireLabels labels) := rfl

@[simp] theorem wireLabels_append (a b : List (List Byte)) : wireLabels (a ++ b) = wireLabels a ++ wireLabels b := by
  simp [wireLabels]

/-! ### Q_BUILD's transient state (R195) -/

/-- The transient state of Q_BUILD when the labels `init` are closed and the current label holds `cur`. -/
def QBuild.at (nameLen qtype qclass : Half) (taken : Nat) (init : List (List Byte)) (cur : List Byte) : QBuild where
  nameLen := nameLen.toNat
  qtype := qtype
  qclass := qclass
  taken := taken
  buf := wireLabels init ++ 0 :: cur
  lenAt := (wireLabels init).length
  count := cur.length
  ll := init.any fun l => decide (l.length ≥ 64)
  big := init.any fun l => decide (l.length > 255)

/-- Closing the current label puts its length byte in its place. -/
theorem QBuild.at_closeLabel (nameLen qtype qclass : Half) (taken : Nat) (init : List (List Byte)) (cur : List Byte) :
    (QBuild.at nameLen qtype qclass taken init cur).closeLabel =
      { QBuild.at nameLen qtype qclass taken init cur with
        buf := wireLabels (init ++ [cur])
        ll := (init ++ [cur]).any fun l => decide (l.length ≥ 64)
        big := (init ++ [cur]).any fun l => decide (l.length > 255) } := by
  have h : BitVec.ofNat 8 (cur.length % 256) = BitVec.ofNat 8 cur.length := by
    apply BitVec.eq_of_toNat_eq; simp
  simp [QBuild.at, QBuild.closeLabel, h, longLabelLength]

/-- Where Q_BUILD stands after the name bytes `n`: at the labels `Split(n)` cuts. -/
theorem QBuild.foldl_take (nameLen qtype qclass : Half) (n : List Byte) :
    ∃ init last, split n = init ++ [last] ∧ (∀ m, split (n ++ m) = splitLoop m init last) ∧
      n.foldl QBuild.take (QBuild.start nameLen qtype qclass) =
        QBuild.at nameLen qtype qclass n.length init last := by
  induction n using List.reverseRecOn with
  | nil => exact ⟨[], [], rfl, fun m => rfl, rfl⟩
  | append_singleton n x ih =>
    obtain ⟨init, last, h1, h2, h3⟩ := ih
    rw [List.foldl_append, h3]
    by_cases hx : x = separator
    · refine ⟨init ++ [last], [], by rw [h2]; simp [splitLoop, hx], fun m => ?_, ?_⟩
      · rw [List.append_assoc, h2]; simp [splitLoop, hx]
      · simp only [List.foldl_cons, List.foldl_nil, QBuild.take, hx, if_true, QBuild.at_closeLabel]
        simp [QBuild.openLabel, QBuild.at]
    · refine ⟨init, last ++ [x], by rw [h2]; simp [splitLoop, hx], fun m => ?_, ?_⟩
      · rw [List.append_assoc, h2]; simp [splitLoop, hx]
      · simp only [List.foldl_cons, List.foldl_nil, QBuild.take, hx, if_false]
        simp [QBuild.at]

/-- What Q_BUILD has when the name has been taken. -/
theorem QBuild.finish_foldl (nameLen qtype qclass : Half) (n : List Byte) :
    (n.foldl QBuild.take (QBuild.start nameLen qtype qclass)).finish =
      if (split n).any fun l => decide (l.length > 255) then .error .unencodable
      else .ok (wireLabels (split n) ++ questionTail qtype qclass,
        (split n).any fun l => decide (l.length ≥ 64)) := by
  obtain ⟨init, last, h1, -, h3⟩ := QBuild.foldl_take nameLen qtype qclass n
  rw [h3, h1, QBuild.finish, QBuild.at_closeLabel]
  rfl

@[simp] theorem QBuild.foldl_taken (nameLen qtype qclass : Half) (n : List Byte) :
    (n.foldl QBuild.take (QBuild.start nameLen qtype qclass)).taken = n.length := by
  obtain ⟨init, last, -, -, h⟩ := QBuild.foldl_take nameLen qtype qclass n
  rw [h]; rfl

@[simp] theorem QBuild.foldl_nameLen (nameLen qtype qclass : Half) (n : List Byte) :
    (n.foldl QBuild.take (QBuild.start nameLen qtype qclass)).nameLen = nameLen.toNat := by
  obtain ⟨init, last, -, -, h⟩ := QBuild.foldl_take nameLen qtype qclass n
  rw [h]; rfl

/-- The three tests of Q_BUILD before a byte (R195). -/
theorem qBuild_ends_full (nameLen qtype qclass : Half) (n : List Byte) (eos : Bool) (h : n.length = nameLen.toNat) :
    qBuildReader.ends (n.foldl QBuild.take (QBuild.start nameLen qtype qclass)) eos =
      some (n.foldl QBuild.take (QBuild.start nameLen qtype qclass)).finish := by
  simp [qBuildReader, h]

theorem qBuild_ends_truncated (nameLen qtype qclass : Half) (n : List Byte) (h : n.length ≠ nameLen.toNat) :
    qBuildReader.ends (n.foldl QBuild.take (QBuild.start nameLen qtype qclass)) true =
      some (.error .truncatedInput) := by
  simp [qBuildReader, h]

theorem qBuild_wants (nameLen qtype qclass : Half) (n : List Byte) (h : n.length ≠ nameLen.toNat) :
    qBuildReader.ends (n.foldl QBuild.take (QBuild.start nameLen qtype qclass)) false = none := by
  simp [qBuildReader, h]

/-! ### Q_LOAD's parser (R198) against the pseudocode (R196) -/

/-- How a run of the parser ends: the question or the failure, with what is left of IN and with IN_EOS; `none` in a
hold. -/
def Consumed.fate {α ε : Type} (c : Consumed α ε) : Option (ε × List TaggedByte × Bool) :=
  match c with
  | .ended e rest eos => some (e, rest, eos)
  | .holding _ _ => none

/-- How the pseudocode ends when it goes on with `k` after what it took. -/
def Took.fate {α ε : Type} (t : Took α)
    (k : α → List Byte → List TaggedByte → Bool → Option (Except Status ε × List TaggedByte × Bool)) :
    Option (Except Status ε × List TaggedByte × Bool) :=
  match t with
  | .got a buf rest eos => k a buf rest eos
  | .fail st rest eos => some (.error st, rest, eos)
  | .hold => none

theorem Took.fate_andThen {α β ε : Type} (t : Took α) (f : α → List Byte → List TaggedByte → Bool → Took β)
    (k : β → List Byte → List TaggedByte → Bool → Option (Except Status ε × List TaggedByte × Bool)) :
    (t.andThen f).fate k = t.fate fun a buf rest eos => (f a buf rest eos).fate k := by
  cases t <;> rfl

/-- One byte: the parser's three tests are those of `Take()`. -/
theorem qLoad_take (qcap : Nat) (p : QParse) (input : List TaggedByte) (eos : Bool) (h : p.finished = false) :
    (consume (qLoadReader qcap) input eos p).fate =
      (takeByte qcap p.buf input eos).fate fun x _ rest eos =>
        (consume (qLoadReader qcap) rest eos (p.take x)).fate := by
  unfold takeByte
  by_cases hc : p.buf.length = qcap
  · rw [if_pos hc, consume_of_ends (qLoadReader qcap) input eos p (.error .capacity) (by simp [qLoadReader, h, hc])]
    rfl
  · rw [if_neg hc]
    cases eos with
    | true =>
      rw [consume_of_ends (qLoadReader qcap) input true p (.error .truncatedInput) (by simp [qLoadReader, h, hc])]
      cases input <;> rfl
    | false =>
      have hw : (qLoadReader qcap).ends p false = none := by simp [qLoadReader, h, hc]
      cases input with
      | nil => rw [consume_nil_of_wants _ _ _ hw]; rfl
      | cons x input => rw [consume_cons_of_wants _ _ _ _ _ hw]; rfl

/-- `Take()` gives the byte it has stored, within the capacity. -/
theorem takeByte_got {qcap : Nat} {buf : List Byte} {input : List TaggedByte} {eos : Bool} {x : Byte}
    {buf' : List Byte} {rest : List TaggedByte} {eos' : Bool}
    (h : takeByte qcap buf input eos = .got x buf' rest eos') : buf' = buf ++ [x] ∧ buf.length ≠ qcap := by
  unfold takeByte at h
  split at h
  · cases h
  · rename_i hc
    cases eos with
    | true => cases input <;> cases h
    | false =>
      cases input with
      | nil => cases h
      | cons y input => cases h; exact ⟨rfl, hc⟩

/-- The byte the parser has taken stands at the end of its buffer. -/
@[simp] theorem QParse.take_buf (p : QParse) (x : Byte) : (p.take x).buf = p.buf ++ [x] := by
  unfold QParse.take
  split
  · split <;> rfl
  · rfl
  · rfl

@[simp] theorem QParse.foldl_buf (l : List Byte) (p : QParse) : (l.foldl QParse.take p).buf = p.buf ++ l := by
  induction l generalizing p with
  | nil => simp
  | cons x l ih => simp [ih]

/-- A label body of `n` bytes. -/
theorem qLoad_body (qcap n : Nat) (hn : 0 < n) (buf : List Byte) (ll : Bool) (input : List TaggedByte) (eos : Bool) :
    (consume (qLoadReader qcap) input eos { phase := .body, rem := n, buf := buf, ll := ll }).fate =
      (takeBytes qcap n buf input eos).fate fun _ buf rest eos =>
        (consume (qLoadReader qcap) rest eos { phase := .len, rem := 0, buf := buf, ll := ll }).fate := by
  induction n generalizing buf input eos with
  | zero => omega
  | succ n ih =>
    rw [qLoad_take _ _ _ _ rfl, takeBytes, Took.fate_andThen]
    cases ht : takeByte qcap buf input eos with
    | got x buf' rest eos' =>
      obtain ⟨rfl, -⟩ := takeByte_got ht
      simp only [Took.fate]
      cases n with
      | zero => rfl
      | succ n => exact ih (by omega) _ _ _
    | fail st rest eos' => rfl
    | hold => rfl

/-- The four tail bytes. -/
theorem qLoad_tail (qcap n : Nat) (buf : List Byte) (ll : Bool) (input : List TaggedByte) (eos : Bool) :
    (consume (qLoadReader qcap) input eos { phase := .tail, rem := n, buf := buf, ll := ll }).fate =
      (takeBytes qcap n buf input eos).fate fun _ buf rest eos => some (.ok (buf, ll), rest, eos) := by
  induction n generalizing buf input eos with
  | zero =>
    rw [consume_of_ends (qLoadReader qcap) input eos _ (.ok (buf, ll)) (by simp [qLoadReader, QParse.finished])]
    rfl
  | succ n ih =>
    rw [qLoad_take _ _ _ _ (by simp [QParse.finished]), takeBytes, Took.fate_andThen]
    cases ht : takeByte qcap buf input eos with
    | got x buf' rest eos' =>
      obtain ⟨rfl, -⟩ := takeByte_got ht
      exact ih _ _ _
    | fail st rest eos' => rfl
    | hold => rfl

theorem takeBytes_got {qcap n : Nat} {buf : List Byte} {input : List TaggedByte} {eos : Bool}
    {buf' : List Byte} {rest : List TaggedByte} {eos' : Bool} (hb : buf.length ≤ qcap)
    (h : takeBytes qcap n buf input eos = .got () buf' rest eos') :
    buf'.length = buf.length + n ∧ buf'.length ≤ qcap := by
  induction n generalizing buf input eos with
  | zero => cases h; exact ⟨rfl, hb⟩
  | succ n ih =>
    rw [takeBytes] at h
    cases ht : takeByte qcap buf input eos with
    | got x b r e =>
      rw [ht] at h
      obtain ⟨rfl, hne⟩ := takeByte_got ht
      have := ih (by simp; omega) h
      simp only [List.length_append, List.length_cons, List.length_nil] at this
      omega
    | fail st r e => rw [ht] at h; cases h
    | hold => rw [ht] at h; cases h

/-- The label loop. -/
theorem qLoad_labels (qcap fuel : Nat) (buf : List Byte) (ll : Bool) (input : List TaggedByte) (eos : Bool)
    (hb : buf.length ≤ qcap) (hf : qcap < fuel + buf.length) :
    (consume (qLoadReader qcap) input eos { phase := .len, rem := 0, buf := buf, ll := ll }).fate =
      (labelLoop qcap fuel ll buf input eos).fate fun ll buf rest eos =>
        (consume (qLoadReader qcap) rest eos { phase := .tail, rem := 4, buf := buf, ll := ll }).fate := by
  induction fuel generalizing buf ll input eos with
  | zero => omega
  | succ fuel ih =>
    rw [qLoad_take _ _ _ _ rfl, labelLoop, Took.fate_andThen]
    cases ht : takeByte qcap buf input eos with
    | got x buf' rest eos' =>
      obtain ⟨rfl, hne⟩ := takeByte_got ht
      simp only [Took.fate, QParse.take]
      by_cases hx : x = 0
      · rw [if_pos hx, if_pos hx]
      · rw [if_neg hx, if_neg hx]
        have hpos : 0 < x.toNat := by
          rcases Nat.eq_zero_or_pos x.toNat with h0 | h0
          · exact absurd (BitVec.eq_of_toNat_eq h0) hx
          · exact h0
        rw [qLoad_body _ _ hpos]
        change _ = Took.fate (Took.andThen _ _) _
        rw [Took.fate_andThen]
        cases htb : takeBytes qcap x.toNat (buf ++ [x]) rest eos' with
        | got u b r e =>
          have := takeBytes_got (by simp; omega) htb
          simp only [List.length_append, List.length_cons, List.length_nil] at this
          simp only [Took.fate]
          rw [ih _ _ _ _ this.2 (by omega)]
          rfl
        | fail st r e => rfl
        | hold => rfl
    | fail st rest eos' => rfl
    | hold => rfl

/-- The whole parse. -/
theorem qLoad_parse (qcap : Nat) (input : List TaggedByte) (eos : Bool) :
    (consume (qLoadReader qcap) input eos QParse.start).fate =
      (parseQuestion qcap input eos).fate fun ll buf rest eos => some (.ok (buf, ll), rest, eos) := by
  rw [QParse.start, qLoad_labels qcap (qcap + 1) [] false input eos (by simp) (by simp), parseQuestion,
    Took.fate_andThen]
  congr 1
  funext ll buf rest eos
  rw [qLoad_tail, Took.fate_andThen]
  rfl

end Sys2Proof.Machine
end

