-- ==== Sys2Proof/Laws/Names.lean ====
section
/-! SUPPORT. The label structure of a question (10_state.md R26, 20_memory.md R52): the walk, the parser's buffer, the
dotted name, and Q_NAME's byte steps, each in terms of the labels. -/

namespace Sys2Proof.Machine

/-! ### The walk -/

theorem wireLabels_length (labels : List (List Byte)) :
    (wireLabels labels).length = labels.length + (labels.map List.length).sum := by
  induction labels with
  | nil => rfl
  | cons l labels ih => simp [ih]; omega

theorem WireLabels.cons {l : List Byte} {labels : List (List Byte)} (h : WireLabels (l :: labels)) :
    (1 ≤ l.length ∧ l.length ≤ 255) ∧ WireLabels labels :=
  ⟨h l (by simp), fun m hm => h m (by simp [hm])⟩

theorem labelLength_toNat {l : List Byte} (h : l.length ≤ 255) : (BitVec.ofNat 8 l.length).toNat = l.length := by
  simp; omega

theorem labelLength_ne_zero {l : List Byte} (h : 1 ≤ l.length ∧ l.length ≤ 255) :
    BitVec.ofNat 8 l.length ≠ 0 := by
  intro e
  have := congrArg BitVec.toNat e
  rw [labelLength_toNat h.2] at this
  have h0 : (0 : Byte).toNat = 0 := rfl
  omega

/-- The walk over whole labels stops at the zero byte after them. -/
theorem walkFrom_wire (labels : List (List Byte)) (h : WireLabels labels) (pre rest : List Byte) (fuel : Nat)
    (hf : labels.length < fuel) :
    walkFrom (pre ++ (wireLabels labels ++ 0 :: rest)) fuel pre.length =
      some (pre.length + (wireLabels labels).length) := by
  induction labels generalizing pre fuel with
  | nil =>
    cases fuel with
    | zero => simp at hf
    | succ fuel => simp [walkFrom]
  | cons l labels ih =>
    cases fuel with
    | zero => simp at hf
    | succ fuel =>
      obtain ⟨hl, hls⟩ := h.cons
      have hget : (pre ++ (wireLabels (l :: labels) ++ 0 :: rest))[pre.length]? = some (BitVec.ofNat 8 l.length) := by
        simp
      simp only [walkFrom, hget, labelLength_ne_zero hl, if_false, labelLength_toNat hl.2]
      have e : pre ++ (wireLabels (l :: labels) ++ 0 :: rest) =
          (pre ++ BitVec.ofNat 8 l.length :: l) ++ (wireLabels labels ++ 0 :: rest) := by simp
      rw [e, show pre.length + 1 + l.length = (pre ++ BitVec.ofNat 8 l.length :: l).length by simp; omega,
        ih hls _ _ (by simpa using hf)]
      simp; omega

/-- The walk from offset 0 over whole labels. -/
theorem walkEnd_wire (labels : List (List Byte)) (h : WireLabels labels) (rest : List Byte) :
    walkEnd (wireLabels labels ++ 0 :: rest) = some (wireLabels labels).length := by
  have := walkFrom_wire labels h [] rest ((wireLabels labels ++ 0 :: rest).length + 1) (by
    simp [wireLabels_length]; omega)
  simpa [walkEnd] using this

/-- Where the walk stops, whole labels and a zero byte lie behind it. -/
theorem walkFrom_some (buf : List Byte) (fuel i t : Nat) (h : walkFrom buf fuel i = some t) :
    ∃ labels rest, WireLabels labels ∧ buf.drop i = wireLabels labels ++ 0 :: rest ∧
      t = i + (wireLabels labels).length := by
  induction fuel generalizing i with
  | zero => simp [walkFrom] at h
  | succ fuel ih =>
    rw [walkFrom] at h
    cases hb : buf[i]? with
    | none => simp [hb] at h
    | some x =>
      simp only [hb] at h
      have hi : i < buf.length := by
        rw [List.getElem?_eq_some_iff] at hb; exact hb.1
      have hx : buf[i] = x := by rw [List.getElem?_eq_getElem hi] at hb; simpa using hb
      split at h
      · rename_i h0
        cases h
        refine ⟨[], buf.drop (t + 1), by simp [WireLabels], ?_, by simp⟩
        rw [List.drop_eq_getElem_cons hi, hx, h0]; rfl
      · rename_i h0
        obtain ⟨labels, rest, h1, h2, h3⟩ := ih _ h
        have hlt : i + 1 + x.toNat < buf.length := by
          have := congrArg List.length h2
          simp at this; omega
        have hpos : 0 < x.toNat := by
          rcases Nat.eq_zero_or_pos x.toNat with e | e
          · exact absurd (BitVec.eq_of_toNat_eq e) h0
          · exact e
        have hlen : ((buf.drop (i + 1)).take x.toNat).length = x.toNat := by simp; omega
        refine ⟨(buf.drop (i + 1)).take x.toNat :: labels, rest, ?_, ?_, ?_⟩
        · intro l hl
          rcases List.mem_cons.1 hl with rfl | hl
          · rw [hlen]; have := x.isLt; omega
          · exact h1 l hl
        · rw [List.drop_eq_getElem_cons hi, hx, wireLabels_cons, hlen]
          have : BitVec.ofNat 8 x.toNat = x := by simp
          rw [this, List.cons_append, List.append_assoc, ← h2]
          refine congrArg (List.cons x) ?_
          rw [← List.drop_drop (i := x.toNat) (j := i + 1), List.take_append_drop]
        · rw [h3, wireLabels_cons, List.length_cons, List.length_append, hlen]; omega

/-- The walk from offset 0, undone. -/
theorem walkEnd_some {buf : List Byte} {t : Nat} (h : walkEnd buf = some t) :
    ∃ labels rest, WireLabels labels ∧ buf = wireLabels labels ++ 0 :: rest ∧ t = (wireLabels labels).length := by
  obtain ⟨labels, rest, h1, h2, h3⟩ := walkFrom_some _ _ _ _ h
  exact ⟨labels, rest, h1, by simpa using h2, by simpa using h3⟩

/-- Only one list of labels, none of them empty, spells a buffer that holds labels, a terminator and a given number of
bytes. -/
theorem wireLabels_unique (ls ms : List (List Byte)) (hl : ∀ l ∈ ls, l.length ≤ 255) (hm : WireLabels ms)
    (x y : List Byte) (hxy : x.length = y.length) (h : wireLabels ls ++ 0 :: x = wireLabels ms ++ 0 :: y) : ls = ms := by
  induction ls generalizing ms with
  | nil =>
    cases ms with
    | nil => rfl
    | cons m ms =>
      simp only [wireLabels_cons, List.cons_append] at h
      exact absurd (List.cons.inj h).1.symm (labelLength_ne_zero hm.cons.1)
  | cons l ls ih =>
    cases ms with
    | nil =>
      have := congrArg List.length h
      simp at this; omega
    | cons m ms =>
      simp only [wireLabels_cons, List.cons_append, List.append_assoc] at h
      obtain ⟨h1, h2⟩ := List.cons.inj h
      have h3 := congrArg BitVec.toNat h1
      rw [labelLength_toNat (hl l (by simp)), labelLength_toNat hm.cons.1.2] at h3
      obtain ⟨rfl, h4⟩ := List.append_inj h2 h3
      rw [ih ms (fun k hk => hl k (by simp [hk])) hm.cons.2 h4]

/-! ### The parser's buffer (R198) -/

/-- What the parser has in its buffer, by phase. -/
def QParse.Shape (p : QParse) : Prop :=
  match p.phase with
  | .len => p.rem = 0 ∧ ∃ labels, WireLabels labels ∧ p.buf = wireLabels labels ∧
      p.ll = labels.any fun l => decide (64 ≤ l.length)
  | .body => ∃ labels x l, WireLabels labels ∧ p.buf = wireLabels labels ++ x :: l ∧ 0 < p.rem ∧
      x.toNat = l.length + p.rem ∧
      p.ll = (labels.any (fun l => decide (64 ≤ l.length)) || decide (64 ≤ x.toNat))
  | .tail => ∃ labels tail, WireLabels labels ∧ p.buf = wireLabels labels ++ 0 :: tail ∧
      (tail.length + p.rem = 4 ∨ (p.rem = 0 ∧ 4 ≤ tail.length)) ∧
      p.ll = labels.any fun l => decide (64 ≤ l.length)

theorem QParse.start_shape : QParse.start.Shape := ⟨rfl, [], by simp [WireLabels], rfl, rfl⟩

theorem QParse.take_shape {p : QParse} (h : p.Shape) (x : Byte) : (p.take x).Shape := by
  obtain ⟨phase, rem, buf, ll⟩ := p
  cases phase with
  | len =>
    obtain ⟨hr, labels, h1, h2, h3⟩ := h
    simp only at hr h2 h3
    subst hr h2 h3
    by_cases hx : x = 0
    · subst hx
      exact ⟨labels, [], h1, by simp [QParse.take], by simp [QParse.take], by simp [QParse.take]⟩
    · have hpos : 0 < x.toNat := by
        rcases Nat.eq_zero_or_pos x.toNat with e | e
        · exact absurd (BitVec.eq_of_toNat_eq e) hx
        · exact e
      simp only [QParse.take, hx, if_false]
      exact ⟨labels, x, [], h1, rfl, hpos, by simp, rfl⟩
  | body =>
    obtain ⟨labels, y, l, h1, h2, h3, h4, h5⟩ := h
    simp only at h2 h3 h4 h5
    subst h2 h5
    simp only [QParse.take]
    by_cases hr : rem - 1 = 0
    · obtain rfl : rem = 1 := by omega
      simp only [hr, if_true]
      have hyl : y.toNat = (l ++ [x]).length := by simp [h4]
      have hy : BitVec.ofNat 8 (l ++ [x]).length = y := by rw [← hyl]; simp
      refine ⟨rfl, labels ++ [l ++ [x]], ?_, ?_, ?_⟩
      · intro m hm
        rcases List.mem_append.1 hm with hm | hm
        · exact h1 m hm
        · obtain rfl : m = l ++ [x] := by simpa using hm
          rw [← hyl]; have := y.isLt; omega
      · rw [wireLabels_append, wireLabels_cons, hy]; simp
      · rw [List.any_append]; simp [hyl]
    · simp only [hr, if_false]
      exact ⟨labels, y, l ++ [x], h1, by simp, by simp only; omega, by
        simp only [List.length_append, List.length_cons, List.length_nil]; omega, rfl⟩
  | tail =>
    obtain ⟨labels, tail, h1, h2, h3, h4⟩ := h
    simp only at h2 h3 h4
    subst h2 h4
    exact ⟨labels, tail ++ [x], h1, by simp [QParse.take], by
      simp only [QParse.take, List.length_append, List.length_cons, List.length_nil]; omega, rfl⟩

theorem QParse.foldl_shape (bytes : List Byte) : (bytes.foldl QParse.take QParse.start).Shape := by
  induction bytes using List.reverseRecOn with
  | nil => exact QParse.start_shape
  | append_singleton l x ih => rw [List.foldl_append]; exact QParse.take_shape ih x

/-- A finished parse holds whole labels, a terminator and at least four bytes. -/
theorem QParse.finished_shape {bytes : List Byte} (h : (bytes.foldl QParse.take QParse.start).finished = true) :
    ∃ labels tail, WireLabels labels ∧ bytes = wireLabels labels ++ 0 :: tail ∧ 4 ≤ tail.length ∧
      (bytes.foldl QParse.take QParse.start).ll = labels.any fun l => decide (64 ≤ l.length) := by
  have hs := QParse.foldl_shape bytes
  have hb := QParse.foldl_buf bytes QParse.start
  simp only [QParse.start, List.nil_append] at hb
  simp only [QParse.finished, Bool.and_eq_true, beq_iff_eq] at h
  unfold QParse.Shape at hs
  rw [h.1] at hs
  obtain ⟨labels, tail, h1, h2, h3, h4⟩ := hs
  rw [h.2] at h3
  refine ⟨labels, tail, h1, ?_, by omega, h4⟩
  rw [← h2]
  exact hb.symm

/-- Taking whole labels leaves the parser at a length position. -/
theorem QParse.foldl_body (l buf : List Byte) (ll : Bool) (n : Nat) (h : l.length < n) :
    l.foldl QParse.take { phase := .body, rem := n, buf := buf, ll := ll } =
      { phase := .body, rem := n - l.length, buf := buf ++ l, ll := ll } := by
  induction l generalizing buf n with
  | nil => simp
  | cons x l ih =>
    simp only [List.length_cons] at h
    simp only [List.foldl_cons, QParse.take, show n - 1 ≠ 0 by omega, if_false]
    rw [ih _ _ (by omega)]
    simp; omega

theorem QParse.foldl_label (l buf : List Byte) (ll : Bool) (h : 1 ≤ l.length ∧ l.length ≤ 255) :
    (BitVec.ofNat 8 l.length :: l).foldl QParse.take { phase := .len, rem := 0, buf := buf, ll := ll } =
      { phase := .len, rem := 0, buf := buf ++ BitVec.ofNat 8 l.length :: l,
        ll := ll || decide (64 ≤ l.length) } := by
  obtain ⟨init, last, rfl⟩ : ∃ init last, l = init ++ [last] := by
    rcases List.eq_nil_or_concat l with rfl | ⟨i, x, rfl⟩
    · simp at h
    · exact ⟨i, x, by simp⟩
  simp only [List.foldl_cons, QParse.take, labelLength_ne_zero h, if_false, labelLength_toNat h.2]
  rw [List.foldl_append, QParse.foldl_body _ _ _ _ (by simp)]
  simp [QParse.take, longLabelLength]

theorem QParse.foldl_labels (labels : List (List Byte)) (h : WireLabels labels) (buf : List Byte) (ll : Bool) :
    (wireLabels labels).foldl QParse.take { phase := .len, rem := 0, buf := buf, ll := ll } =
      { phase := .len, rem := 0, buf := buf ++ wireLabels labels,
        ll := ll || labels.any fun l => decide (64 ≤ l.length) } := by
  induction labels generalizing buf ll with
  | nil => simp
  | cons l labels ih =>
    obtain ⟨hl, hls⟩ := h.cons
    rw [wireLabels_cons, ← List.cons_append, List.foldl_append, QParse.foldl_label _ _ _ hl, ih hls]
    simp [Bool.or_assoc]

/-- The parser over a whole question. -/
theorem QParse.foldl_question (labels : List (List Byte)) (tail : List Byte) (h : WireLabels labels)
    (ht : tail.length = 4) :
    (wireLabels labels ++ 0 :: tail).foldl QParse.take QParse.start =
      { phase := .tail, rem := 0, buf := wireLabels labels ++ 0 :: tail,
        ll := labels.any fun l => decide (64 ≤ l.length) } := by
  obtain ⟨a, b, c, d, rfl⟩ : ∃ a b c d, tail = [a, b, c, d] := by
    match tail, ht with
    | [a, b, c, d], _ => exact ⟨a, b, c, d, rfl⟩
  rw [List.foldl_append, QParse.start, QParse.foldl_labels _ h]
  simp [QParse.take]

/-- Before its last byte a question is not finished. -/
theorem QParse.unfinished_of_prefix (labels : List (List Byte)) (tail m m' : List Byte) (x : Byte)
    (h : WireLabels labels) (ht : tail.length = 4) (e : wireLabels labels ++ 0 :: tail = m ++ x :: m') :
    (m.foldl QParse.take QParse.start).finished = false := by
  by_contra hf
  obtain ⟨labels', tail', h1, rfl, h3, -⟩ := QParse.finished_shape (by simpa using hf)
  have w1 := walkEnd_wire labels h tail
  rw [e, List.append_assoc, List.cons_append, walkEnd_wire labels' h1] at w1
  have := congrArg List.length e
  simp only [Option.some.injEq] at w1
  simp at this; omega

/-! ### The dotted name (R201) -/

theorem qByte_append (pre : List Byte) (x : Byte) (post : List Byte) : qByte (pre ++ x :: post) pre.length = x := by
  simp [qByte]

theorem joinLabels_cons_cons (l m : List Byte) (r : List (List Byte)) :
    joinLabels (l :: m :: r) = l ++ separator :: joinLabels (m :: r) := rfl

/-- The loop of R201 over whole labels. -/
theorem nameLoop_wire (labels : List (List Byte)) (h : WireLabels labels) (pre rest out : List Byte) (fuel : Nat)
    (hf : labels.length < fuel) :
    nameLoop (pre ++ (wireLabels labels ++ 0 :: rest)) fuel pre.length out = out ++ joinLabels labels := by
  induction labels generalizing pre fuel out with
  | nil =>
    cases fuel with
    | zero => simp at hf
    | succ fuel => simp [nameLoop, qByte_append, joinLabels]
  | cons l labels ih =>
    cases fuel with
    | zero => simp at hf
    | succ fuel =>
      obtain ⟨hl, hls⟩ := h.cons
      have hq : qByte (pre ++ (wireLabels (l :: labels) ++ 0 :: rest)) pre.length = BitVec.ofNat 8 l.length := by
        rw [wireLabels_cons, List.cons_append, qByte_append]
      have e : pre ++ (wireLabels (l :: labels) ++ 0 :: rest) =
          (pre ++ BitVec.ofNat 8 l.length :: l) ++ (wireLabels labels ++ 0 :: rest) := by simp
      have hlen : pre.length + 1 + l.length = (pre ++ BitVec.ofNat 8 l.length :: l).length := by simp; omega
      have htake : ((pre ++ (wireLabels (l :: labels) ++ 0 :: rest)).drop (pre.length + 1)).take l.length = l := by
        rw [show pre ++ (wireLabels (l :: labels) ++ 0 :: rest) =
          (pre ++ [BitVec.ofNat 8 l.length]) ++ (l ++ (wireLabels labels ++ 0 :: rest)) by simp,
          show pre.length + 1 = (pre ++ [BitVec.ofNat 8 l.length]).length by simp, List.drop_left, List.take_left]
      simp only [nameLoop, hq, labelLength_ne_zero hl, if_false, labelLength_toNat hl.2, htake]
      rw [e, hlen, ih hls _ _ _ (by simpa using hf)]
      cases labels with
      | nil =>
        have hz : qByte ((pre ++ BitVec.ofNat 8 l.length :: l) ++ (wireLabels [] ++ 0 :: rest))
            (pre ++ BitVec.ofNat 8 l.length :: l).length = 0 := qByte_append _ _ _
        rw [hz, if_neg (by simp)]
        simp [joinLabels]
      | cons l' labels =>
        have hl' := (hls.cons).1
        have hq' : qByte ((pre ++ BitVec.ofNat 8 l.length :: l) ++ (wireLabels (l' :: labels) ++ 0 :: rest))
            (pre ++ BitVec.ofNat 8 l.length :: l).length = BitVec.ofNat 8 l'.length := by
          rw [wireLabels_cons, List.cons_append, qByte_append]
        rw [hq', if_pos (labelLength_ne_zero hl'), joinLabels_cons_cons]
        simp

/-- The dotted string of a buffer with whole labels. -/
theorem dottedName_wire (labels : List (List Byte)) (h : WireLabels labels) (rest : List Byte) :
    dottedName (wireLabels labels ++ 0 :: rest) = joinLabels labels := by
  have := nameLoop_wire labels h [] rest [] (wireLabels labels ++ 0 :: rest).length (by
    simp [wireLabels_length]; omega)
  simpa [dottedName] using this

/-! ### Q_NAME's byte steps (R202) -/

/-- Bytes written without a tag. -/
def plain (l : List Byte) : List TaggedByte := l.map fun b => { byte := b, last := false }

theorem tagLast_append (a b : List Byte) (h : b ≠ []) : tagLast (a ++ b) = plain a ++ tagLast b := by
  induction a with
  | nil => rfl
  | cons x a ih =>
    cases hab : a ++ b with
    | nil => simp at hab; exact absurd hab.2 h
    | cons y r =>
      rw [List.cons_append, hab, tagLast, ← hab, ih]
      rfl

/-- A label body: its bytes, the last one tagged where the name ends after it. -/
theorem qName_body (l pre post : List Byte) (x : Byte) (e : Nat) (d : Bool) (hl : l ≠ []) :
    produce (qNameNext (pre ++ (l ++ x :: post))) l.length { i := pre.length, rem := l.length, e := e, labelDone := d } =
      (if x = 0 then tagLast l else plain l,
        { i := pre.length + l.length, rem := 0, e := e + l.length, labelDone := true }) := by
  induction l generalizing pre e d with
  | nil => exact absurd rfl hl
  | cons b l ih =>
    have hq : qByte (pre ++ (b :: l ++ x :: post)) pre.length = b := by rw [List.cons_append, qByte_append]
    have he : pre ++ (b :: l ++ x :: post) = (pre ++ [b]) ++ (l ++ x :: post) := by simp
    cases l with
    | nil =>
      have hq' : qByte (pre ++ ([b] ++ x :: post)) (pre.length + 1) = x := by
        rw [he, show pre.length + 1 = (pre ++ [b]).length by simp]
        exact qByte_append _ _ _
      simp only [List.length_cons, List.length_nil, produce, qNameNext, Nat.zero_lt_one, if_true, nameBodyByte,
        hq, hq', true_and, decide_true, tagLast, plain, List.map_cons, List.map_nil, Nat.zero_add, Nat.sub_self]
      by_cases hx : x = 0
      · rw [if_pos hx, decide_eq_true hx]
      · rw [if_neg hx, decide_eq_false hx]
    | cons c l =>
      have hih := ih (pre ++ [b]) (e + 1) false (by simp)
      rw [← he] at hih
      rw [List.length_cons, produce]
      have hn : qNameNext (pre ++ (b :: c :: l ++ x :: post))
          { i := pre.length, rem := (c :: l).length + 1, e := e, labelDone := d } =
          some ({ byte := b, last := false },
            { i := (pre ++ [b]).length, rem := (c :: l).length, e := e + 1, labelDone := false }) := by
        simp only [qNameNext, Nat.zero_lt_succ, if_true, nameBodyByte, hq]
        simp
      rw [hn]
      simp only [hih]
      have hi : (pre ++ [b]).length + (c :: l).length = pre.length + (b :: c :: l).length := by simp; omega
      have hc : e + 1 + (c :: l).length = e + (b :: c :: l).length := by simp; omega
      by_cases hx : x = 0
      · rw [if_pos hx, if_pos hx, hi, hc]; rfl
      · rw [if_neg hx, if_neg hx, hi, hc]; rfl

/-- From a length byte that is not zero, the first byte written is the label's first: as from inside the label. -/
theorem qName_open (buf : List Byte) (i e n : Nat) (h : qByte buf i ≠ 0) (hn : 0 < n) :
    produce (qNameNext buf) n { i := i, rem := 0, e := e, labelDone := false } =
      produce (qNameNext buf) n { i := i + 1, rem := (qByte buf i).toNat, e := e, labelDone := false } := by
  have hpos : 0 < (qByte buf i).toNat := by
    rcases Nat.eq_zero_or_pos (qByte buf i).toNat with e' | e'
    · exact absurd (BitVec.eq_of_toNat_eq e') h
    · exact e'
  obtain ⟨n, rfl⟩ : ∃ k, n = k + 1 := ⟨n - 1, by omega⟩
  have h1 : qNameNext buf { i := i, rem := 0, e := e, labelDone := false } =
      some (nameBodyByte buf { i := i + 1, rem := (qByte buf i).toNat, e := e, labelDone := false }) := by
    simp only [qNameNext, Nat.lt_irrefl, if_false, false_and, Bool.false_eq_true, h]
  have h2 : qNameNext buf { i := i + 1, rem := (qByte buf i).toNat, e := e, labelDone := false } =
      some (nameBodyByte buf { i := i + 1, rem := (qByte buf i).toNat, e := e, labelDone := false }) := by
    simp [qNameNext, hpos]
  rw [produce, produce, h1, h2]

theorem joinLabels_ne_nil {l : List Byte} {labels : List (List Byte)} (h : l ≠ []) : joinLabels (l :: labels) ≠ [] := by
  cases labels <;> simp [joinLabels, h]

/-- Q_NAME from a length position over whole labels: the dotted name, the last byte tagged, and a place where nothing is
left to write. -/
theorem qName_labels (labels : List (List Byte)) (h : WireLabels labels) (pre rest : List Byte) (e : Nat) :
    ∃ c, produce (qNameNext (pre ++ (wireLabels labels ++ 0 :: rest))) (joinLabels labels).length
        { i := pre.length, rem := 0, e := e, labelDone := false } = (tagLast (joinLabels labels), c) ∧
      c.e = e + (joinLabels labels).length ∧
      qNameNext (pre ++ (wireLabels labels ++ 0 :: rest)) c = none := by
  induction labels generalizing pre e with
  | nil => exact ⟨_, rfl, rfl, by simp [qNameNext, qByte_append]⟩
  | cons l labels ih =>
    obtain ⟨hl, hls⟩ := h.cons
    have hne : l ≠ [] := by rintro rfl; simp at hl
    have hq : qByte (pre ++ (wireLabels (l :: labels) ++ 0 :: rest)) pre.length = BitVec.ofNat 8 l.length := by
      rw [wireLabels_cons, List.cons_append, qByte_append]
    have hopen : ∀ n, 0 < n → produce (qNameNext (pre ++ (wireLabels (l :: labels) ++ 0 :: rest))) n
        { i := pre.length, rem := 0, e := e, labelDone := false } =
        produce (qNameNext (pre ++ (wireLabels (l :: labels) ++ 0 :: rest))) n
        { i := (pre ++ [BitVec.ofNat 8 l.length]).length, rem := l.length, e := e, labelDone := false } := by
      intro n hn
      rw [qName_open _ _ _ _ (by rw [hq]; exact labelLength_ne_zero hl) hn, hq, labelLength_toNat hl.2]
      simp
    cases labels with
    | nil =>
      have hb := qName_body l (pre ++ [BitVec.ofNat 8 l.length]) rest 0 e false hne
      have hbuf : (pre ++ [BitVec.ofNat 8 l.length]) ++ (l ++ 0 :: rest) =
          pre ++ (wireLabels [l] ++ 0 :: rest) := by simp
      rw [hbuf, if_pos rfl] at hb
      refine ⟨_, (hopen _ (by simp only [joinLabels]; omega)).trans hb, rfl, ?_⟩
      have : qByte (pre ++ (wireLabels [l] ++ 0 :: rest)) ((pre ++ [BitVec.ofNat 8 l.length]).length + l.length) = 0 := by
        rw [show pre ++ (wireLabels [l] ++ 0 :: rest) = (pre ++ BitVec.ofNat 8 l.length :: l) ++ 0 :: rest by simp,
          show (pre ++ [BitVec.ofNat 8 l.length]).length + l.length = (pre ++ BitVec.ofNat 8 l.length :: l).length by
            simp; omega, qByte_append]
      simp only [qNameNext, Nat.lt_irrefl, if_false, this, ne_eq, not_true_eq_false, and_false, if_true]
    | cons m labels =>
      obtain ⟨hm, -⟩ := hls.cons
      have hmne : m ≠ [] := by rintro rfl; simp at hm
      obtain ⟨c, h1, h2, h3⟩ := ih hls (pre ++ BitVec.ofNat 8 l.length :: l) (e + l.length + 1)
      have hbuf2 : (pre ++ BitVec.ofNat 8 l.length :: l) ++ (wireLabels (m :: labels) ++ 0 :: rest) =
          pre ++ (wireLabels (l :: m :: labels) ++ 0 :: rest) := by simp
      have hb := qName_body l (pre ++ [BitVec.ofNat 8 l.length])
        (m ++ (wireLabels labels ++ 0 :: rest)) (BitVec.ofNat 8 m.length) e false hne
      have hbuf : (pre ++ [BitVec.ofNat 8 l.length]) ++ (l ++ BitVec.ofNat 8 m.length :: (m ++ (wireLabels labels ++ 0 :: rest))) =
          pre ++ (wireLabels (l :: m :: labels) ++ 0 :: rest) := by simp
      rw [hbuf, if_neg (labelLength_ne_zero hm)] at hb
      rw [hbuf2] at h1 h3
      refine ⟨c, ?_, ?_, h3⟩
      · have hlen : (joinLabels (l :: m :: labels)).length = l.length + (1 + (joinLabels (m :: labels)).length) := by
          rw [joinLabels_cons_cons]; simp; omega
        rw [hlen, hopen _ (by omega), produce_add, hb, produce_add]
        have hsep : produce (qNameNext (pre ++ (wireLabels (l :: m :: labels) ++ 0 :: rest))) 1
            { i := (pre ++ [BitVec.ofNat 8 l.length]).length + l.length, rem := 0, e := e + l.length, labelDone := true } =
            ([{ byte := separator, last := false }],
              { i := (pre ++ BitVec.ofNat 8 l.length :: l).length, rem := 0, e := e + l.length + 1,
                labelDone := false }) := by
          have hq' : qByte (pre ++ (wireLabels (l :: m :: labels) ++ 0 :: rest))
              (pre ++ BitVec.ofNat 8 l.length :: l).length = BitVec.ofNat 8 m.length := by
            rw [← hbuf2, wireLabels_cons, List.cons_append, qByte_append]
          have hi : (pre ++ [BitVec.ofNat 8 l.length]).length + l.length =
              (pre ++ BitVec.ofNat 8 l.length :: l).length := by simp; omega
          rw [hi]
          simp only [produce, qNameNext, Nat.lt_irrefl, if_false, true_and, hq', ne_eq,
            labelLength_ne_zero hm, not_false_eq_true, if_true]
        rw [hsep, h1, joinLabels_cons_cons]
        simp only [Prod.mk.injEq, and_true]
        rw [tagLast_append _ _ (by simp)]
        congr 1
        have := tagLast_append [separator] (joinLabels (m :: labels)) (joinLabels_ne_nil hmne)
        simpa [plain] using this.symm
      · rw [h2, joinLabels_cons_cons]; simp; omega

/-! ### Q_STORE's byte steps (R202) -/

theorem qStoreNext_eq (buf : List Byte) (k : Nat) :
    qStoreNext buf buf.length k = ((tagLast buf)[k]?).map fun x => (x, k + 1) := by
  unfold qStoreNext
  split
  · rename_i hk
    rw [tagLast_getElem? _ _ hk]
    simp [qByte, hk]
  · rename_i hk
    have : (tagLast buf).length ≤ k := by rw [tagLast_length]; omega
    simp [List.getElem?_eq_none this]

end Sys2Proof.Machine
end

