-- ==== Sys2Proof/Laws/PerInstr.lean ====
section
/-! SUPPORT. Statements about the command as syntax, command by command. Family `OpcodeByteOfEncoding`: the op field
of a command's word is the op column of its row of 30_encoding.md R96. -/

namespace Sys2Proof.Laws.OpcodeByteOfEncoding

/-- `w[63:56]` of the command's word is its opcode (R90, R96). -/
def Statement (i : Instr) : Prop := cmdOp (encode i) = opcodeByte i

/-- Every word is packed with the opcode on top. -/
theorem of_encode (i : Instr) : Statement i := by simp [Statement, encode]

theorem getStatus : Statement (.getStatus) := of_encode _
theorem inNext : Statement (.inNext) := of_encode _
theorem hdrClear : Statement (.hdrClear) := of_encode _
theorem hdrLoad : Statement (.hdrLoad) := of_encode _
theorem hdrStore : Statement (.hdrStore) := of_encode _
theorem getId : Statement (.getId) := of_encode _
theorem getQdcount : Statement (.getQdcount) := of_encode _
theorem getAncount : Statement (.getAncount) := of_encode _
theorem getNscount : Statement (.getNscount) := of_encode _
theorem getArcount : Statement (.getArcount) := of_encode _
theorem setId (value : Half) : Statement (.setId value) := of_encode _
theorem setQdcount (value : Half) : Statement (.setQdcount value) := of_encode _
theorem setAncount (value : Half) : Statement (.setAncount value) := of_encode _
theorem setNscount (value : Half) : Statement (.setNscount value) := of_encode _
theorem setArcount (value : Half) : Statement (.setArcount value) := of_encode _
theorem getQr : Statement (.getQr) := of_encode _
theorem getAa : Statement (.getAa) := of_encode _
theorem getTc : Statement (.getTc) := of_encode _
theorem getRd : Statement (.getRd) := of_encode _
theorem getRa : Statement (.getRa) := of_encode _
theorem setQr (value : Bool) : Statement (.setQr value) := of_encode _
theorem setAa (value : Bool) : Statement (.setAa value) := of_encode _
theorem setTc (value : Bool) : Statement (.setTc value) := of_encode _
theorem setRd (value : Bool) : Statement (.setRd value) := of_encode _
theorem setRa (value : Bool) : Statement (.setRa value) := of_encode _
theorem getOpcode : Statement (.getOpcode) := of_encode _
theorem getRcode : Statement (.getRcode) := of_encode _
theorem setOpcode (sym : OpcodeSym) : Statement (.setOpcode sym) := of_encode _
theorem setRcode (sym : RcodeSym) : Statement (.setRcode sym) := of_encode _
theorem getBit (byteoff : BitVec 4) (bitpos : BitVec 3) : Statement (.getBit byteoff bitpos) := of_encode _
theorem setBit (byteoff : BitVec 4) (bitpos : BitVec 3) (value : Bool) : Statement (.setBit byteoff bitpos value) := of_encode _
theorem qBuild (nameLen qtype qclass : Half) : Statement (.qBuild nameLen qtype qclass) := of_encode _
theorem qLoad : Statement (.qLoad) := of_encode _
theorem qStore : Statement (.qStore) := of_encode _
theorem qName : Statement (.qName) := of_encode _
theorem qGetType : Statement (.qGetType) := of_encode _
theorem qGetClass : Statement (.qGetClass) := of_encode _
theorem qGetLen : Statement (.qGetLen) := of_encode _

end Sys2Proof.Laws.OpcodeByteOfEncoding
end

