-- ==== Sys2Proof/Laws/Step.lean ====
section
/-! SUPPORT. What a command and a step can do, said once: `Ran i s t` lists the shapes of the state after `exec i s`,
`exec_ran` says that it is one of them, and `step_cases` does the same for a step. Claims about all commands are proved
from these. -/

namespace Sys2Proof.Machine

/-- The commands that answer a view of the state and change nothing: the getters, GET_STATUS and the question getters. -/
def answersOnly (i : Instr) : Bool :=
  (headerRead i).isSome || i == .getStatus || i == .qGetType || i == .qGetClass || i == .qGetLen

/-- The shapes of the state `t` after command `i` in state `s`. -/
inductive Ran : Instr → State → State → Prop where
  | answered {i s} (d : Half) (hi : answersOnly i = true) (hh : needsHeader i = true → s.hv = true)
      (hq : needsQuestion i = true → s.qv = true) : Ran i s (s.done d)
  | noHeader {i s} (hi : needsHeader i = true) (hv : s.hv = false) : Ran i s (s.fail .noObject)
  | noQuestion {i s} (hi : needsQuestion i = true) (hv : s.qv = false) : Ran i s (s.fail .noObject)
  | illegal {i s} (hi : i.wellFormed = false) : Ran i s s.illegal
  | wrote {i s} (write : Header → Header) (hi : headerWrite i = some write) (hv : s.hv = true) :
      Ran i s (State.done { s with hdr := write s.hdr } 0)
  | cleared {s} : Ran .hdrClear s (State.done { s with hdr := Vector.replicate 12 0, hv := true } 0)
  | hdrLoad {s} : Ran .hdrLoad s (continueHdrLoad { s with hv := false } [])
  | hdrStore {s} (hv : s.hv = true) : Ran .hdrStore s (continueHdrStore s 0)
  | inNext {s} : Ran .inNext s (continueInNext s)
  | qBuildTooLong {nameLen qtype qclass s} (hc : nameLen.toNat + 6 > s.cfg.qcap) :
      Ran (.qBuild nameLen qtype qclass) s (s.dropQuestion.failQuestion .capacity)
  | qBuild {nameLen qtype qclass s} (hc : nameLen.toNat + 6 ≤ s.cfg.qcap) :
      Ran (.qBuild nameLen qtype qclass) s (continueQBuild s.dropQuestion (QBuild.start nameLen qtype qclass))
  | qLoad {s} : Ran .qLoad s (continueQLoad s.dropQuestion QParse.start)
  | qStore {s} (hv : s.qv = true) : Ran .qStore s (continueQStore s 0)
  | qName {s} (hv : s.qv = true) : Ran .qName s (continueQName s .start)

/-- The getters and setters of the header need a header. -/
theorem needsHeader_of_headerRead {i : Instr} {view : Header → Half} (h : headerRead i = some view) :
    needsHeader i = true ∧ needsQuestion i = false := by
  cases i <;> simp only [headerRead] at h <;> first | (cases h; done) | exact ⟨rfl, rfl⟩

theorem needsHeader_of_headerWrite {i : Instr} {write : Header → Header} (h : headerWrite i = some write) :
    needsHeader i = true ∧ needsQuestion i = false := by
  cases i <;> simp only [headerWrite] at h <;> first | (cases h; done) | exact ⟨rfl, rfl⟩

/-- What a question getter does. -/
theorem withQuestion_answers {i : Instr} {s : State} (d : State → Half) (hi : needsQuestion i = true)
    (ha : answersOnly i = true) (hh : needsHeader i = false) : Ran i s (s.withQuestion fun s => s.done (d s)) := by
  cases hv : s.qv with
  | true => rw [withQuestion_of_valid hv]; exact .answered _ ha (by simp [hh]) (fun _ => hv)
  | false => rw [withQuestion_of_invalid hv]; exact .noQuestion hi hv

/-- Every command gives a next state, of one of the shapes. -/
theorem exec_ran (i : Instr) (s : State) : ∃ t, exec i s = .next t ∧ Ran i s t := by
  cases hr : headerRead i with
  | some view =>
    obtain ⟨h1, h2⟩ := needsHeader_of_headerRead hr
    refine ⟨_, exec_of_headerRead hr s, ?_⟩
    cases hv : s.hv with
    | true =>
      rw [withHeader_of_valid hv]
      exact .answered _ (by simp [answersOnly, hr]) (fun _ => hv) (by simp [h2])
    | false => rw [withHeader_of_invalid hv]; exact .noHeader h1 hv
  | none =>
    cases hw : headerWrite i with
    | some write =>
      obtain ⟨h1, h2⟩ := needsHeader_of_headerWrite hw
      refine ⟨_, exec_of_headerWrite hw s, ?_⟩
      cases hv : s.hv with
      | true => rw [withHeader_of_valid hv]; exact .wrote _ hw hv
      | false => rw [withHeader_of_invalid hv]; exact .noHeader h1 hv
    | none =>
      cases i <;> simp only [headerRead, headerWrite] at hr hw <;> first
        | (cases hr; done)
        | (cases hw; done)
        | skip
      case getStatus => exact ⟨_, rfl, .answered _ rfl (by simp [needsHeader]) (by simp [needsQuestion])⟩
      case inNext => exact ⟨_, rfl, .inNext⟩
      case hdrClear => exact ⟨_, rfl, .cleared⟩
      case hdrLoad => exact ⟨_, rfl, .hdrLoad⟩
      case hdrStore =>
        refine ⟨_, rfl, ?_⟩
        cases hv : s.hv with
        | true => rw [withHeader_of_valid hv]; exact .hdrStore hv
        | false => rw [withHeader_of_invalid hv]; exact .noHeader rfl hv
      case getBit o p =>
        split at hr
        · cases hr
        · rename_i hl
          have hl' : legalByteOffset o = false := by simpa using hl
          exact ⟨s.illegal, by simp [exec, execGetBit, hl'], .illegal hl'⟩
      case setBit o p v =>
        split at hw
        · cases hw
        · rename_i hl
          have hl' : legalByteOffset o = false := by simpa using hl
          exact ⟨s.illegal, by simp [exec, execSetBit, hl'], .illegal hl'⟩
      case qBuild nameLen qtype qclass =>
        refine ⟨_, rfl, ?_⟩
        split
        · rename_i hc; exact .qBuildTooLong hc
        · rename_i hc; exact .qBuild (by omega)
      case qLoad => exact ⟨_, rfl, .qLoad⟩
      case qStore =>
        refine ⟨_, rfl, ?_⟩
        cases hv : s.qv with
        | true => rw [withQuestion_of_valid hv]; exact .qStore hv
        | false => rw [withQuestion_of_invalid hv]; exact .noQuestion rfl hv
      case qName =>
        refine ⟨_, rfl, ?_⟩
        cases hv : s.qv with
        | true => rw [withQuestion_of_valid hv]; exact .qName hv
        | false => rw [withQuestion_of_invalid hv]; exact .noQuestion rfl hv
      case qGetType => exact ⟨_, rfl, withQuestion_answers questionType rfl rfl rfl⟩
      case qGetClass => exact ⟨_, rfl, withQuestion_answers questionClass rfl rfl rfl⟩
      case qGetLen => exact ⟨_, rfl, withQuestion_answers (fun s => BitVec.ofNat 16 s.qlen) rfl rfl rfl⟩

/-- The state after a command has one of the shapes. -/
theorem ran_of_exec {i : Instr} {s t : State} (h : exec i s = .next t) : Ran i s t := by
  obtain ⟨t', h', hr⟩ := exec_ran i s
  rw [h] at h'
  cases h'
  exact hr

/-- What a step can be: the reset, an idle step, a command accepted and run, a word refused, or the command in execution
going on. -/
theorem step_cases {s t : State} (h : step s = .next t) :
    (s.rst = true ∧ t = s.applyReset) ∨
    (s.rst = false ∧ s.activity = .idle ∧ s.cmds = [] ∧ t = s) ∨
    (s.rst = false ∧ s.activity = .idle ∧ ∃ w rest i, s.cmds = w :: rest ∧ decode w = .ok i ∧
      exec i (s.accept rest) = .next t) ∨
    (s.rst = false ∧ s.activity = .idle ∧ ∃ w rest e, s.cmds = w :: rest ∧ decode w = .error e ∧
      t = (s.accept rest).illegal) ∨
    (s.rst = false ∧ s.activity ≠ .idle ∧ t = s.advance) := by
  unfold step at h
  split at h
  · rename_i hr; cases h; exact .inl ⟨hr, rfl⟩
  · rename_i hr
    have hr' : s.rst = false := by simpa using hr
    split at h
    · rename_i ha
      split at h
      · rename_i hc; cases h; exact .inr (.inl ⟨hr', ha, hc, rfl⟩)
      · rename_i w rest hc
        unfold runWord at h
        split at h
        · rename_i i hd; exact .inr (.inr (.inl ⟨hr', ha, w, rest, i, hc, hd, h⟩))
        · rename_i e hd; cases h; exact .inr (.inr (.inr (.inl ⟨hr', ha, w, rest, e, hc, hd, rfl⟩)))
    · rename_i ha; cases h; exact .inr (.inr (.inr (.inr ⟨hr', ha, rfl⟩)))

/-- A command's next state and the state after its loop: the command goes on where it held. -/
theorem advance_hdrLoad {s : State} {staged : List Byte} (h : s.activity = .hdrLoad staged) :
    s.advance = continueHdrLoad s staged := by simp [State.advance, h]
theorem advance_hdrStore {s : State} {k : Nat} (h : s.activity = .hdrStore k) :
    s.advance = continueHdrStore s k := by simp [State.advance, h]
theorem advance_inNext {s : State} (h : s.activity = .inNext) : s.advance = continueInNext s := by
  simp [State.advance, h]
theorem advance_qBuild {s : State} {b : QBuild} (h : s.activity = .qBuild b) :
    s.advance = continueQBuild s b := by simp [State.advance, h]
theorem advance_qLoad {s : State} {p : QParse} (h : s.activity = .qLoad p) :
    s.advance = continueQLoad s p := by simp [State.advance, h]
theorem advance_qStore {s : State} {k : Nat} (h : s.activity = .qStore k) :
    s.advance = continueQStore s k := by simp [State.advance, h]
theorem advance_qName {s : State} {c : NameCursor} (h : s.activity = .qName c) :
    s.advance = continueQName s c := by simp [State.advance, h]
theorem advance_responding {s : State} {r : RspWord} (h : s.activity = .responding r) :
    s.advance = s.deliver r := by simp [State.advance, h]

end Sys2Proof.Machine
end

