-- ==== Sys2Proof/Tests/Slice0.lean ====
section
/-! SUPPORT. Tests. Expected results come from spec/: the vectors of 95_test_vectors.md (named in the comments), its
worked examples, and the tables the rules print. The second half shows, for every obligation with hypotheses, a
concrete state and operands that meet them. -/

namespace Sys2Proof.Tests

open Sys2Proof.Machine

/-! ### Helpers -/

/-- Right after reset, QCAP 64 (the parameter of the programs of 95_test_vectors.md). -/
def small : State := State.resetWith { qcap := 64 }

/-- `small` with a valid header of these bytes. -/
def withHdr (bytes : List Byte) : State := { small with hdr := headerOfBytes bytes, hv := true }

/-- `small` with a valid question of these bytes. -/
def withQ (buf : List Byte) : State := { small with qbuf := buf, qlen := buf.length, qv := true }

/-- `small` with this message on the input stream. -/
def withIn (message : List Byte) : State := { small with input := tagLast message }

/-- The state after the command. -/
def after (i : Instr) (s : State) : State :=
  match exec i s with
  | .next t => t
  | .fault f => nomatch f
  | .refused _ => s

/-- The header of vector H3. -/
def h3 : List Byte := [0x0A, 0x20, 0x85, 0x83, 0x00, 0x01, 0x01, 0x02, 0xFF, 0xFF, 0x80, 0x00]

/-- "google.com" (vector S3). -/
def google : List Byte := [0x67, 0x6F, 0x6F, 0x67, 0x6C, 0x65, 0x2E, 0x63, 0x6F, 0x6D]

/-- The question of vector S3. -/
def googleQ : List Byte :=
  [0x06, 0x67, 0x6F, 0x6F, 0x67, 0x6C, 0x65, 0x03, 0x63, 0x6F, 0x6D, 0x00, 0x00, 0x10, 0x00, 0x01]

/-! ### Well-formedness -/

/-- R103: byteoff 12 is no header byte, 11 is one. -/
theorem test_wellFormed_getBit :
    Instr.wellFormed (.getBit 12 0) = false ∧ Instr.wellFormed (.getBit 11 7) = true := by decide

theorem test_wellFormed_setBit :
    Instr.wellFormed (.setBit 15 7 true) = false ∧ Instr.wellFormed (.setBit 0 0 false) = true := by decide

/-! ### Decoding: one word per command, as 95_test_vectors.md ENC and the op column of R96 give it -/

theorem test_decode_status_and_header :
    decode 0x0100000000000000 = .ok .getStatus ∧ decode 0x0200000000000000 = .ok .inNext ∧
    decode 0x1000000000000000 = .ok .hdrClear ∧ decode 0x1100000000000000 = .ok .hdrLoad ∧
    decode 0x1200000000000000 = .ok .hdrStore := by decide

theorem test_decode_get16 :
    decode 0x2000000000000000 = .ok .getId ∧ decode 0x2100000000000000 = .ok .getQdcount ∧
    decode 0x2200000000000000 = .ok .getAncount ∧ decode 0x2300000000000000 = .ok .getNscount ∧
    decode 0x2400000000000000 = .ok .getArcount := by decide

theorem test_decode_set16 :
    decode 0x2800000000000A20 = .ok (.setId 0x0A20) ∧ decode 0x2900000000000001 = .ok (.setQdcount 1) ∧
    decode 0x2A00000000000102 = .ok (.setAncount 0x0102) ∧ decode 0x2B0000000000FFFF = .ok (.setNscount 0xFFFF) ∧
    decode 0x2C00000000008000 = .ok (.setArcount 0x8000) := by decide

theorem test_decode_flags :
    decode 0x3000000000000000 = .ok .getQr ∧ decode 0x3100000000000000 = .ok .getAa ∧
    decode 0x3200000000000000 = .ok .getTc ∧ decode 0x3300000000000000 = .ok .getRd ∧
    decode 0x3400000000000000 = .ok .getRa ∧ decode 0x3800000000000001 = .ok (.setQr true) ∧
    decode 0x3900000000000000 = .ok (.setAa false) ∧ decode 0x3A00000000000001 = .ok (.setTc true) ∧
    decode 0x3B00000000000001 = .ok (.setRd true) ∧ decode 0x3C00000000000001 = .ok (.setRa true) := by decide

theorem test_decode_enumerated :
    decode 0x4000000000000000 = .ok .getOpcode ∧ decode 0x4100000000000000 = .ok .getRcode ∧
    decode 0x4800000000000002 = .ok (.setOpcode .status) ∧ decode 0x4900000000000005 = .ok (.setRcode .refused) := by
  decide

theorem test_decode_bits :
    decode 0x5003000000000000 = .ok (.getBit 0 3) ∧ decode 0x50B7000000000000 = .ok (.getBit 11 7) ∧
    decode 0x5831000000000001 = .ok (.setBit 3 1 true) ∧ decode 0x5820000000000000 = .ok (.setBit 2 0 false) := by
  decide

theorem test_decode_question :
    decode 0x6000000A00010010 = .ok (.qBuild 10 16 1) ∧ decode 0x6100000000000000 = .ok .qLoad ∧
    decode 0x6200000000000000 = .ok .qStore ∧ decode 0x6300000000000000 = .ok .qName ∧
    decode 0x6400000000000000 = .ok .qGetType ∧ decode 0x6500000000000000 = .ok .qGetClass ∧
    decode 0x6600000000000000 = .ok .qGetLen := by decide

/-- Q fields (vector Q4): name_len 4, type 0x1234, class 0x5678 do not trade places. -/
theorem test_decode_qBuild_fields : decode 0x6000000456781234 = .ok (.qBuild 4 0x1234 0x5678) := by decide

/-- Vectors ILL: reserved opcodes. -/
theorem test_illegal_opcodes :
    decode 0x0300000000000000 = .error .reservedOpcode ∧ decode 0x2500000000000000 = .error .reservedOpcode ∧
    decode 0x6700000000000000 = .error .reservedOpcode ∧ decode 0x0000000000000000 = .error .reservedOpcode := by
  decide

/-- Vectors ILL: a field the format does not use is not zero. -/
theorem test_illegal_unused_fields :
    decode 0x2000000000000001 = .error .unusedField ∧ decode 0x1000000100000000 = .error .unusedField ∧
    decode 0x2800000000010000 = .error .unusedField ∧ decode 0x2801000000000000 = .error .unusedField ∧
    decode 0x5000000000000001 = .error .unusedField ∧ decode 0x6001000A00010010 = .error .unusedField := by decide

/-- Vectors ILL: an operand outside its domain. -/
theorem test_illegal_operands :
    decode 0x3800000000000002 = .error .operandRange ∧ decode 0x4800000000000004 = .error .operandRange ∧
    decode 0x4900000000000006 = .error .operandRange ∧ decode 0x50C0000000000000 = .error .operandRange ∧
    decode 0x5008000000000000 = .error .operandRange ∧ decode 0x5830000000000002 = .error .operandRange ∧
    decode 0x58F7000000000001 = .error .operandRange := by decide

/-- The host's form of a table word. -/
theorem test_decodeTableWord : decodeTableWord 64 0x5831000000000001 = some (.setBit 3 1 true) := by decide

/-- The word placed by the host is the one the next step runs. -/
theorem test_withFetchWord :
    step (State.reset.withFetchWord 64 0x1000000000000000) = exec .hdrClear State.reset := rfl

/-! ### The response word: 95_test_vectors.md RSP -/

theorem test_rspWord :
    rspWord .ok 0x0A20 = 0x00000A20 ∧ rspWord .ok 0xFFFF = 0x0000FFFF ∧ rspWord .truncatedInput 0 = 0x00010000 ∧
    rspWord .illegalCmd 0 = 0x00020000 ∧ rspWord .noObject 0 = 0x00030000 ∧ rspWord .capacity 0 = 0x00040000 ∧
    rspWord .unencodable 0 = 0x00050000 := by decide

/-! ### Status and stream -/

/-- N4: QV and IN_EOS with both advisory flags read 0x0036. -/
theorem test_getStatus :
    (after .getStatus { withQ googleQ with inEos := true, longLabel := true, longName := true }).rsp = [0x36] := by
  decide

/-- N1: the rest of the message is discarded, the next message untouched. -/
theorem test_inNext :
    let t := after .inNext { small with input := tagLast [1, 2, 3] ++ tagLast [4, 5] }
    t.input = tagLast [4, 5] ∧ t.inEos = false ∧ t.rsp = [0] := by decide

/-- N2: at IN_EOS = 1 nothing is consumed. -/
theorem test_inNext_at_end :
    let t := after .inNext { small with input := tagLast [4, 5], inEos := true }
    t.input = tagLast [4, 5] ∧ t.inEos = false := by decide

/-! ### Header lifecycle -/

/-- H1 -/
theorem test_hdrClear :
    let t := after .hdrClear { small with hdr := headerOfBytes h3 }
    t.hdr.toList = List.replicate 12 0 ∧ t.hv = true ∧ t.rsp = [0] := by decide

/-- H3: twelve bytes are taken, the thirteenth stays. -/
theorem test_hdrLoad :
    let t := after .hdrLoad (withIn (h3 ++ [0x99]))
    t.hdr.toList = h3 ∧ t.hv = true ∧ t.input = tagLast [0x99] ∧ t.inEos = false ∧ t.rsp = [0] := by decide

/-- S5: eleven bytes. -/
theorem test_hdrLoad_truncated :
    let t := after .hdrLoad { withHdr h3 with input := tagLast [0x0A, 0x20, 1, 0, 0, 1, 0, 0, 0, 0, 0] }
    t.hv = false ∧ t.inEos = true ∧ t.input = [] ∧ t.rsp = [0x00010000] := by decide

/-- HW: three untagged bytes are taken, then the command holds. -/
theorem test_hdrLoad_holds :
    let t := after .hdrLoad { small with input := (tagLast [0x0A, 0x20, 1, 0]).take 3 }
    t.activity = .hdrLoad [0x0A, 0x20, 1] ∧ t.input = [] ∧ t.rsp = [] ∧ t.cmdReady = false ∧ t.inReady = true := by
  decide

/-- H1, H8: without a header; P4: with one. -/
theorem test_hdrStore_noObject :
    (after .hdrStore small).rsp = [0x00030000] ∧ (after .hdrStore small).output = [] := by decide

theorem test_hdrStore :
    let t := after .hdrStore (withHdr [0xBE, 0xEF, 0x85, 0xA3, 0, 1, 0, 0, 0, 0, 0, 0])
    t.output = tagLast [0xBE, 0xEF, 0x85, 0xA3, 0, 1, 0, 0, 0, 0, 0, 0] ∧ t.rsp = [0x0C] := by decide

/-! ### Header fields: vectors H3, H4, H6, H7 -/

theorem test_get16 :
    (after .getId (withHdr h3)).rsp = [0x0A20] ∧ (after .getQdcount (withHdr h3)).rsp = [0x0001] ∧
    (after .getAncount (withHdr h3)).rsp = [0x0102] ∧ (after .getNscount (withHdr h3)).rsp = [0xFFFF] ∧
    (after .getArcount (withHdr h3)).rsp = [0x8000] := by decide

theorem test_getFlags :
    (after .getQr (withHdr h3)).rsp = [1] ∧ (after .getAa (withHdr h3)).rsp = [1] ∧
    (after .getTc (withHdr h3)).rsp = [0] ∧ (after .getRd (withHdr h3)).rsp = [1] ∧
    (after .getRa (withHdr h3)).rsp = [1] := by decide

/-- H3, H6: raw OPCODE 15 reads RESERVED; raw RCODE 15 is absent, 3 is NameError. -/
theorem test_getEnumerated :
    (after .getOpcode (withHdr h3)).rsp = [0] ∧ (after .getRcode (withHdr h3)).rsp = [0x0103] ∧
    (after .getOpcode (withHdr [0, 0, 0x78, 0x0F])).rsp = [3] ∧
    (after .getRcode (withHdr [0, 0, 0x78, 0x0F])).rsp = [0] := by decide

/-- H7: bit position 0 is the most significant bit. -/
theorem test_getBit :
    (after (.getBit 0 0) (withHdr [0xA5, 0xC3])).rsp = [1] ∧ (after (.getBit 0 1) (withHdr [0xA5, 0xC3])).rsp = [0] ∧
    (after (.getBit 1 1) (withHdr [0xA5, 0xC3])).rsp = [1] ∧ (after (.getBit 1 5) (withHdr [0xA5, 0xC3])).rsp = [0] := by
  decide

/-- S7, and H4 for the other fields: exactly two bytes change. -/
theorem test_set16 :
    (after (.setId 0) (withHdr (List.replicate 12 0xFF))).hdr.toList = 0 :: 0 :: List.replicate 10 0xFF ∧
    (after (.setQdcount 1) (withHdr (List.replicate 12 0xFF))).hdr.toList =
      List.replicate 4 0xFF ++ [0, 1] ++ List.replicate 6 0xFF ∧
    (after (.setAncount 0x1234) (withHdr (List.replicate 12 0xFF))).hdr.toList =
      List.replicate 6 0xFF ++ [0x12, 0x34] ++ List.replicate 4 0xFF ∧
    (after (.setNscount 0) (withHdr (List.replicate 12 0xFF))).hdr.toList =
      List.replicate 8 0xFF ++ [0, 0] ++ List.replicate 2 0xFF ∧
    (after (.setArcount 0x8000) (withHdr (List.replicate 12 0xFF))).hdr.toList =
      List.replicate 10 0xFF ++ [0x80, 0] := by decide

/-- Bytes 2 and 3 after a command on a header with these bytes 2 and 3. -/
def flagsAfter (i : Instr) (b2 b3 : Byte) : List Byte :=
  ((after i (withHdr [0, 0, b2, b3])).hdr.toList.drop 2).take 2

/-- H4: clearing one flag of an all-ones header. -/
theorem test_clearFlags :
    flagsAfter (.setQr false) 0xFF 0xFF = [0x7F, 0xFF] ∧ flagsAfter (.setAa false) 0x0F 0xFF = [0x0B, 0xFF] ∧
    flagsAfter (.setTc false) 0x0B 0xFF = [0x09, 0xFF] ∧ flagsAfter (.setRd false) 0x09 0xFF = [0x08, 0xFF] ∧
    flagsAfter (.setRa false) 0x08 0xFF = [0x08, 0x7F] := by decide

/-- H5: setting one flag. -/
theorem test_setFlags :
    flagsAfter (.setQr true) 0 0 = [0x80, 0] ∧ flagsAfter (.setAa true) 0x90 0 = [0x94, 0] ∧
    flagsAfter (.setTc true) 0x94 0 = [0x96, 0] ∧ flagsAfter (.setRd true) 0x96 0 = [0x97, 0] ∧
    flagsAfter (.setRa true) 0x97 0 = [0x97, 0x80] := by decide

/-- H4, H5: the other bits of the byte, Z among them, are kept. -/
theorem test_setEnumerated :
    flagsAfter (.setOpcode .iquery) 0x7F 0xFF = [0x0F, 0xFF] ∧
    flagsAfter (.setOpcode .reserved) 0x87 0x50 = [0x9F, 0x50] ∧
    flagsAfter (.setRcode .refused) 0x08 0x7F = [0x08, 0x75] ∧
    flagsAfter (.setRcode .noError) 0x97 0xD3 = [0x97, 0xD0] := by decide

/-- H5: the Z bits. -/
theorem test_setBit :
    flagsAfter (.setBit 3 1 true) 0x97 0x83 = [0x97, 0xC3] ∧ flagsAfter (.setBit 3 3 true) 0x97 0xC3 = [0x97, 0xD3] ∧
    (after (.setBit 3 1 true) small).rsp = [0x00030000] := by decide

/-! ### Questions -/

/-- S3 -/
theorem test_qBuild :
    let t := after (.qBuild 10 16 1) (withIn google)
    t.qbuf = googleQ ∧ t.qlen = 16 ∧ t.qv = true ∧ t.rsp = [0x10] ∧ t.inEos = true := by decide

/-- Q4: an empty label; Q13: CAPACITY with nothing consumed. -/
theorem test_qBuild_corners :
    (after (.qBuild 4 0x1234 0x5678) (withIn [0x61, 0x2E, 0x2E, 0x62])).qbuf =
      [1, 0x61, 0, 1, 0x62, 0, 0x12, 0x34, 0x56, 0x78] ∧
    (after (.qBuild 10 16 1) { withIn google with cfg := { qcap := 15 } }).rsp = [0x00040000] ∧
    (after (.qBuild 10 16 1) { withIn google with cfg := { qcap := 15 } }).input = tagLast google := by decide

/-- L16: the parse stops at the first zero length byte. -/
theorem test_qLoad :
    let t := after .qLoad (withIn [1, 0x61, 0, 1, 0x62, 0, 0x12, 0x34, 0x56, 0x78])
    t.qbuf = [1, 0x61, 0, 1, 0x62, 0, 0x12] ∧ t.rsp = [7] ∧ t.input = tagLast [0x34, 0x56, 0x78] ∧ t.inEos = false := by
  decide

/-- L12: CAPACITY wins over TRUNCATED_INPUT; L4: truncated inside type and class. -/
theorem test_qLoad_failures :
    (after .qLoad { withIn [1, 0x61, 0, 0, 1] with cfg := { qcap := 5 } }).rsp = [0x00040000] ∧
    (after .qLoad (withIn [3, 0x63, 0x6F, 0x6D, 0, 0, 1])).rsp = [0x00010000] := by decide

/-- S3 -/
theorem test_qStore :
    (after .qStore (withQ googleQ)).output = tagLast googleQ ∧ (after .qStore (withQ googleQ)).rsp = [0x10] := by
  decide

/-- S3, and L15: label bytes 00 are written as they are. -/
theorem test_qName :
    (after .qName (withQ googleQ)).output = tagLast google ∧ (after .qName (withQ googleQ)).rsp = [0x0A] ∧
    (after .qName (withQ [2, 0, 0, 0, 0, 1, 0, 1])).output = tagLast [0, 0] := by decide

/-- S3 -/
theorem test_qGetters :
    (after .qGetType (withQ googleQ)).rsp = [0x10] ∧ (after .qGetClass (withQ googleQ)).rsp = [1] ∧
    (after .qGetLen (withQ googleQ)).rsp = [0x10] ∧ (after .qGetLen small).rsp = [0x00030000] := by decide

/-- R108, R109: `Q_BUILD 10, TXT, 1` (ENC); an operand above its range is refused. -/
theorem test_assembler :
    assembleWord "Q_BUILD 10, TXT, 1 ; a comment".toList = some 0x6000000A00010010 ∧
    assembleWord "SET_OPCODE STATUS".toList = some 0x4800000000000002 ∧
    assembleWord "GET_BIT 12, 0".toList = none := by decide

/-- R111: `-> OK, 0x0A20` (RSP). -/
theorem test_responseText : responseText .ok 0x0A20 = "-> OK, 0x0A20".toList := by decide

/-! ### The hypotheses of the obligations can be met

`test_hypotheses_<Obligation>`: a concrete state and operands that meet all hypotheses together, one for each clause. -/

theorem exec_after (i : Instr) (s : State) : exec i s = .next (after i s) := by
  obtain ⟨t, h, -⟩ := exec_ran i s
  simp [after, h]

/-- The state after a step. -/
def afterStep (s : State) : State :=
  match step s with
  | .next t => t
  | .fault f => nomatch f
  | .refused _ => s

/-- `small` with these words to come. -/
def sending (words : List CmdWord) : State := { small with cmds := words }

/-- The invariant of `small`, whatever waits for it on the command channel. -/
theorem invariant_sending (words : List CmdWord) : Invariant (sending words) :=
  { parameter := ⟨by change 5 ≤ 64; decide, by change 64 ≤ 65535; decide⟩
    bufferLength := rfl
    bufferFits := Nat.zero_le _
    flagsClear := fun _ => ⟨rfl, rfl⟩
    question := fun h => nomatch h
    longName := fun h => nomatch h
    longLabel := fun h => nomatch h
    activity := trivial
    responses := fun _ h => nomatch h }

/-- The root question of vector L1, in the smallest buffer. -/
def rootQ : State := { withQ [0, 0, 1, 0, 1] with cfg := { qcap := 5 } }

theorem invariant_rootQ : Invariant rootQ :=
  { parameter := ⟨by decide, by decide⟩
    bufferLength := rfl
    bufferFits := by decide
    flagsClear := fun h => nomatch h
    question := fun _ => ⟨by decide, by decide, 0, by decide, by decide⟩
    longName := fun _ => by decide
    longLabel := fun _ => ⟨[], [0, 1, 0, 1], by decide, rfl, by decide, by decide⟩
    activity := trivial
    responses := fun _ h => nomatch h }

theorem invariant_google : Invariant (withQ googleQ) :=
  { parameter := ⟨by decide, by decide⟩
    bufferLength := rfl
    bufferFits := by decide
    flagsClear := fun h => nomatch h
    question := fun _ => ⟨by decide, by decide, 11, by decide, by decide⟩
    longName := fun _ => by decide
    longLabel := fun _ => ⟨[google.take 6, google.drop 7], [0, 0x10, 0, 1], by decide, rfl, by decide, by decide⟩
    activity := trivial
    responses := fun _ h => nomatch h }

/-- Sixty-three bytes `x`, the longest label without LONG_LABEL. -/
def label63 : List Byte := List.replicate 63 0x78

theorem test_hypotheses_DecodeOfEncodeIsTheCommand :
    (Instr.getBit 11 7).WellFormed ∧ (Instr.setBit 0 0 true).WellFormed ∧
    (Instr.qBuild 0xFFFF 0xFFFF 0xFFFF).WellFormed := by decide

theorem test_hypotheses_EncodeOfDecodeIsTheWord : decode 0x58B7000000000001 = .ok (.setBit 11 7 true) := by decide

theorem test_hypotheses_AssembledLinesAreLegalCommands :
    assembleLine "SET_BIT 11, 7, 1".toList = some (.setBit 11 7 true) ∧
    assembleLine "SET_ID 0xFFFF".toList = some (.setId 0xFFFF) := by decide

theorem test_hypotheses_StepRunsTheDecodedCommand :
    ((sending [0x2000000000000000]).rst = false ∧ (sending [0x2000000000000000]).activity = .idle ∧
      (sending [0x2000000000000000]).cmds = [0x2000000000000000] ∧ decode 0x2000000000000000 = .ok .getId) ∧
    (after .hdrLoad small).rst = false ∧ (after .hdrLoad small).activity ≠ .idle := by decide

theorem test_hypotheses_IllegalWordIsAnsweredAndNothingElse :
    (sending [0, 1]).rst = false ∧ (sending [0, 1]).activity = .idle ∧ (sending [0, 1]).cmds = 0 :: [1] ∧
    decode 0 = .error .reservedOpcode ∧ HostReady (sending [0, 1]) :=
  ⟨rfl, rfl, rfl, by decide, rfl⟩

/-- One state for each of the four ways to wait. -/
theorem test_hypotheses_StepWithNoTransferChangesNothing :
    (small.activity = .idle ∧ small.cmds = []) ∧
    ((after .hdrLoad small).wantsByte = true ∧ (after .hdrLoad small).input = []) ∧
    (let s := after .hdrStore { withHdr h3 with outReady := .times 11 };
      s.nextOutByte.isSome = true ∧ s.outReady.grant 1 = 0) ∧
    (let s := after .getStatus { small with rspReady := .times 0 };
      s.activity = .responding 0 ∧ s.rspReady.grant 1 = 0) := by decide

/-- GET_STATUS and the illegal word 0, executed and as words; an illegal word accepted; a response presented. -/
theorem test_hypotheses_ResponseWaitsForTheHost :
    (let s := { small with rspReady := .times 0 };
      s.rspReady = .times 0 ∧
      (exec .getStatus (s.setRspReady (.times 1)) = .next (after .getStatus (s.setRspReady (.times 1))) ∧
        (after .getStatus (s.setRspReady (.times 1))).rsp = s.rsp ++ [0]) ∧
      runWord 0x0100000000000000 (s.setRspReady (.times 1)) = .next (after .getStatus (s.setRspReady (.times 1))) ∧
      (runWord 0 (s.setRspReady (.times 1)) = .next (s.setRspReady (.times 1)).illegal ∧
        (s.setRspReady (.times 1)).illegal.rsp = s.rsp ++ [0x00020000])) ∧
    (let s := { sending [0] with rspReady := .times 0 };
      s.rst = false ∧ s.activity = .idle ∧ s.cmds = 0 :: [] ∧ decode 0 = .error .reservedOpcode ∧ ¬ HostReady s) ∧
    (let u := { small with activity := .responding 0 };
      u.rst = false ∧ u.activity = .responding 0 ∧ HostReady u) :=
  ⟨⟨rfl, ⟨exec_after _ _, rfl⟩, rfl, rfl, rfl⟩, ⟨rfl, rfl, rfl, by decide, by unfold HostReady; decide⟩, rfl, rfl, rfl⟩

theorem test_hypotheses_OneResponsePerAcceptedCommand :
    (sending [0x0100000000000000]).rst = false ∧
    step (sending [0x0100000000000000]) = .next (afterStep (sending [0x0100000000000000])) := ⟨rfl, rfl⟩

theorem test_hypotheses_StreamsMoveOnlyForward :
    let s := { sending [0x1100000000000000] with input := tagLast h3 };
    step s = .next (afterStep s) := rfl

/-- HDR_LOAD reads, HDR_STORE writes, in the step that accepts them; each goes on when its stream lets it. -/
theorem test_hypotheses_TransfersOnlyInCommandsThatCallForThem :
    (let s := { sending [0x1100000000000000] with input := tagLast h3 };
      step s = .next (afterStep s) ∧ (afterStep s).input ≠ s.input) ∧
    (let s := (after .hdrLoad small).presentInput (tagLast h3);
      step s = .next (afterStep s) ∧ (afterStep s).input ≠ s.input) ∧
    (let s := { withHdr h3 with cmds := [0x1200000000000000] };
      step s = .next (afterStep s) ∧ (afterStep s).output ≠ s.output) ∧
    (let s := (after .hdrStore { withHdr h3 with outReady := .times 0 }).setOutReady .always;
      step s = .next (afterStep s) ∧ (afterStep s).output ≠ s.output) ∧
    exec .hdrLoad small = .next (after .hdrLoad small) :=
  ⟨⟨rfl, by decide⟩, ⟨rfl, by decide⟩, ⟨rfl, by decide⟩, ⟨rfl, by decide⟩, exec_after _ _⟩

theorem test_hypotheses_ResetPinGivesTheResetState :
    ((after .hdrLoad small).setRst true).rst = true ∧ (small.setRst true).rst = true := ⟨rfl, rfl⟩

theorem test_hypotheses_ResetStateHasTheInvariant :
    Config.Valid { qcap := 5 } ∧ Config.Valid { qcap := 65535 } ∧ Config.Valid Config.vectors := by
  unfold Config.Valid; decide

theorem test_hypotheses_EveryStepKeepsTheInvariant :
    Invariant (sending [0x0100000000000000]) ∧
    step (sending [0x0100000000000000]) = .next (afterStep (sending [0x0100000000000000])) :=
  ⟨invariant_sending _, rfl⟩

/-- HDR changes under a setter, HV under HDR_CLEAR, both under a held HDR_LOAD that ends. -/
theorem test_hypotheses_HeaderIsWrittenOnlyByItsWriters :
    (exec (.setId 1) (withHdr h3) = .next (after (.setId 1) (withHdr h3)) ∧
      (after (.setId 1) (withHdr h3)).hdr ≠ (withHdr h3).hdr) ∧
    (exec .hdrClear small = .next (after .hdrClear small) ∧ (after .hdrClear small).hv ≠ small.hv) ∧
    (let s := (after .hdrLoad small).presentInput (tagLast h3);
      ¬ SameHeaderSlot s s.advance) :=
  ⟨⟨exec_after _ _, by decide⟩, ⟨exec_after _ _, by decide⟩, by unfold SameHeaderSlot; decide⟩

/-- Q_BUILD and Q_LOAD, in one go and after a hold. -/
theorem test_hypotheses_QuestionIsWrittenOnlyByItsConstructors :
    (exec (.qBuild 0 1 1) small = .next (after (.qBuild 0 1 1) small) ∧
      ¬ SameQuestionSlot small (after (.qBuild 0 1 1) small)) ∧
    (exec .qLoad rootQ = .next (after .qLoad rootQ) ∧ ¬ SameQuestionSlot rootQ (after .qLoad rootQ)) ∧
    (let s := (after (.qBuild 1 1 1) small).presentInput (tagLast [0x61]);
      ¬ SameQuestionSlot s s.advance) ∧
    (let s := (after .qLoad small).presentInput (tagLast [0, 0, 1, 0, 1]);
      ¬ SameQuestionSlot s s.advance) := by
  refine ⟨⟨exec_after _ _, ?_⟩, ⟨exec_after _ _, ?_⟩, ?_, ?_⟩ <;> unfold SameQuestionSlot <;> decide

/-- The three ways IN_EOS goes back to 0. -/
theorem test_hypotheses_EosIsClearedOnlyByInNextOrReset :
    (let s := { sending [0x0200000000000000] with inEos := true };
      step s = .next (afterStep s) ∧ s.inEos = true ∧ (afterStep s).inEos = false) ∧
    (let s := { small with inEos := true, activity := .inNext };
      step s = .next (afterStep s) ∧ s.inEos = true ∧ (afterStep s).inEos = false) ∧
    (let s := { small with inEos := true, rst := true };
      step s = .next (afterStep s) ∧ s.inEos = true ∧ (afterStep s).inEos = false) :=
  ⟨⟨rfl, rfl, rfl⟩, ⟨rfl, rfl, rfl⟩, ⟨rfl, rfl, rfl⟩⟩

/-- HDR_CLEAR makes a header in that step. -/
theorem test_hypotheses_HeaderIsUnobservableWhileInvalid :
    Invariant (sending [0x1000000000000000]) ∧ (sending [0x1000000000000000]).hv = false ∧
    step (sending [0x1000000000000000]) = .next (afterStep (sending [0x1000000000000000])) ∧
    (afterStep (sending [0x1000000000000000])).hv = true := ⟨invariant_sending _, rfl, rfl, rfl⟩

/-- Q_BUILD of the empty name makes a question in that step. -/
theorem test_hypotheses_QuestionIsUnobservableWhileInvalid :
    Invariant (sending [0x6000000000010001]) ∧ (sending [0x6000000000010001]).qv = false ∧
    step (sending [0x6000000000010001]) = .next (afterStep (sending [0x6000000000010001])) ∧
    (afterStep (sending [0x6000000000010001])).qv = true := ⟨invariant_sending _, rfl, rfl, by decide⟩

theorem test_hypotheses_ArrivalOfInputInPiecesMakesNoDifference :
    (exec .hdrLoad small = .next (after .hdrLoad small) ∧ (after .hdrLoad small).wantsByte = true) ∧
    (exec .hdrLoad (withIn h3) = .next (after .hdrLoad (withIn h3)) ∧
      (after .hdrLoad (withIn h3)).wantsByte = false) :=
  ⟨⟨exec_after _ _, by decide⟩, ⟨exec_after _ _, by decide⟩⟩

/-! The pseudocode ends on one input and holds on another. -/

theorem test_hypotheses_HdrLoadStepsGiveItsPseudocode :
    (pseudoHdrLoad (withIn h3)).isSome = true ∧ pseudoHdrLoad small = none := by decide

/-- HDR_STORE and Q_STORE hold before their last byte, and end. -/
theorem test_hypotheses_StoreStepsGiveTheirPseudocode :
    ((pseudoHdrStore (withHdr h3)).isSome = true ∧
      pseudoHdrStore { withHdr h3 with outReady := .times 11 } = none ∧
      Invariant rootQ ∧ (pseudoQStore rootQ).isSome = true ∧
      Invariant { rootQ with outReady := .times 4 } ∧ pseudoQStore { rootQ with outReady := .times 4 } = none) ∧
    (let s := { withHdr h3 with outReady := .times 11 };
      exec .hdrStore s = .next (after .hdrStore s) ∧
        (after .hdrStore s).outData = some { byte := 0x00, last := true } ∧ (Readiness.times 1).grant 1 = 1) ∧
    (let s := { rootQ with outReady := .times 4 };
      exec .qStore s = .next (after .qStore s) ∧
        (after .qStore s).outData = some { byte := 0x01, last := true }) ∧
    (exec .hdrStore (withHdr h3) = .next (after .hdrStore (withHdr h3)) ∧
      (after .hdrStore (withHdr h3)).nextOutByte = none) ∧
    exec .qStore rootQ = .next (after .qStore rootQ) ∧ (after .qStore rootQ).nextOutByte = none :=
  ⟨⟨by decide, by decide, invariant_rootQ, by decide, { invariant_rootQ with }, by decide⟩,
    ⟨exec_after _ _, by decide, rfl⟩, ⟨exec_after _ _, by decide⟩, ⟨exec_after _ _, by decide⟩,
    exec_after _ _, by decide⟩

theorem test_hypotheses_QBuildStepsGiveItsPseudocode :
    (pseudoQBuild 10 16 1 (withIn google)).isSome = true ∧ pseudoQBuild 10 16 1 small = none := by decide

theorem test_hypotheses_QLoadStepsGiveItsPseudocode :
    (pseudoQLoad (withIn googleQ)).isSome = true ∧ pseudoQLoad small = none := by decide

/-- "google.com": after six bytes the separator is due, after nine the last byte. -/
theorem test_hypotheses_QNameStepsGiveItsPseudocode :
    (Invariant (withQ googleQ) ∧ (pseudoQName (withQ googleQ)).isSome = true ∧
      (after .qName (withQ googleQ)).nextOutByte = none) ∧
    (Invariant { withQ googleQ with outReady := .times 9 } ∧
      pseudoQName { withQ googleQ with outReady := .times 9 } = none) ∧
    (let s := { withQ googleQ with outReady := .times 6 };
      exec .qName s = .next (after .qName s) ∧
        (after .qName s).outData = some { byte := 0x2E, last := false }) ∧
    (let s := { withQ googleQ with outReady := .times 9 };
      exec .qName s = .next (after .qName s) ∧
        (after .qName s).outData = some { byte := 0x6D, last := true }) :=
  ⟨⟨invariant_google, by decide, by decide⟩, ⟨{ invariant_google with }, by decide⟩,
    ⟨exec_after _ _, by decide⟩, exec_after _ _, by decide⟩

/-- S3 in two pieces: Q_NAME held after six bytes goes on with the separator and ends with all ten. -/
theorem test_qName_resumes :
    let t := ((after .qName { withQ googleQ with outReady := .times 6 }).takeMore .always).advance
    t.output = tagLast google ∧ t.rsp = [0x0A] ∧ t.activity = .idle := by decide

/-- The host ready without limit, and for exactly one response: GET_STATUS, HDR_CLEAR, and every statement of this
shape. -/
theorem test_hypotheses_GetStatusAnswersTheFlags : HostReady small ∧ HostReady { small with rspReady := .times 1 } :=
  ⟨rfl, rfl⟩

theorem test_hypotheses_HdrClearMakesTheZeroHeader : HostReady small := rfl

theorem noEarlyLast_tagLast (l : List Byte) : NoEarlyLast (tagLast l) := by
  induction l with
  | nil => intro x h; nomatch h
  | cons b l ih =>
    cases l with
    | nil => intro x h; nomatch h
    | cons c l =>
      intro x h
      cases l <;> simp [tagLast, List.dropLast] at h ih <;> rcases h with rfl | h <;> first
        | rfl
        | exact ih x (by simpa [tagLast, List.dropLast] using h)

/-- From inside a message, and at IN_EOS = 1; the pseudocode ends on one input and holds on another. -/
theorem test_hypotheses_InNextSkipsToTheNextMessage :
    (let s := { small with input := tagLast [1, 2, 3] ++ tagLast [4, 5] };
      HostReady s ∧ RestOfMessage s (tagLast [1, 2, 3]) (tagLast [4, 5])) ∧
    (let s := { small with input := tagLast [4, 5], inEos := true };
      HostReady s ∧ RestOfMessage s [] (tagLast [4, 5])) ∧
    (pseudoInNext (withIn [1, 2, 3])).isSome = true ∧ pseudoInNext small = none :=
  ⟨⟨rfl, rfl, noEarlyLast_tagLast _, .inr ⟨rfl, rfl⟩⟩, ⟨rfl, rfl, noEarlyLast_tagLast [], .inl ⟨rfl, rfl⟩⟩,
    by decide, by decide⟩

/-- name_len at both ends of what QCAP 64 admits; the empty name at the smallest QCAP that holds it. -/
theorem test_hypotheses_EndOfStreamIsSticky :
    (let s := { small with inEos := true };
      HostReady s ∧ s.cfg.Valid ∧ s.inEos = true ∧ 1 ≤ (1 : Half).toNat ∧ (1 : Half).toNat + 6 ≤ s.cfg.qcap ∧
        1 ≤ (58 : Half).toNat ∧ (58 : Half).toNat + 6 ≤ s.cfg.qcap) ∧
    (let s := { small with cfg := { qcap := 6 }, inEos := true };
      HostReady s ∧ 6 ≤ s.cfg.qcap) :=
  ⟨⟨rfl, by unfold Config.Valid; decide, rfl, by decide, by decide, by decide, by decide⟩, rfl, by decide⟩

/-- Exactly one message, and twelve bytes of a longer one. -/
theorem test_hypotheses_HdrLoadTakesTwelveBytes :
    (HostReady (withIn h3) ∧ Available (withIn h3) (tagLast h3) [] ∧ (tagLast h3).length = 12) ∧
    (let l := (tagLast (h3 ++ [0x99])).take 12;
      Available (withIn (h3 ++ [0x99])) l (tagLast [0x99]) ∧ l.length = 12) :=
  ⟨⟨rfl, ⟨rfl, noEarlyLast_tagLast _, .inl rfl⟩, rfl⟩, ⟨rfl, by unfold NoEarlyLast; decide, .inl rfl⟩, rfl⟩

/-- Eleven bytes, and none at IN_EOS = 1. -/
theorem test_hypotheses_HdrLoadOfAShortMessageIsTruncated :
    (HostReady (withIn (h3.take 11)) ∧ RestOfMessage (withIn (h3.take 11)) (tagLast (h3.take 11)) [] ∧
      (tagLast (h3.take 11)).length < 12) ∧
    (let s := { withIn h3 with inEos := true };
      HostReady s ∧ RestOfMessage s [] (tagLast h3)) :=
  ⟨⟨rfl, ⟨rfl, noEarlyLast_tagLast _, .inr ⟨rfl, rfl⟩⟩, by decide⟩,
    rfl, rfl, noEarlyLast_tagLast [], .inl ⟨rfl, rfl⟩⟩

theorem test_hypotheses_HdrStoreWritesTheHeader :
    let s := { withHdr h3 with outReady := .times 12, rspReady := .times 1 };
    s.hv = true ∧ HostReady s ∧ TransportReady s 12 := ⟨rfl, rfl, rfl⟩

theorem test_hypotheses_HeaderLoadAndStoreAreInverse :
    ((withIn h3).rspReady = .always ∧ (withIn h3).outReady = .always ∧
      exec .hdrLoad (withIn h3) = .next (after .hdrLoad (withIn h3)) ∧ (after .hdrLoad (withIn h3)).hv = true ∧
      exec .hdrStore (after .hdrLoad (withIn h3)) = .next (after .hdrStore (after .hdrLoad (withIn h3)))) ∧
    (let other := withIn (withHdr h3).hdr.toList;
      (withHdr h3).hv = true ∧ HostReady other ∧ other.inEos = false ∧
        other.input = tagLast (withHdr h3).hdr.toList ++ [] ∧ exec .hdrLoad other = .next (after .hdrLoad other)) :=
  ⟨⟨rfl, rfl, exec_after _ _, by decide, exec_after _ _⟩, rfl, rfl, rfl, by decide, exec_after _ _⟩

/-! The 26 accessors: a valid header, the host ready; for the laws, the commands of the table and another getter. -/

theorem test_hypotheses_SixteenBitGettersReadBigEndian : (withHdr h3).hv = true ∧ HostReady (withHdr h3) := ⟨rfl, rfl⟩

theorem test_hypotheses_SixteenBitSettersWriteTheirTwoBytes : (withHdr h3).hv = true ∧ HostReady (withHdr h3) :=
  ⟨rfl, rfl⟩

theorem test_hypotheses_FlagGettersReadTheirBit : (withHdr h3).hv = true ∧ HostReady (withHdr h3) := ⟨rfl, rfl⟩

theorem test_hypotheses_FlagSettersWriteTheirBitOnly : (withHdr h3).hv = true ∧ HostReady (withHdr h3) := ⟨rfl, rfl⟩

theorem test_hypotheses_EnumeratedGettersAnswerTheSymbol : (withHdr h3).hv = true ∧ HostReady (withHdr h3) :=
  ⟨rfl, rfl⟩

theorem test_hypotheses_EnumeratedSettersWriteTheirFourBits : (withHdr h3).hv = true ∧ HostReady (withHdr h3) :=
  ⟨rfl, rfl⟩

/-- SET_ARCOUNT, the last row; another getter: GET_BIT of a byte outside the field. -/
theorem test_hypotheses_SixteenBitFieldLaws :
    (withHdr h3).hv = true ∧ (withHdr h3).rspReady = .always ∧
    exec (.setArcount 1) (withHdr h3) = .next (after (.setArcount 1) (withHdr h3)) ∧
    (headerRead (.getBit 9 7)).isSome = true ∧ Instr.getBit 9 7 ≠ .getArcount ∧
    (∀ p, Instr.getBit 9 7 ≠ .getBit (BitVec.ofNat 4 10) p ∧ Instr.getBit 9 7 ≠ .getBit (BitVec.ofNat 4 (10 + 1)) p) :=
  ⟨rfl, rfl, exec_after _ _, rfl, by decide, by decide⟩

/-- SET_RA; another getter: the bit beside it. -/
theorem test_hypotheses_FlagLaws :
    (withHdr h3).hv = true ∧ (withHdr h3).rspReady = .always ∧
    exec (.setRa true) (withHdr h3) = .next (after (.setRa true) (withHdr h3)) ∧
    (headerRead (.getBit 3 1)).isSome = true ∧ Instr.getBit 3 1 ≠ .getRa ∧
    Instr.getBit 3 1 ≠ .getBit (BitVec.ofNat 4 3) (BitVec.ofNat 3 0) :=
  ⟨rfl, rfl, exec_after _ _, rfl, by decide, by decide⟩

/-- The bits next to OPCODE and RCODE; raw OPCODE 4 and 15, raw RCODE 6 and 15. -/
theorem test_hypotheses_EnumeratedFieldLaws :
    ((withHdr h3).hv = true ∧ (withHdr h3).rspReady = .always ∧
      exec (.setOpcode .status) (withHdr h3) = .next (after (.setOpcode .status) (withHdr h3)) ∧
      exec (.setRcode .refused) (withHdr h3) = .next (after (.setRcode .refused) (withHdr h3)) ∧
      (headerRead (.getBit 2 5)).isSome = true ∧ Instr.getBit 2 5 ≠ .getOpcode ∧
      (∀ p, Instr.getBit 2 5 = .getBit 2 p → ¬ (1 ≤ p.toNat ∧ p.toNat ≤ 4)) ∧
      (headerRead (.getBit 3 3)).isSome = true ∧ Instr.getBit 3 3 ≠ .getRcode ∧
      (∀ p, Instr.getBit 3 3 = .getBit 3 p → ¬ (4 ≤ p.toNat ∧ p.toNat ≤ 7))) ∧
    4 ≤ (opcodeRaw (withHdr [0, 0, 0x20, 0x06]).hdr).toNat ∧ 6 ≤ (rcodeRaw (withHdr [0, 0, 0x20, 0x06]).hdr).toNat ∧
    4 ≤ (opcodeRaw (withHdr [0, 0, 0x78, 0x0F]).hdr).toNat ∧ 6 ≤ (rcodeRaw (withHdr [0, 0, 0x78, 0x0F]).hdr).toNat :=
  ⟨⟨rfl, rfl, exec_after _ _, exec_after _ _, rfl, by decide, by decide, rfl, by decide, by decide⟩,
    by decide, by decide, by decide, by decide⟩

theorem test_hypotheses_BitAccessorsReachEveryHeaderBit :
    ((withHdr h3).hv = true ∧ HostReady (withHdr h3) ∧ (0 : BitVec 4).toNat ≤ 11 ∧ (11 : BitVec 4).toNat ≤ 11) ∧
    12 ≤ (12 : BitVec 4).toNat ∧ 12 ≤ (15 : BitVec 4).toNat ∧ HostReady small :=
  ⟨⟨rfl, rfl, by decide, by decide⟩, by decide, by decide, rfl⟩

/-- "google.com" at QCAP 16, which it just fits, and the empty name. -/
theorem test_hypotheses_QBuildEncodesTheName :
    (let s := { withIn google with cfg := { qcap := 16 } };
      HostReady s ∧ Available s (tagLast google) [] ∧ (tagLast google).length = (10 : Half).toNat ∧
        (10 : Half).toNat + 6 ≤ s.cfg.qcap ∧ ∀ label ∈ split (untagged (tagLast google)), label.length ≤ 255) ∧
    (HostReady small ∧ Available small [] [] ∧ ([] : List TaggedByte).length = (0 : Half).toNat ∧
      (0 : Half).toNat + 6 ≤ small.cfg.qcap ∧ ∀ label ∈ split (untagged []), label.length ≤ 255) :=
  ⟨⟨rfl, ⟨rfl, noEarlyLast_tagLast _, .inl rfl⟩, by decide, by decide, by decide⟩,
    rfl, ⟨rfl, noEarlyLast_tagLast [], .inl rfl⟩, by decide, by decide, by decide⟩

/-- One byte too many for QCAP; one byte short of name_len; a label of 256 bytes. -/
theorem test_hypotheses_QBuildFailuresInOrder :
    (HostReady small ∧ (59 : Half).toNat + 6 > small.cfg.qcap) ∧
    (HostReady (withIn google) ∧ (11 : Half).toNat + 6 ≤ (withIn google).cfg.qcap ∧
      RestOfMessage (withIn google) (tagLast google) [] ∧ (tagLast google).length < (11 : Half).toNat) ∧
    (let name := List.replicate 256 (0x78 : Byte);
      let s := { withIn name with cfg := { qcap := 262 } };
      HostReady s ∧ (256 : Half).toNat + 6 ≤ s.cfg.qcap ∧ Available s (tagLast name) [] ∧
        (tagLast name).length = (256 : Half).toNat ∧
        ∃ label ∈ split (untagged (tagLast name)), 255 < label.length) :=
  ⟨⟨rfl, by decide⟩, ⟨rfl, by decide, ⟨rfl, noEarlyLast_tagLast _, .inr ⟨rfl, rfl⟩⟩, by decide⟩,
    rfl, by decide, ⟨(List.append_nil _).symm, noEarlyLast_tagLast _, .inl rfl⟩, by decide +kernel, by decide +kernel⟩

/-- L12b: the root question at QCAP 5; a label of 63 bytes. -/
theorem test_hypotheses_QLoadParsesAWireQuestion :
    (let s := { withIn [0, 0, 1, 0, 1] with cfg := { qcap := 5 } };
      let l := tagLast [0, 0, 1, 0, 1];
      HostReady s ∧ Available s l [] ∧ WireLabels [] ∧ untagged l = wireLabels [] ++ 0 :: [0, 1, 0, 1] ∧
        l.length ≤ s.cfg.qcap) ∧
    (let s := { withIn (0x3F :: label63 ++ [0, 0, 1, 0, 1]) with cfg := { qcap := 69 } };
      let l := tagLast (0x3F :: label63 ++ [0, 0, 1, 0, 1]);
      HostReady s ∧ Available s l [] ∧ WireLabels [label63] ∧
        untagged l = wireLabels [label63] ++ 0 :: [0, 1, 0, 1] ∧ l.length ≤ s.cfg.qcap) :=
  ⟨⟨rfl, ⟨rfl, noEarlyLast_tagLast _, .inl rfl⟩, by unfold WireLabels; decide, by decide, by decide⟩,
    rfl, ⟨(List.append_nil _).symm, noEarlyLast_tagLast _, .inl rfl⟩, by unfold WireLabels; decide, by decide, by decide⟩

/-- S5: "com" without a terminator; L12: five bytes at QCAP 5. -/
theorem test_hypotheses_QLoadFailuresInOrder :
    (let s := withIn [3, 0x63, 0x6F, 0x6D];
      HostReady s ∧ Unfinished (untagged (tagLast [3, 0x63, 0x6F, 0x6D])) ∧
        RestOfMessage s (tagLast [3, 0x63, 0x6F, 0x6D]) [] ∧ (tagLast [3, 0x63, 0x6F, 0x6D]).length < s.cfg.qcap) ∧
    (let s := { withIn [1, 0x61, 0, 0, 1] with cfg := { qcap := 5 } };
      HostReady s ∧ Unfinished (untagged (tagLast [1, 0x61, 0, 0, 1])) ∧
        Available s (tagLast [1, 0x61, 0, 0, 1]) [] ∧ (tagLast [1, 0x61, 0, 0, 1]).length = s.cfg.qcap) :=
  ⟨⟨rfl, by unfold Unfinished; decide, ⟨rfl, noEarlyLast_tagLast _, .inr ⟨rfl, rfl⟩⟩, by decide⟩,
    rfl, by unfold Unfinished; decide, ⟨rfl, noEarlyLast_tagLast _, .inl rfl⟩, by decide⟩

theorem test_hypotheses_QStoreWritesTheQuestion :
    Invariant rootQ ∧ rootQ.qv = true ∧ HostReady rootQ ∧ TransportReady { rootQ with outReady := .times 5 } rootQ.qlen :=
  ⟨invariant_rootQ, rfl, rfl, rfl⟩

/-- The root name, and "google.com". -/
theorem test_hypotheses_QNameWritesTheDottedName :
    (Invariant rootQ ∧ rootQ.qv = true ∧ HostReady rootQ ∧ WireLabels [] ∧
      rootQ.qbuf = wireLabels [] ++ 0 :: [0, 1, 0, 1] ∧ TransportReady rootQ (joinLabels []).length) ∧
    (let labels : List (List Byte) := [google.take 6, google.drop 7];
      Invariant (withQ googleQ) ∧ (withQ googleQ).qv = true ∧ HostReady (withQ googleQ) ∧ WireLabels labels ∧
        (withQ googleQ).qbuf = wireLabels labels ++ 0 :: [0, 0x10, 0, 1] ∧
        TransportReady (withQ googleQ) (joinLabels labels).length) :=
  ⟨⟨invariant_rootQ, rfl, rfl, by unfold WireLabels; decide, by decide, rfl⟩,
    invariant_google, rfl, rfl, by unfold WireLabels; decide, by decide, rfl⟩

theorem test_hypotheses_QuestionGettersReadTheTail :
    rootQ.qv = true ∧ HostReady rootQ ∧ rootQ.qbuf = [0] ++ [0, 1, 0, 1] ∧ rootQ.qlen = rootQ.qbuf.length :=
  ⟨rfl, rfl, rfl, rfl⟩

/-- "google.com"; and a name of one empty label for the second clause. -/
theorem test_hypotheses_BuiltQuestionReadsBack :
    (let s := withIn google;
      let t := after (.qBuild 10 16 1) s;
      s.cfg.Valid ∧ s.rspReady = .always ∧ s.outReady = .always ∧ Available s (tagLast google) [] ∧
        (tagLast google).length = (10 : Half).toNat ∧ (10 : Half).toNat + 6 ≤ s.cfg.qcap ∧
        (∀ label ∈ split (untagged (tagLast google)), 1 ≤ label.length ∧ label.length ≤ 255) ∧
        exec (.qBuild 10 16 1) s = .next t ∧ exec .qName t = .next (after .qName t)) ∧
    (small.rspReady = .always ∧ exec (.qBuild 0 1 1) small = .next (after (.qBuild 0 1 1) small) ∧
      (after (.qBuild 0 1 1) small).qv = true) :=
  ⟨⟨by unfold Config.Valid; decide, rfl, rfl, ⟨rfl, noEarlyLast_tagLast _, .inl rfl⟩, by decide, by decide, by decide,
      exec_after _ _, exec_after _ _⟩,
    rfl, exec_after _ _, by decide⟩

theorem test_hypotheses_LoadedQuestionIsStoredAsItCame :
    let s := withIn googleQ;
    let t := after .qLoad s;
    s.cfg.Valid ∧ s.rspReady = .always ∧ s.outReady = .always ∧ exec .qLoad s = .next t ∧ t.qv = true ∧
      exec .qStore t = .next (after .qStore t) :=
  ⟨by unfold Config.Valid; decide, rfl, rfl, exec_after _ _, by decide, exec_after _ _⟩

/-- The walk ends at QLEN - 5, and before it (vector L16). -/
theorem test_hypotheses_StoredQuestionLoadsBack :
    (let other := { withIn rootQ.qbuf with cfg := { qcap := 5 } };
      Invariant rootQ ∧ rootQ.qv = true ∧ walkEnd rootQ.qbuf = some 0 ∧ HostReady other ∧ other.inEos = false ∧
        rootQ.qlen ≤ other.cfg.qcap ∧ other.input = tagLast rootQ.qbuf ++ [] ∧
        exec .qLoad other = .next (after .qLoad other) ∧ 0 = rootQ.qlen - 5) ∧
    (let s := withQ [1, 0x61, 0, 1, 0x62, 0, 0x12, 0x34, 0x56, 0x78];
      let other := withIn s.qbuf;
      Invariant s ∧ s.qv = true ∧ walkEnd s.qbuf = some 2 ∧ HostReady other ∧ other.inEos = false ∧
        s.qlen ≤ other.cfg.qcap ∧ other.input = tagLast s.qbuf ++ [] ∧
        exec .qLoad other = .next (after .qLoad other)) :=
  ⟨⟨invariant_rootQ, rfl, by decide, rfl, rfl, by decide, by decide, exec_after _ _, by decide⟩,
    { parameter := ⟨by decide, by decide⟩
      bufferLength := rfl
      bufferFits := by decide
      flagsClear := fun h => nomatch h
      question := fun _ => ⟨by decide, by decide, 2, by decide, by decide⟩
      longName := fun _ => by decide
      longLabel := fun _ =>
        ⟨[[0x61], [], [0x62]], [0x12, 0x34, 0x56, 0x78], by decide, rfl, by decide, by decide⟩
      activity := trivial
      responses := fun _ h => nomatch h },
    rfl, by decide, rfl, rfl, by decide, by decide, exec_after _ _⟩

theorem test_hypotheses_MissingObjectIsRefusedUnchanged :
    ((Instr.getBit 11 7).WellFormed ∧ HostReady small ∧ needsHeader (.getBit 11 7) = true ∧ small.hv = false) ∧
    (HostReady small ∧ needsQuestion .qGetLen = true ∧ small.qv = false) ∧
    (needsHeader .getStatus = false ∧ needsQuestion .getStatus = false ∧
      exec .getStatus small = .next (after .getStatus small)) :=
  ⟨⟨rfl, rfl, rfl, rfl⟩, ⟨rfl, rfl, rfl⟩, rfl, rfl, exec_after _ _⟩

/-- A command that ends OK, and one that ends in NO_OBJECT. -/
theorem test_hypotheses_CommandsEndOnlyInTheirStatuses :
    (Instr.getId.WellFormed ∧ HostReady (withHdr h3) ∧ exec .getId (withHdr h3) = .next (after .getId (withHdr h3)) ∧
      (after .getId (withHdr h3)).activity = .idle) ∧
    (HostReady small ∧ exec .getId small = .next (after .getId small) ∧ (after .getId small).activity = .idle) :=
  ⟨⟨rfl, rfl, exec_after _ _, rfl⟩, rfl, exec_after _ _, rfl⟩

theorem test_hypotheses_TransfersStayWithinTheirBounds :
    Invariant (withQ googleQ) ∧ exec .qName (withQ googleQ) = .next (after .qName (withQ googleQ)) :=
  ⟨invariant_google, exec_after _ _⟩

/-- IN_EOS = 1 for IN_NEXT; a message that ends; as many untagged bytes as the bound. -/
theorem test_hypotheses_ServedCommandsEnd :
    (let s := { sending [] with inEos := true };
      Invariant s ∧ HostReady s ∧ s.inEos = true ∧ TransportReady s (outputBound .inNext s) ∧
        exec .inNext s = .next (after .inNext s)) ∧
    (let s := { sending [] with input := tagLast [1] };
      Invariant s ∧ HostReady s ∧ eosOf s.input = true ∧ TransportReady s (outputBound .hdrLoad s) ∧
        exec .hdrLoad s = .next (after .hdrLoad s)) ∧
    (let s := { sending [] with input := (tagLast (h3 ++ [0])).take 12 };
      Invariant s ∧ HostReady s ∧ Instr.hdrLoad ≠ .inNext ∧ inputBound .hdrLoad s ≤ s.input.length ∧
        TransportReady s (outputBound .hdrLoad s) ∧ exec .hdrLoad s = .next (after .hdrLoad s)) :=
  ⟨⟨{ invariant_sending [] with }, rfl, rfl, rfl, exec_after _ _⟩,
    ⟨{ invariant_sending [] with }, rfl, rfl, rfl, exec_after _ _⟩,
    { invariant_sending [] with }, rfl, by decide, by decide, rfl, exec_after _ _⟩

end Sys2Proof.Tests
end

section
/-! PROOFS for 10_state.md: the reset state has the invariant and every step keeps it (R24, R26, R27, R31, R36). -/

namespace Sys2Proof.Machine

/-! ### What the reading loop keeps -/

/-- What each byte read keeps holds where the reading command ends and where it holds. -/
theorem State.afterReads_keeps {α ε : Type} (Q : State → Prop) (P : α → Prop) (r : Reader α ε) (s : State)
    (held : α → Activity) (finish : State → ε → State) (a : α) (ha : P a)
    (ht : ∀ a eos x, P a → r.ends a eos = none → P (r.take a x))
    (hend : ∀ a e rest eos, P a → r.ends a eos = some e → Q (finish { s with input := rest, inEos := eos } e))
    (hhold : ∀ a eos, P a → r.ends a eos = none → Q { s with input := [], inEos := eos, activity := held a }) :
    Q (s.afterReads held finish (consume r s.input s.inEos a)) := by
  generalize s.input = input, s.inEos = eos
  induction input generalizing eos a with
  | nil =>
    cases he : r.ends a eos with
    | some e => rw [consume_of_ends r _ _ _ e he]; exact hend a e [] eos ha he
    | none => rw [consume_nil_of_wants r _ _ he]; exact hhold a eos ha he
  | cons x rest ih =>
    cases he : r.ends a eos with
    | some e => rw [consume_of_ends r _ _ _ e he]; exact hend a e _ eos ha he
    | none => rw [consume_cons_of_wants r _ _ _ _ he]; exact ih _ (ht a eos x.byte ha he) _

/-! ### The invariant without the command in execution -/

/-- The invariant holds of everything but the transient state: it would hold if the command in execution were over. -/
def Settled (s : State) : Prop := Invariant { s with activity := .idle }

theorem Invariant.settled {s : State} (h : Invariant s) : Settled s :=
  { h with activity := trivial }

theorem Settled.invariant {s : State} (h : Settled s) (ha : ActivityInvariant s) : Invariant s :=
  { h with activity := ha }

/-! It speaks of the question slot, the parameter and the responses only. -/

theorem Settled.setInput {s : State} (h : Settled s) (rest : List TaggedByte) (eos : Bool) :
    Settled { s with input := rest, inEos := eos } := { h with }

theorem Settled.setOutput {s : State} (h : Settled s) (output : List TaggedByte) (ready : Readiness) :
    Settled { s with output := output, outReady := ready } := { h with }

theorem Settled.setHeader {s : State} (h : Settled s) (hdr : Header) (hv : Bool) :
    Settled { s with hdr := hdr, hv := hv } := { h with }

theorem Settled.freeHdr {s : State} (h : Settled s) : Settled s.freeHdr := { h with }

theorem Settled.accept {s : State} (h : Settled s) (rest : List CmdWord) : Settled (s.accept rest) := { h with }

/-! ### Responses -/

theorem legalResponse_rspWord {st : Status} {data : Half} (h : st ≠ .ok → data = 0) :
    LegalResponse (rspWord st data) := ⟨st, data, rfl, h⟩

/-- A legal response, taken or presented. -/
theorem Settled.deliver {s : State} (h : Settled s) {r : RspWord} (hr : LegalResponse r) : Invariant (s.deliver r) := by
  by_cases hh : HostReady s
  · rw [State.deliver_ready hh]
    refine { h with responses := fun x hx => ?_ }
    rcases List.mem_append.1 hx with hx | hx
    · exact h.responses x hx
    · rwa [List.mem_singleton.1 hx]
  · rw [State.deliver_waiting hh]
    exact { h with activity := hr }

theorem Settled.done {s : State} (h : Settled s) (data : Half) : Invariant (s.done data) :=
  h.deliver (legalResponse_rspWord fun hne => absurd rfl hne)

theorem Settled.fail {s : State} (h : Settled s) (st : Status) : Invariant (s.fail st) :=
  h.deliver (legalResponse_rspWord fun _ => rfl)

theorem Settled.failHeader {s : State} (h : Settled s) (st : Status) : Invariant (s.failHeader st) :=
  (h.setHeader _ _).freeHdr.fail st

/-! ### The question slot -/

/-- With QV = 0 and the advisory flags 0, any buffer of QLEN bytes within QCAP will do. -/
theorem Settled.of_invalid {s : State} (hp : s.cfg.Valid) (hb : s.qbuf.length = s.qlen) (hf : s.qlen ≤ s.cfg.qcap)
    (hq : s.qv = false) (hl : s.longLabel = false) (hn : s.longName = false) (hr : ∀ r ∈ s.rsp, LegalResponse r) :
    Settled s :=
  { parameter := hp
    bufferLength := hb
    bufferFits := hf
    flagsClear := fun _ => ⟨hl, hn⟩
    question := fun h => by cases hq.symm.trans h
    longName := fun h => by cases hq.symm.trans h
    longLabel := fun h => by cases hq.symm.trans h
    activity := trivial
    responses := hr }

theorem State.freeQlen_le (s : State) : s.freeQlen ≤ s.cfg.qcap :=
  Nat.le_of_lt_succ (Nat.mod_lt _ (Nat.succ_pos _))

/-- The free values of QBUF and QLEN keep the bound of R24. -/
theorem Settled.freeQuestion {s : State} (h : Settled s) (hq : s.qv = false) : Settled s.freeQuestion :=
  have hflags := h.flagsClear hq
  .of_invalid h.parameter (by simp) s.freeQlen_le hq hflags.1 hflags.2 h.responses

theorem Settled.dropQuestion {s : State} (h : Settled s) : Settled s.dropQuestion :=
  .of_invalid h.parameter h.bufferLength h.bufferFits rfl rfl rfl h.responses

theorem Settled.failQuestion {s : State} (h : Settled s) (st : Status) : Invariant (s.failQuestion st) :=
  (h.dropQuestion.freeQuestion rfl).fail st

theorem Settled.applyReset {s : State} (h : Settled s) : Invariant s.applyReset :=
  (Settled.of_invalid (s := s.applyReset) h.parameter (by simp [State.applyReset]) (State.freeQlen_le _) rfl rfl rfl
    h.responses).invariant trivial

/-! ### The form of a question (R26, R27) -/

/-- What a constructor ends with: labels of at most 255 bytes each after its length byte, a terminator and four bytes,
within the capacity, and whether a label has 64 bytes or more. -/
def IsQuestion (qcap : Nat) (q : List Byte × Bool) : Prop :=
  ∃ (labels : List (List Byte)) (tail : List Byte), (∀ l ∈ labels, l.length ≤ 255) ∧ tail.length = 4 ∧
    q.1 = wireLabels labels ++ 0 :: tail ∧ q.2 = (labels.any fun l => decide (64 ≤ l.length)) ∧ q.1.length ≤ qcap

/-- The labels before the first empty one spell a beginning of the buffer that ends in a zero byte. -/
theorem exists_wireLabels_shown (labels : List (List Byte)) (tail : List Byte) (h : ∀ l ∈ labels, l.length ≤ 255) :
    ∃ shown rest, WireLabels shown ∧ wireLabels labels ++ 0 :: tail = wireLabels shown ++ 0 :: rest ∧
      (wireLabels shown).length ≤ (wireLabels labels).length := by
  induction labels with
  | nil => exact ⟨[], tail, by simp [WireLabels], rfl, Nat.le_refl _⟩
  | cons l labels ih =>
    cases l with
    | nil => exact ⟨[], wireLabels labels ++ 0 :: tail, by simp [WireLabels], by simp, by simp⟩
    | cons b l =>
      obtain ⟨shown, rest, hw, he, hle⟩ := ih fun m hm => h m (by simp [hm])
      refine ⟨(b :: l) :: shown, rest, ?_, by simpa using he, by simpa using hle⟩
      exact List.forall_mem_cons.2 ⟨⟨by simp, h _ (by simp)⟩, hw⟩

theorem questionBytes_wireLabels {labels : List (List Byte)} {tail : List Byte} (h : ∀ l ∈ labels, l.length ≤ 255)
    (ht : tail.length = 4) : QuestionBytes (wireLabels labels ++ 0 :: tail) := by
  have hlen : (wireLabels labels ++ 0 :: tail).length - 5 = (wireLabels labels).length := by simp [ht]
  obtain ⟨shown, rest, hw, he, hle⟩ := exists_wireLabels_shown labels tail h
  refine ⟨by simp [ht], ?_, (wireLabels shown).length, ?_, by omega⟩
  · rw [hlen, qByte_append]
  · rw [he, walkEnd_wire shown hw]

theorem IsQuestion.labelsSeen {qcap : Nat} {q : List Byte × Bool} (h : IsQuestion qcap q) : LabelsSeen q.1 q.2 := by
  obtain ⟨labels, tail, hl, ht, hbuf, hll, -⟩ := h
  exact ⟨labels, tail, hl, ht, hbuf, by simp [hll]⟩

theorem IsQuestion.questionBytes {qcap : Nat} {q : List Byte × Bool} (h : IsQuestion qcap q) : QuestionBytes q.1 := by
  obtain ⟨labels, tail, hl, ht, hbuf, -, -⟩ := h
  rw [hbuf]
  exact questionBytes_wireLabels hl ht

theorem IsQuestion.fits {qcap : Nat} {q : List Byte × Bool} (h : IsQuestion qcap q) : q.1.length ≤ qcap := by
  obtain ⟨-, -, -, -, -, -, hfits⟩ := h
  exact hfits

theorem Settled.commitQuestion {s : State} (h : Settled s) {q : List Byte × Bool} (hq : IsQuestion s.cfg.qcap q) :
    Invariant (s.commitQuestion q.1 q.2) := by
  refine Settled.done ?_ _
  exact
    { parameter := h.parameter
      bufferLength := rfl
      bufferFits := hq.fits
      flagsClear := fun hv => nomatch hv
      question := fun _ => hq.questionBytes
      longName := fun _ => rfl
      longLabel := fun _ => hq.labelsSeen
      activity := trivial
      responses := h.responses }

theorem Settled.finishQuestion {s : State} (h : Settled s) {end_ : Except Status (List Byte × Bool)}
    (hq : ∀ q, end_ = .ok q → IsQuestion s.cfg.qcap q) : Invariant (finishQuestion s end_) := by
  cases end_ with
  | ok q => exact h.commitQuestion (hq q rfl)
  | error st => exact h.failQuestion st

/-! ### The header's stream commands and IN_NEXT -/

/-- HDR_LOAD, the twelve bytes not yet staged (40_header_lifecycle.md R124). -/
theorem Settled.continueHdrLoad {s : State} (h : Settled s) (hv : s.hv = false) {staged : List Byte}
    (hs : staged.length ≤ 12) : Invariant (continueHdrLoad s staged) := by
  refine State.afterReads_keeps Invariant (fun staged => staged.length ≤ 12) _ _ _ _ staged hs ?_ ?_ ?_
  · intro a eos x hle hw
    have hne : a.length ≠ 12 := fun he => by simp [hdrLoad_ends_full a eos he] at hw
    simp only [hdrLoadReader, List.length_append, List.length_singleton]
    omega
  · intro a e rest eos _ _
    cases e with
    | some hdr => exact ((h.setInput rest eos).setHeader hdr true).done 0
    | none => exact (h.setInput rest eos).failHeader _
  · intro a eos hle _
    exact { h with activity := ⟨hv, hle⟩ }

/-- HDR_STORE: where it holds, a byte is left to write, so the offset is within the header (R125). -/
theorem Settled.continueHdrStore {s : State} (h : Settled s) (hv : s.hv = true) (k : Nat) :
    Invariant (continueHdrStore s k) := by
  refine State.writeFrom_of Invariant _ _ _ _ _ _ ?_ ?_
  · intro w k' _ _
    exact (h.setOutput _ _).done 12
  · intro w k' hp hsome
    have hk' : k' ≤ 12 := by
      by_contra hgt
      rw [hdrStoreNext, if_neg (by omega)] at hsome
      cases hsome
    exact { h with activity := ⟨hv, hk'⟩ }

theorem Settled.continueInNext {s : State} (h : Settled s) : Invariant (continueInNext s) := by
  refine State.afterReads_of Invariant _ _ _ _ ?_ ?_
  · intro e rest eos _
    exact (h.setInput rest false).done 0
  · intro a eos _
    exact { h with activity := trivial }

/-! ### Q_BUILD (42_question.md R195) -/

/-- Splitting a string turns each byte into one byte, a separator into the length byte of the next label. -/
theorem wireLabels_splitLoop_length (n : List Byte) (labels : List (List Byte)) (cur : List Byte) :
    (wireLabels (splitLoop n labels cur)).length = (wireLabels labels).length + cur.length + n.length + 1 := by
  induction n generalizing labels cur with
  | nil => simp [splitLoop]; omega
  | cons x n ih =>
    by_cases hx : x = separator
    · simp [splitLoop, hx, ih]; omega
    · simp [splitLoop, hx, ih]; omega

theorem wireLabels_split_length (n : List Byte) : (wireLabels (split n)).length = n.length + 1 := by
  simp [split, wireLabels_splitLoop_length]

/-- Q_BUILD of a name that passed the capacity test makes a question that fits. -/
theorem QBuild.finish_isQuestion {nameLen qtype qclass : Half} {name : List Byte} {qcap : Nat} {q : List Byte × Bool}
    (hcap : name.length + 6 ≤ qcap)
    (h : (name.foldl QBuild.take (QBuild.start nameLen qtype qclass)).finish = .ok q) : IsQuestion qcap q := by
  rw [QBuild.finish_foldl] at h
  split at h
  · cases h
  · rename_i hshort
    cases h
    refine ⟨split name, [hi8 qtype, lo8 qtype, hi8 qclass, lo8 qclass], by simpa using hshort, rfl, rfl, rfl, ?_⟩
    simp [questionTail, wireLabels_split_length]
    omega

/-- Q_BUILD with the bytes `name` taken. -/
theorem Settled.continueQBuild {s : State} (h : Settled s) (hv : s.qv = false) {nameLen qtype qclass : Half}
    (hcap : nameLen.toNat + 6 ≤ s.cfg.qcap) {name : List Byte} (hn : name.length ≤ nameLen.toNat) :
    Invariant (continueQBuild s (name.foldl QBuild.take (QBuild.start nameLen qtype qclass))) := by
  refine State.afterReads_keeps Invariant
    (fun b => ∃ name : List Byte, name.length ≤ nameLen.toNat ∧
      b = name.foldl QBuild.take (QBuild.start nameLen qtype qclass)) _ _ _ _ _ ⟨name, hn, rfl⟩ ?_ ?_ ?_
  · rintro _ eos x ⟨name, hle, rfl⟩ hw
    have hne : name.length ≠ nameLen.toNat := fun he => by simp [qBuild_ends_full _ _ _ name eos he] at hw
    refine ⟨name ++ [x], ?_, by rw [List.foldl_append]; rfl⟩
    simp only [List.length_append, List.length_singleton]
    omega
  · rintro _ e rest eos ⟨name, hle, rfl⟩ he
    refine (h.setInput rest eos).finishQuestion ?_
    rintro q rfl
    by_cases hfull : name.length = nameLen.toNat
    · rw [qBuild_ends_full _ _ _ _ _ hfull] at he
      exact QBuild.finish_isQuestion (by simpa [hfull] using hcap) (Option.some.inj he)
    · cases eos with
      | true => simp [qBuild_ends_truncated _ _ _ name hfull] at he
      | false => simp [qBuild_wants _ _ _ name hfull] at he
  · rintro _ eos ⟨name, hle, rfl⟩ _
    exact { h with activity := ⟨hv, nameLen, qtype, qclass, name, hcap, hle, rfl⟩ }

/-! ### Q_LOAD (42_question.md R198) -/

/-- The parser stands where the bytes of its buffer have brought it, and no shorter beginning of them is a question. -/
def QParse.Running (qcap : Nat) (p : QParse) : Prop :=
  p.buf.length ≤ qcap ∧ p = p.buf.foldl QParse.take QParse.start ∧
    ∀ k, k < p.buf.length → ((p.buf.take k).foldl QParse.take QParse.start).finished = false

theorem QParse.running_start (qcap : Nat) : QParse.start.Running qcap := ⟨Nat.zero_le _, rfl, nofun⟩

/-- A parser that is not finished and has room takes one more byte. -/
theorem QParse.Running.take {qcap : Nat} {p : QParse} (h : p.Running qcap) (hf : p.finished = false)
    (hroom : p.buf.length ≠ qcap) (x : Byte) : (p.take x).Running qcap := by
  obtain ⟨hle, hp, hpre⟩ := h
  refine ⟨by simp; omega, ?_, ?_⟩
  · rw [QParse.take_buf, List.foldl_append, ← hp]; rfl
  · intro k hk
    simp only [QParse.take_buf, List.length_append, List.length_singleton] at hk
    rw [QParse.take_buf, List.take_append_of_le_length (by omega)]
    by_cases hlt : k < p.buf.length
    · exact hpre k hlt
    · rw [List.take_of_length_le (by omega), ← hp]; exact hf

/-- A finished parser holds one whole question: were the tail longer than four bytes, the parse would have ended
before. -/
theorem QParse.Running.isQuestion {qcap : Nat} {p : QParse} (h : p.Running qcap) (hf : p.finished = true) :
    IsQuestion qcap (p.buf, p.ll) := by
  obtain ⟨hle, hp, hpre⟩ := h
  rw [hp] at hf
  obtain ⟨labels, tail, hw, hbuf, htail, hll⟩ := QParse.finished_shape hf
  refine ⟨labels, tail, fun l hl => (hw l hl).2, ?_, hbuf, by rw [← hll, ← hp], hle⟩
  by_contra hne
  have hcut : p.buf.take ((wireLabels labels).length + 5) = wireLabels labels ++ 0 :: tail.take 4 := by
    rw [hbuf, List.take_append]
    simp
  have hdone := hpre ((wireLabels labels).length + 5) (by rw [hbuf]; simp; omega)
  rw [hcut, QParse.foldl_question labels _ hw (by simp; omega)] at hdone
  cases hdone

/-- Q_LOAD wants a byte only before the end of the question, with room for it. -/
theorem qLoad_wants_byte {qcap : Nat} {p : QParse} {eos : Bool} (h : (qLoadReader qcap).ends p eos = none) :
    p.finished = false ∧ p.buf.length ≠ qcap := by
  cases hf : p.finished with
  | true => simp [qLoadReader, hf] at h
  | false => exact ⟨rfl, fun hc => by simp [qLoadReader, hf, hc] at h⟩

/-- Q_LOAD succeeds only at the end of the question, with the bytes staged. -/
theorem qLoad_ends_ok {qcap : Nat} {p : QParse} {eos : Bool} {q : List Byte × Bool}
    (h : (qLoadReader qcap).ends p eos = some (.ok q)) : p.finished = true ∧ (p.buf, p.ll) = q := by
  cases hf : p.finished with
  | true => simpa [qLoadReader, hf] using h
  | false =>
    by_cases hc : p.buf.length = qcap
    · simp [qLoadReader, hf, hc] at h
    · cases eos <;> simp [qLoadReader, hf, hc] at h

/-- Q_LOAD from a running parser. -/
theorem Settled.continueQLoad {s : State} (h : Settled s) (hv : s.qv = false) {p : QParse}
    (hp : p.Running s.cfg.qcap) : Invariant (continueQLoad s p) := by
  refine State.afterReads_keeps Invariant (QParse.Running s.cfg.qcap) _ _ _ _ p hp ?_ ?_ ?_
  · intro p eos x hp hw
    obtain ⟨hf, hroom⟩ := qLoad_wants_byte hw
    exact hp.take hf hroom x
  · intro p e rest eos hp he
    refine (h.setInput rest eos).finishQuestion ?_
    rintro q rfl
    obtain ⟨hf, rfl⟩ := qLoad_ends_ok he
    exact hp.isQuestion hf
  · intro p eos hp hw
    obtain ⟨hf, -⟩ := qLoad_wants_byte hw
    obtain ⟨hle, hpe, hpre⟩ := hp
    refine { h with activity := ⟨hv, hle, hpe, fun k hk => ?_⟩ }
    rcases Nat.lt_or_eq_of_le hk with hlt | rfl
    · exact hpre k hlt
    · rw [List.take_length, ← hpe]; exact hf

/-! ### The commands that write a question -/

/-- Q_STORE: where it holds, a byte is left to write, so the offset is within the question (42_question.md R202). -/
theorem Settled.continueQStore {s : State} (h : Settled s) (hv : s.qv = true) (k : Nat) :
    Invariant (continueQStore s k) := by
  refine State.writeFrom_of Invariant _ _ _ _ _ _ ?_ ?_
  · intro w k' _ _
    exact (h.setOutput _ _).done _
  · intro w k' hp hsome
    have hk' : k' ≤ s.qlen := by
      by_contra hgt
      rw [qStoreNext, if_neg (by omega)] at hsome
      cases hsome
    exact { h with activity := ⟨hv, hk'⟩ }

/-- Q_NAME from a position its own steps reach from the start. -/
theorem Settled.continueQName {s : State} (h : Settled s) (hv : s.qv = true) (n : Nat) :
    Invariant (continueQName s (produce (qNameNext s.qbuf) n .start).2) := by
  refine State.writeFrom_of Invariant _ _ _ _ _ _ ?_ ?_
  · intro w c _ _
    exact (h.setOutput _ _).done _
  · intro w c hp _
    have hc : c = (produce (qNameNext s.qbuf) (n + s.outReady.grant s.qlen) .start).2 := by
      rw [produce_add]; exact congrArg Prod.snd hp
    exact { h with activity := ⟨hv, _, hc⟩ }

/-! ### Every step -/

/-- Executing a command keeps the invariant: one case for each shape a command's end can have. -/
theorem Settled.ran {i : Instr} {s t : State} (h : Settled s) (hr : Ran i s t) : Invariant t := by
  cases hr with
  | answered d _ _ _ => exact h.done d
  | noHeader _ _ => exact h.fail _
  | noQuestion _ _ => exact h.fail _
  | illegal _ => exact h.fail _
  | wrote write _ _ => exact (h.setHeader _ _).done 0
  | cleared => exact (h.setHeader _ _).done 0
  | hdrLoad => exact (h.setHeader _ _).continueHdrLoad rfl (staged := []) (Nat.zero_le _)
  | hdrStore hv => exact h.continueHdrStore hv 0
  | inNext => exact h.continueInNext
  | qBuildTooLong _ => exact h.dropQuestion.failQuestion _
  | qBuild hc => exact h.dropQuestion.continueQBuild rfl hc (name := []) (Nat.zero_le _)
  | qLoad => exact h.dropQuestion.continueQLoad rfl (QParse.running_start _)
  | qStore hv => exact h.continueQStore hv 0
  | qName hv => exact h.continueQName hv 0

/-- Going on with the command in execution keeps the invariant: one case for each transient state. -/
theorem Invariant.advance {s : State} (h : Invariant s) : Invariant s.advance := by
  have ha := h.activity
  unfold ActivityInvariant at ha
  cases hact : s.activity with
  | idle => rwa [State.advance, hact]
  | hdrLoad staged =>
    rw [hact] at ha
    obtain ⟨hv, hs⟩ := ha
    rw [advance_hdrLoad hact]; exact h.settled.continueHdrLoad hv hs
  | hdrStore k =>
    rw [hact] at ha
    obtain ⟨hv, -⟩ := ha
    rw [advance_hdrStore hact]; exact h.settled.continueHdrStore hv k
  | inNext => rw [advance_inNext hact]; exact h.settled.continueInNext
  | qBuild b =>
    rw [hact] at ha
    obtain ⟨hv, nameLen, qtype, qclass, name, hcap, hn, rfl⟩ := ha
    rw [advance_qBuild hact]; exact h.settled.continueQBuild hv hcap hn
  | qLoad p =>
    rw [hact] at ha
    obtain ⟨hv, hle, hp, hunf⟩ := ha
    rw [advance_qLoad hact]; exact h.settled.continueQLoad hv ⟨hle, hp, fun k hk => hunf k (Nat.le_of_lt hk)⟩
  | qStore k =>
    rw [hact] at ha
    obtain ⟨hv, -⟩ := ha
    rw [advance_qStore hact]; exact h.settled.continueQStore hv k
  | qName c =>
    rw [hact] at ha
    obtain ⟨hv, n, rfl⟩ := ha
    rw [advance_qName hact]; exact h.settled.continueQName hv n
  | responding r =>
    rw [hact] at ha
    rw [advance_responding hact]; exact h.settled.deliver ha

/-- Settles O16: the invariant without the transient state (`Settled`) is what each command needs to make the whole
invariant again, and the transient state says from where a held command goes on. -/
theorem everyStepKeepsTheInvariant : Obligations.EveryStepKeepsTheInvariant := by
  intro s t h hstep
  rcases step_cases hstep with ⟨-, rfl⟩ | ⟨-, -, -, rfl⟩ | ⟨-, -, w, rest, i, -, -, hexec⟩ |
    ⟨-, -, w, rest, e, -, -, rfl⟩ | ⟨-, -, rfl⟩
  · exact h.settled.applyReset
  · exact h
  · exact (h.settled.accept rest).ran (ran_of_exec hexec)
  · exact (h.settled.accept rest).fail _
  · exact h.advance

/-- Settles O15: QV = 0 and an empty buffer, so only the parameter's range has to be known. -/
theorem resetStateHasTheInvariant : Obligations.ResetStateHasTheInvariant := by
  have hreset : ∀ cfg : Config, cfg.Valid → Invariant (State.resetWith cfg) := fun cfg hc =>
    (Settled.of_invalid hc rfl (Nat.zero_le _) rfl rfl rfl (by simp [State.resetWith])).invariant trivial
  have hstatus : ∀ cfg : Config, statusView (State.resetWith cfg) = 0 := fun cfg => by
    simp only [statusView, State.resetWith]
    decide
  have hvectors : Config.vectors.Valid := by unfold Config.Valid; decide
  exact fun cfg hc => ⟨hreset cfg hc, hstatus cfg, rfl, hreset Config.vectors hvectors⟩

end Sys2Proof.Machine
end

section
/-! PROOFS for 10_state.md R22, R23, R25, R27: which commands write the header slot and which the question slot. -/

namespace Sys2Proof.Machine

/-! ### Both slots -/

/-- Neither slot has changed. -/
def SameSlots (s t : State) : Prop := SameHeaderSlot s t ∧ SameQuestionSlot s t

theorem sameSlots_refl (s : State) : SameSlots s s := ⟨⟨rfl, rfl⟩, rfl, rfl, rfl, rfl, rfl⟩

theorem sameSlots_deliver (s : State) (r : RspWord) : SameSlots s (s.deliver r) := by
  simp [SameSlots, SameHeaderSlot, SameQuestionSlot]

/-- A command that writes the output stream and then answers changes neither slot. -/
theorem sameSlots_writeFrom {α : Type} (s : State) (next : α → Option (TaggedByte × α)) (bound : Nat)
    (held : α → Activity) (data : State → α → Half) (a : α) :
    SameSlots s (s.writeFrom next bound held (fun s' a' => s'.done (data s' a')) a) :=
  State.writeFrom_of (SameSlots s) _ _ _ _ _ _ (fun _ _ _ _ => sameSlots_deliver _ _) fun _ _ _ _ => sameSlots_refl s

theorem continueHdrStore_sameSlots (s : State) (k : Nat) : SameSlots s (continueHdrStore s k) :=
  sameSlots_writeFrom s (hdrStoreNext s.hdr) 12 .hdrStore (fun _ _ => 12) k

theorem continueQStore_sameSlots (s : State) (k : Nat) : SameSlots s (continueQStore s k) :=
  sameSlots_writeFrom s (qStoreNext s.qbuf s.qlen) s.qlen .qStore (fun s' _ => BitVec.ofNat 16 s'.qlen) k

theorem continueQName_sameSlots (s : State) (c : NameCursor) : SameSlots s (continueQName s c) :=
  sameSlots_writeFrom s (qNameNext s.qbuf) s.qlen .qName (fun _ c' => BitVec.ofNat 16 c'.e) c

theorem continueInNext_sameSlots (s : State) : SameSlots s (continueInNext s) :=
  State.afterReads_of (SameSlots s) _ _ _ _ (fun _ _ _ _ => sameSlots_deliver _ _) fun _ _ _ => sameSlots_refl s

/-! ### One slot and the other's constructors -/

theorem finishQuestion_sameHeaderSlot (s : State) (end_ : Except Status (List Byte × Bool)) :
    SameHeaderSlot s (finishQuestion s end_) := by
  cases end_ <;> simp [finishQuestion, SameHeaderSlot]

theorem continueQBuild_sameHeaderSlot (s : State) (b : QBuild) : SameHeaderSlot s (continueQBuild s b) :=
  State.afterReads_of (SameHeaderSlot s) _ _ _ _ (fun _ _ _ _ => finishQuestion_sameHeaderSlot _ _)
    fun _ _ _ => ⟨rfl, rfl⟩

theorem continueQLoad_sameHeaderSlot (s : State) (p : QParse) : SameHeaderSlot s (continueQLoad s p) :=
  State.afterReads_of (SameHeaderSlot s) _ _ _ _ (fun _ _ _ _ => finishQuestion_sameHeaderSlot _ _)
    fun _ _ _ => ⟨rfl, rfl⟩

theorem finishHdrLoad_sameQuestionSlot (s : State) (end_ : Option Header) :
    SameQuestionSlot s (finishHdrLoad s end_) := by
  cases end_ <;> simp [finishHdrLoad, SameQuestionSlot]

theorem continueHdrLoad_sameQuestionSlot (s : State) (staged : List Byte) :
    SameQuestionSlot s (continueHdrLoad s staged) :=
  State.afterReads_of (SameQuestionSlot s) _ _ _ _ (fun _ _ _ _ => finishHdrLoad_sameQuestionSlot _ _)
    fun _ _ _ => ⟨rfl, rfl, rfl, rfl, rfl⟩

/-! ### Every command -/

/-- A command leaves the header slot as it is, or makes or drops a header, or writes HDR and not HV. -/
theorem Ran.headerSlot {i : Instr} {s t : State} (h : Ran i s t) :
    SameHeaderSlot s t ∨ i = .hdrClear ∨ i = .hdrLoad ∨ ((headerWrite i).isSome = true ∧ t.hv = s.hv) := by
  cases h with
  | answered d _ _ _ => exact .inl (sameSlots_deliver s _).1
  | noHeader _ _ => exact .inl (sameSlots_deliver s _).1
  | noQuestion _ _ => exact .inl (sameSlots_deliver s _).1
  | illegal _ => exact .inl (sameSlots_deliver s _).1
  | wrote write hi _ => exact .inr (.inr (.inr ⟨by rw [hi]; rfl, State.done_hv _ _⟩))
  | cleared => exact .inr (.inl rfl)
  | hdrLoad => exact .inr (.inr (.inl rfl))
  | hdrStore _ => exact .inl (continueHdrStore_sameSlots s 0).1
  | inNext => exact .inl (continueInNext_sameSlots s).1
  | qBuildTooLong _ => exact .inl (finishQuestion_sameHeaderSlot s.dropQuestion (.error .capacity))
  | qBuild _ => exact .inl (continueQBuild_sameHeaderSlot s.dropQuestion _)
  | qLoad => exact .inl (continueQLoad_sameHeaderSlot s.dropQuestion _)
  | qStore _ => exact .inl (continueQStore_sameSlots s 0).1
  | qName _ => exact .inl (continueQName_sameSlots s .start).1

/-- A command leaves the question slot as it is, or makes or drops a question. -/
theorem Ran.questionSlot {i : Instr} {s t : State} (h : Ran i s t) :
    SameQuestionSlot s t ∨ i = .qLoad ∨ ∃ nameLen qtype qclass, i = .qBuild nameLen qtype qclass := by
  cases h with
  | answered d _ _ _ => exact .inl (sameSlots_deliver s _).2
  | noHeader _ _ => exact .inl (sameSlots_deliver s _).2
  | noQuestion _ _ => exact .inl (sameSlots_deliver s _).2
  | illegal _ => exact .inl (sameSlots_deliver s _).2
  | wrote write _ _ => exact .inl (sameSlots_deliver { s with hdr := write s.hdr } _).2
  | cleared => exact .inl (sameSlots_deliver { s with hdr := Vector.replicate 12 0, hv := true } _).2
  | hdrLoad => exact .inl (continueHdrLoad_sameQuestionSlot { s with hv := false } [])
  | hdrStore _ => exact .inl (continueHdrStore_sameSlots s 0).2
  | inNext => exact .inl (continueInNext_sameSlots s).2
  | qBuildTooLong _ => exact .inr (.inr ⟨_, _, _, rfl⟩)
  | qBuild _ => exact .inr (.inr ⟨_, _, _, rfl⟩)
  | qLoad => exact .inr (.inl rfl)
  | qStore _ => exact .inl (continueQStore_sameSlots s 0).2
  | qName _ => exact .inl (continueQName_sameSlots s .start).2

/-! ### Every command going on -/

theorem advance_headerSlot (s : State) : SameHeaderSlot s s.advance ∨ ∃ staged, s.activity = .hdrLoad staged := by
  cases h : s.activity with
  | idle => exact .inl (by rw [State.advance, h]; exact ⟨rfl, rfl⟩)
  | hdrLoad staged => exact .inr ⟨staged, rfl⟩
  | hdrStore k => exact .inl (advance_hdrStore h ▸ (continueHdrStore_sameSlots s k).1)
  | inNext => exact .inl (advance_inNext h ▸ (continueInNext_sameSlots s).1)
  | qBuild b => exact .inl (advance_qBuild h ▸ continueQBuild_sameHeaderSlot s b)
  | qLoad p => exact .inl (advance_qLoad h ▸ continueQLoad_sameHeaderSlot s p)
  | qStore k => exact .inl (advance_qStore h ▸ (continueQStore_sameSlots s k).1)
  | qName c => exact .inl (advance_qName h ▸ (continueQName_sameSlots s c).1)
  | responding r => exact .inl (advance_responding h ▸ (sameSlots_deliver s r).1)

theorem advance_questionSlot (s : State) :
    SameQuestionSlot s s.advance ∨ (∃ b, s.activity = .qBuild b) ∨ ∃ p, s.activity = .qLoad p := by
  cases h : s.activity with
  | idle => exact .inl (by rw [State.advance, h]; exact (sameSlots_refl s).2)
  | hdrLoad staged => exact .inl (advance_hdrLoad h ▸ continueHdrLoad_sameQuestionSlot s staged)
  | hdrStore k => exact .inl (advance_hdrStore h ▸ (continueHdrStore_sameSlots s k).2)
  | inNext => exact .inl (advance_inNext h ▸ (continueInNext_sameSlots s).2)
  | qBuild b => exact .inr (.inl ⟨b, rfl⟩)
  | qLoad p => exact .inr (.inr ⟨p, rfl⟩)
  | qStore k => exact .inl (advance_qStore h ▸ (continueQStore_sameSlots s k).2)
  | qName c => exact .inl (advance_qName h ▸ (continueQName_sameSlots s c).2)
  | responding r => exact .inl (advance_responding h ▸ (sameSlots_deliver s r).2)

/-- Settles O17, from the header slot's frame of every command and of every command going on. -/
theorem headerIsWrittenOnlyByItsWriters : Obligations.HeaderIsWrittenOnlyByItsWriters := by
  refine ⟨fun i s t hexec => ?_, fun s hne => (advance_headerSlot s).resolve_left hne⟩
  rcases (ran_of_exec hexec).headerSlot with ⟨hhdr, hhv⟩ | hclear | hload | ⟨hwrite, hhv⟩
  · exact ⟨fun hne => absurd hhdr hne, fun hne => absurd hhv hne⟩
  · exact ⟨fun _ => .inl hclear, fun _ => .inl hclear⟩
  · exact ⟨fun _ => .inr (.inl hload), fun _ => .inr hload⟩
  · exact ⟨fun _ => .inr (.inr hwrite), fun hne => absurd hhv hne⟩

/-- Settles O18, from the question slot's frame of every command and of every command going on. -/
theorem questionIsWrittenOnlyByItsConstructors : Obligations.QuestionIsWrittenOnlyByItsConstructors :=
  ⟨fun _ _ _ hexec hne => (ran_of_exec hexec).questionSlot.resolve_left hne,
    fun s hne => (advance_questionSlot s).resolve_left hne⟩

end Sys2Proof.Machine
end

section
/-! PROOFS for 10_state.md R37: while a slot is invalid, nothing depends on its contents. One relation covers both
slots: `Unseen` relates the outcomes of two runs that differ only in the contents of an invalid slot, and an operation
that keeps it (`Hides`) can be composed with others that do. -/

namespace Sys2Proof.Machine

/-! ### Other contents for a slot -/

/-- New contents for a slot: for HDR, or for QBUF and QLEN. -/
inductive Contents where
  | header (hdr : Header)
  | question (buf : List Byte) (len : Nat)

/-- `s` with the contents of that slot replaced, the flags left alone. -/
def State.refill (s : State) (c : Contents) : State :=
  match c with
  | .header hdr => { s with hdr := hdr }
  | .question buf len => { s with qbuf := buf, qlen := len }

/-- The valid flag of that slot, HV or QV. -/
def Contents.valid (c : Contents) (s : State) : Bool :=
  match c with
  | .header _ => s.hv
  | .question _ _ => s.qv

/-- Two outcomes an observer cannot tell apart: the same, or the slot is invalid and they differ in its contents. -/
def Unseen (c : Contents) (t t' : State) : Prop := t' = t ∨ (c.valid t = false ∧ t' = t.refill c)

/-- The operation does not show the contents of the slot while it is invalid. -/
def Hides (c : Contents) (f : State → State) : Prop :=
  ∀ s, c.valid s = false → Unseen c (f s) (f (s.refill c))

theorem Unseen.map {c : Contents} {t t' : State} (h : Unseen c t t') {f : State → State} (hf : Hides c f) :
    Unseen c (f t) (f t') := by
  rcases h with rfl | ⟨hv, rfl⟩
  · exact .inl rfl
  · exact hf t hv

theorem Hides.comp {c : Contents} {f g : State → State} (hf : Hides c f) (hg : Hides c g) :
    Hides c fun s => f (g s) := fun s hv => (hg s hv).map hf

/-- An operation that commutes with the replacement and leaves the flag 0. -/
theorem Hides.of_commutes {c : Contents} {f : State → State} (h : ∀ s, f (s.refill c) = (f s).refill c)
    (hv : ∀ s, c.valid s = false → c.valid (f s) = false) : Hides c f := fun s hs => .inr ⟨hv s hs, h s⟩

/-! ### What a replacement leaves alone -/

@[simp] theorem State.refill_activity (s : State) (c : Contents) : (s.refill c).activity = s.activity := by
  cases c <;> rfl
@[simp] theorem State.refill_input (s : State) (c : Contents) : (s.refill c).input = s.input := by cases c <;> rfl
@[simp] theorem State.refill_inEos (s : State) (c : Contents) : (s.refill c).inEos = s.inEos := by cases c <;> rfl
@[simp] theorem State.refill_cfg (s : State) (c : Contents) : (s.refill c).cfg = s.cfg := by cases c <;> rfl
@[simp] theorem State.refill_cmds (s : State) (c : Contents) : (s.refill c).cmds = s.cmds := by cases c <;> rfl
@[simp] theorem State.refill_rst (s : State) (c : Contents) : (s.refill c).rst = s.rst := by cases c <;> rfl
@[simp] theorem State.refill_outReady (s : State) (c : Contents) : (s.refill c).outReady = s.outReady := by
  cases c <;> rfl
@[simp] theorem State.refill_hv (s : State) (c : Contents) : (s.refill c).hv = s.hv := by cases c <;> rfl
@[simp] theorem State.refill_qv (s : State) (c : Contents) : (s.refill c).qv = s.qv := by cases c <;> rfl

theorem hostReady_refill (s : State) (c : Contents) : HostReady (s.refill c) ↔ HostReady s := by cases c <;> rfl

/-! ### The updates and the responses -/

theorem hides_setActivity (c : Contents) (act : Activity) : Hides c fun s => { s with activity := act } :=
  .of_commutes (fun _ => by cases c <;> rfl) fun _ hv => by cases c <;> exact hv

theorem hides_setEos (c : Contents) (eos : Bool) : Hides c fun s => { s with inEos := eos } :=
  .of_commutes (fun _ => by cases c <;> rfl) fun _ hv => by cases c <;> exact hv

theorem hides_setInput (c : Contents) (rest : List TaggedByte) (eos : Bool) :
    Hides c fun s => { s with input := rest, inEos := eos } :=
  .of_commutes (fun _ => by cases c <;> rfl) fun _ hv => by cases c <;> exact hv

theorem hides_setHeader (c : Contents) (hdr : Header) (hv : Bool) : Hides c fun s => { s with hdr := hdr, hv := hv } := by
  cases c with
  | header _ => exact fun _ _ => .inl rfl
  | question _ _ => exact .of_commutes (fun _ => rfl) fun _ h => h

theorem hides_dropHeader (c : Contents) : Hides c fun s => { s with hv := false } :=
  .of_commutes (fun _ => by cases c <;> rfl) fun _ hv => by
    cases c with
    | header _ => rfl
    | question _ _ => exact hv

theorem hides_freeHdr (c : Contents) : Hides c State.freeHdr := by
  cases c with
  | header _ => exact fun _ _ => .inl rfl
  | question _ _ => exact .of_commutes (fun _ => rfl) fun _ h => h

theorem hides_dropQuestion (c : Contents) : Hides c State.dropQuestion :=
  .of_commutes (fun _ => by cases c <;> rfl) fun _ hv => by
    cases c with
    | header _ => exact hv
    | question _ _ => rfl

theorem hides_freeQuestion (c : Contents) : Hides c State.freeQuestion := by
  cases c with
  | header _ => exact .of_commutes (fun _ => rfl) fun _ h => h
  | question _ _ => exact fun _ _ => .inl rfl

theorem hides_write (c : Contents) (written : List TaggedByte) :
    Hides c fun s => { s with output := s.output ++ written, outReady := s.outReady.spend written.length } :=
  .of_commutes (fun _ => by cases c <;> rfl) fun _ hv => by cases c <;> exact hv

/-- A question made takes the place of whatever was there. -/
theorem hides_setQuestion (c : Contents) (buf : List Byte) (ll : Bool) :
    Hides c fun s => { s with
      qbuf := buf
      qlen := buf.length
      longLabel := ll
      longName := longNameLength buf.length
      qv := true } := by
  cases c with
  | header _ => exact .of_commutes (fun _ => rfl) fun _ h => h
  | question _ _ => exact fun _ _ => .inl rfl

theorem hides_accept (c : Contents) (rest : List CmdWord) : Hides c fun s => s.accept rest :=
  .of_commutes (fun _ => by cases c <;> rfl) fun _ hv => by cases c <;> exact hv

theorem State.deliver_refill (s : State) (c : Contents) (r : RspWord) :
    (s.refill c).deliver r = (s.deliver r).refill c := by
  by_cases h : HostReady s
  · rw [State.deliver_ready h, State.deliver_ready ((hostReady_refill s c).2 h)]; cases c <;> rfl
  · rw [State.deliver_waiting h, State.deliver_waiting (mt (hostReady_refill s c).1 h)]; cases c <;> rfl

theorem hides_deliver (c : Contents) (r : RspWord) : Hides c fun s => s.deliver r :=
  .of_commutes (fun s => s.deliver_refill c r) fun s hv => by
    cases c with
    | header _ => exact (s.deliver_hv r).trans hv
    | question _ _ => exact (s.deliver_qv r).trans hv

theorem hides_fail (c : Contents) (st : Status) : Hides c fun s => s.fail st := hides_deliver c _

theorem hides_illegal (c : Contents) : Hides c State.illegal := hides_fail c .illegalCmd

/-- An answer that is not read from the slot. -/
theorem hides_done {c : Contents} {data : State → Half} (h : ∀ s, data (s.refill c) = data s) :
    Hides c fun s => s.done (data s) := by
  intro s hv
  simp only [h]
  exact hides_deliver c (rspWord .ok (data s)) s hv

theorem hides_failHeader (c : Contents) (st : Status) : Hides c fun s => s.failHeader st :=
  (hides_fail c st).comp ((hides_freeHdr c).comp (hides_dropHeader c))

theorem hides_failQuestion (c : Contents) (st : Status) : Hides c fun s => s.failQuestion st :=
  (hides_fail c st).comp ((hides_freeQuestion c).comp (hides_dropQuestion c))

theorem hides_commitQuestion (c : Contents) (buf : List Byte) (ll : Bool) : Hides c fun s => s.commitQuestion buf ll :=
  (hides_deliver c _).comp (hides_setQuestion c buf ll)

theorem hides_applyReset (c : Contents) : Hides c State.applyReset :=
  (hides_freeQuestion c).comp ((hides_freeHdr c).comp ((hides_setActivity c .idle).comp
    ((hides_setEos c false).comp ((hides_dropQuestion c).comp (hides_dropHeader c)))))

/-! ### Slot validity: a command that needs the slot fails without reading it -/

theorem hides_withHeader {c : Contents} {effect : State → State}
    (h : ∀ buf len, c = .question buf len → Hides c effect) : Hides c fun s => s.withHeader effect := by
  intro s hv
  change Unseen c (s.withHeader effect) ((s.refill c).withHeader effect)
  cases hh : s.hv with
  | false =>
    rw [withHeader_of_invalid hh, withHeader_of_invalid ((s.refill_hv c).trans hh)]
    exact hides_fail c _ s hv
  | true =>
    rw [withHeader_of_valid hh, withHeader_of_valid ((s.refill_hv c).trans hh)]
    cases c with
    | header _ => cases hv.symm.trans hh
    | question buf len => exact h buf len rfl s hv

theorem hides_withQuestion {c : Contents} {effect : State → State}
    (h : ∀ hdr, c = .header hdr → Hides c effect) : Hides c fun s => s.withQuestion effect := by
  intro s hv
  change Unseen c (s.withQuestion effect) ((s.refill c).withQuestion effect)
  cases hq : s.qv with
  | false =>
    rw [withQuestion_of_invalid hq, withQuestion_of_invalid ((s.refill_qv c).trans hq)]
    exact hides_fail c _ s hv
  | true =>
    rw [withQuestion_of_valid hq, withQuestion_of_valid ((s.refill_qv c).trans hq)]
    cases c with
    | header hdr => exact h hdr rfl s hv
    | question _ _ => cases hv.symm.trans hq

/-! ### The stream commands -/

/-- A command that reads the input stream depends on the slot only as its end does. -/
theorem hides_afterReads {c : Contents} {α ε : Type} (held : α → Activity) {finish : State → ε → State}
    (hf : ∀ e, Hides c fun s => finish s e) (consumed : Consumed α ε) :
    Hides c fun s => s.afterReads held finish consumed := by
  cases consumed with
  | ended e rest eos => exact (hf e).comp (hides_setInput c rest eos)
  | holding a eos => exact (hides_setActivity c (held a)).comp (hides_setInput c [] eos)

theorem hides_finishHdrLoad (c : Contents) (end_ : Option Header) : Hides c fun s => finishHdrLoad s end_ := by
  cases end_ with
  | some hdr => exact (hides_deliver c _).comp (hides_setHeader c hdr true)
  | none => exact hides_failHeader c _

theorem hides_finishQuestion (c : Contents) (end_ : Except Status (List Byte × Bool)) :
    Hides c fun s => finishQuestion s end_ := by
  cases end_ with
  | ok q => exact hides_commitQuestion c q.1 q.2
  | error st => exact hides_failQuestion c st

theorem hides_continueHdrLoad (c : Contents) (staged : List Byte) : Hides c fun s => continueHdrLoad s staged := by
  intro s hv
  simp only [continueHdrLoad, State.refill_input, State.refill_inEos]
  exact hides_afterReads _ (hides_finishHdrLoad c) _ s hv

theorem hides_continueInNext (c : Contents) : Hides c continueInNext := by
  intro s hv
  simp only [continueInNext, State.refill_input, State.refill_inEos]
  refine hides_afterReads _ (fun _ => ?_) _ s hv
  exact (hides_deliver c _).comp (hides_setEos c false)

theorem hides_continueQBuild (c : Contents) (b : QBuild) : Hides c fun s => continueQBuild s b := by
  intro s hv
  simp only [continueQBuild, State.refill_input, State.refill_inEos]
  exact hides_afterReads _ (hides_finishQuestion c) _ s hv

theorem hides_continueQLoad (c : Contents) (p : QParse) : Hides c fun s => continueQLoad s p := by
  intro s hv
  simp only [continueQLoad, State.refill_input, State.refill_inEos, State.refill_cfg]
  exact hides_afterReads _ (hides_finishQuestion c) _ s hv

/-- So does a command that writes bytes found elsewhere to the output stream. -/
theorem hides_writeFrom {c : Contents} {α : Type} (next : α → Option (TaggedByte × α)) (bound : Nat)
    (held : α → Activity) {finish : State → α → State} (hf : ∀ a, Hides c fun s => finish s a) (a : α) :
    Hides c fun s => s.writeFrom next bound held finish a := by
  intro s hv
  have hw := hides_write c (produce next (s.outReady.grant bound) a).1
  simp only [State.writeFrom, State.refill_outReady]
  split
  · simpa using ((hf _).comp hw) s hv
  · simpa using ((hides_setActivity c (held _)).comp hw) s hv

/-- HDR_STORE reads HDR and nothing of the question slot. -/
theorem hides_continueHdrStore (buf : List Byte) (len k : Nat) :
    Hides (.question buf len) fun s => continueHdrStore s k := fun s hv =>
  hides_writeFrom (hdrStoreNext s.hdr) 12 .hdrStore (fun _ => hides_deliver _ _) k s hv

/-- Q_STORE and Q_NAME read the question slot and nothing of HDR. -/
theorem hides_continueQStore (hdr : Header) (k : Nat) : Hides (.header hdr) fun s => continueQStore s k := fun s hv =>
  hides_writeFrom (qStoreNext s.qbuf s.qlen) s.qlen .qStore (fun _ => hides_done fun _ => rfl) k s hv

theorem hides_continueQName (hdr : Header) (n : NameCursor) : Hides (.header hdr) fun s => continueQName s n :=
  fun s hv => hides_writeFrom (qNameNext s.qbuf) s.qlen .qName (fun _ => hides_deliver _ _) n s hv

/-! ### Every command, every command going on, every step -/

/-- A question getter reads the question slot and nothing of HDR. -/
theorem hides_questionGetter (c : Contents) {data : State → Half}
    (h : ∀ hdr s, data (s.refill (.header hdr)) = data s) : Hides c fun s => s.withQuestion fun s => s.done (data s) :=
  hides_withQuestion fun hdr hc => hides_done (hc ▸ h hdr)

theorem exec_hides (c : Contents) (i : Instr) : ∃ f, (∀ s, exec i s = .next (f s)) ∧ Hides c f := by
  cases hr : headerRead i with
  | some view =>
    exact ⟨_, exec_of_headerRead hr, hides_withHeader fun buf len hc => hides_done (hc ▸ fun _ => rfl)⟩
  | none =>
    cases hw : headerWrite i with
    | some write =>
      refine ⟨_, exec_of_headerWrite hw, hides_withHeader fun buf len hc => ?_⟩
      subst hc
      exact (hides_deliver _ _).comp (.of_commutes (fun _ => rfl) fun _ h => h)
    | none =>
      cases i <;> simp only [headerRead, headerWrite, reduceCtorEq] at hr hw
      case getStatus => exact ⟨_, fun _ => rfl, hides_done fun _ => by cases c <;> rfl⟩
      case inNext => exact ⟨_, fun _ => rfl, hides_continueInNext c⟩
      case hdrClear => exact ⟨_, fun _ => rfl, (hides_deliver c _).comp (hides_setHeader c _ true)⟩
      case hdrLoad => exact ⟨_, fun _ => rfl, (hides_continueHdrLoad c []).comp (hides_dropHeader c)⟩
      case hdrStore =>
        exact ⟨_, fun _ => rfl, hides_withHeader fun buf len hc => hc ▸ hides_continueHdrStore buf len 0⟩
      case getBit o p =>
        have hl : legalByteOffset o = false := by simpa using hr
        exact ⟨State.illegal, fun _ => by simp [exec, execGetBit, hl], hides_illegal c⟩
      case setBit o p v =>
        have hl : legalByteOffset o = false := by simpa using hw
        exact ⟨State.illegal, fun _ => by simp [exec, execSetBit, hl], hides_illegal c⟩
      case qBuild nameLen qtype qclass =>
        refine ⟨_, fun _ => rfl, fun s hv => ?_⟩
        rw [State.refill_cfg]
        split
        · exact ((hides_failQuestion c _).comp (hides_dropQuestion c)) s hv
        · exact ((hides_continueQBuild c _).comp (hides_dropQuestion c)) s hv
      case qLoad => exact ⟨_, fun _ => rfl, (hides_continueQLoad c _).comp (hides_dropQuestion c)⟩
      case qStore => exact ⟨_, fun _ => rfl, hides_withQuestion fun hdr hc => hc ▸ hides_continueQStore hdr 0⟩
      case qName => exact ⟨_, fun _ => rfl, hides_withQuestion fun hdr hc => hc ▸ hides_continueQName hdr .start⟩
      case qGetType => exact ⟨_, fun _ => rfl, hides_questionGetter c fun _ _ => rfl⟩
      case qGetClass => exact ⟨_, fun _ => rfl, hides_questionGetter c fun _ _ => rfl⟩
      case qGetLen => exact ⟨_, fun _ => rfl, hides_questionGetter c fun _ _ => rfl⟩

/-- The invariant rules out that a command which reads the slot is in execution while it is invalid. -/
theorem advance_unseen {c : Contents} {s : State} (ha : ActivityInvariant s) (hv : c.valid s = false) :
    Unseen c s.advance (s.refill c).advance := by
  unfold ActivityInvariant at ha
  cases hact : s.activity with
  | idle => rw [State.advance, State.advance, State.refill_activity, hact]; exact .inr ⟨hv, rfl⟩
  | hdrLoad staged =>
    rw [advance_hdrLoad hact, advance_hdrLoad ((s.refill_activity c).trans hact)]
    exact hides_continueHdrLoad c staged s hv
  | hdrStore k =>
    rw [advance_hdrStore hact, advance_hdrStore ((s.refill_activity c).trans hact)]
    rw [hact] at ha
    obtain ⟨hvalid, -⟩ := ha
    cases c with
    | header _ => cases hv.symm.trans hvalid
    | question buf len => exact hides_continueHdrStore buf len k s hv
  | inNext =>
    rw [advance_inNext hact, advance_inNext ((s.refill_activity c).trans hact)]
    exact hides_continueInNext c s hv
  | qBuild b =>
    rw [advance_qBuild hact, advance_qBuild ((s.refill_activity c).trans hact)]
    exact hides_continueQBuild c b s hv
  | qLoad p =>
    rw [advance_qLoad hact, advance_qLoad ((s.refill_activity c).trans hact)]
    exact hides_continueQLoad c p s hv
  | qStore k =>
    rw [advance_qStore hact, advance_qStore ((s.refill_activity c).trans hact)]
    rw [hact] at ha
    obtain ⟨hvalid, -⟩ := ha
    cases c with
    | header hdr => exact hides_continueQStore hdr k s hv
    | question _ _ => cases hv.symm.trans hvalid
  | qName n =>
    rw [advance_qName hact, advance_qName ((s.refill_activity c).trans hact)]
    rw [hact] at ha
    obtain ⟨hvalid, -⟩ := ha
    cases c with
    | header hdr => exact hides_continueQName hdr n s hv
    | question _ _ => cases hv.symm.trans hvalid
  | responding r =>
    rw [advance_responding hact, advance_responding ((s.refill_activity c).trans hact)]
    exact hides_deliver c r s hv

/-- R37 for one step: it does not show what an invalid slot holds. -/
theorem step_unseen {c : Contents} {s t : State} (hi : Invariant s) (hv : c.valid s = false)
    (h : step s = .next t) : ∃ t', step (s.refill c) = .next t' ∧ Unseen c t t' := by
  rcases step_cases h with ⟨hr, rfl⟩ | ⟨hr, ha, hc, rfl⟩ | ⟨hr, ha, w, rest, i, hc, hd, hexec⟩ |
    ⟨hr, ha, w, rest, e, hc, hd, rfl⟩ | ⟨hr, ha, rfl⟩
  · exact ⟨_, by simp [step, hr], hides_applyReset c s hv⟩
  · exact ⟨_, by simp [step, hr, ha, hc], .inr ⟨hv, rfl⟩⟩
  · obtain ⟨f, hf, hhides⟩ := exec_hides c i
    rw [hf] at hexec
    cases hexec
    exact ⟨_, by simp [step, runWord, hr, ha, hc, hd, hf], (hhides.comp (hides_accept c rest)) s hv⟩
  · exact ⟨_, by simp [step, runWord, hr, ha, hc, hd], ((hides_illegal c).comp (hides_accept c rest)) s hv⟩
  · exact ⟨_, by simp [step, hr, ha], advance_unseen hi.activity hv⟩

/-- Settles O20: the step of `step_unseen`, for the contents of HDR. -/
theorem headerIsUnobservableWhileInvalid : Obligations.HeaderIsUnobservableWhileInvalid := by
  intro s t h hi hv hstep
  obtain ⟨t', hstep', rfl | ⟨hinv, rfl⟩⟩ := step_unseen (c := .header h) hi hv hstep
  · exact ⟨t', hstep', rfl, fun _ => rfl⟩
  · exact ⟨_, hstep', rfl, fun hvalid => by cases hinv.symm.trans hvalid⟩

/-- Settles O21: the step of `step_unseen`, for the contents of QBUF and QLEN. -/
theorem questionIsUnobservableWhileInvalid : Obligations.QuestionIsUnobservableWhileInvalid := by
  intro s t buf n hi hv hstep
  obtain ⟨t', hstep', rfl | ⟨hinv, rfl⟩⟩ := step_unseen (c := .question buf n) hi hv hstep
  · exact ⟨t', hstep', rfl, fun _ => rfl⟩
  · exact ⟨_, hstep', rfl, fun hvalid => by cases hinv.symm.trans hvalid⟩

end Sys2Proof.Machine
end

section
/-! PROOFS for 20_memory.md: the channels (R60 to R72). The state of the machine apart from its channels says which
command is in execution and where it stands; `exec_starts` says that accepting a command puts the machine in such a state
and goes on from there. Claims about what commands transfer are therefore proved for `State.advance` alone, over its four
forms (`inExecution`): nothing to do, a reading loop, a writing loop, a response to present. -/

namespace Sys2Proof.Machine

/-! ### Other channels around the same machine -/

/-- `s` with the channels, and what the environment is ready for, of `c`. -/
def State.onChannels (s c : State) : State :=
  { s with
    input := c.input
    output := c.output
    rsp := c.rsp
    cmds := c.cmds
    outReady := c.outReady
    rspReady := c.rspReady }

/-- `f` ends the command in execution: whatever the channels hold, it leaves them alone and presents a response that does
not depend on them. -/
def Answers (f : State → State) : Prop :=
  ∀ s : State, ∃ (u : State) (r : RspWord), u.cfg = s.cfg ∧
    ∀ (c : State) (act : Activity), f { s.onChannels c with activity := act } = (u.onChannels c).deliver r

/-- It does not matter what was in execution. -/
theorem Answers.forgets {f : State → State} (h : Answers f) (s : State) (act : Activity) :
    f { s with activity := act } = f s := by
  obtain ⟨u, r, -, hf⟩ := h s
  exact (hf s act).trans (hf s s.activity).symm

/-! ### The ends of the stream commands -/

theorem answers_done {data : State → Half}
    (h : ∀ s c act, data { s.onChannels c with activity := act } = data s) : Answers fun s => s.done (data s) :=
  fun s => ⟨s, rspWord .ok (data s), rfl, fun c act => by simp only [h]; rfl⟩

theorem answers_finishHdrLoad (end_ : Option Header) : Answers fun s => finishHdrLoad s end_ := fun s =>
  match end_ with
  | some h => ⟨{ s with hdr := h, hv := true }, rspWord .ok 0, rfl, fun _ _ => rfl⟩
  | none => ⟨State.freeHdr { s with hv := false }, rspWord .truncatedInput 0, rfl, fun _ _ => rfl⟩

theorem answers_failQuestion (st : Status) : Answers fun s => s.failQuestion st := fun s =>
  ⟨s.dropQuestion.freeQuestion, rspWord st 0, rfl, fun _ _ => rfl⟩

theorem answers_finishQuestion (end_ : Except Status (List Byte × Bool)) : Answers fun s => finishQuestion s end_ :=
  match end_ with
  | .ok q => fun s =>
    ⟨{ s with
        qbuf := q.1
        qlen := q.1.length
        longLabel := q.2
        longName := longNameLength q.1.length
        qv := true }, rspWord .ok (BitVec.ofNat 16 q.1.length), rfl, fun _ _ => rfl⟩
  | .error st => answers_failQuestion st

theorem answers_finishInNext (end_ : Unit) : Answers fun s => finishInNext s end_ := fun s =>
  ⟨{ s with inEos := false }, rspWord .ok 0, rfl, fun _ _ => rfl⟩

/-! ### The forms of a command in execution -/

/-- What is in execution in `s` reads the input stream with `r`. -/
structure ReadsWith {α ε : Type} (s : State) (r : Reader α ε) (held : α → Activity) (finish : State → ε → State) :
    Prop where
  finishes : ∀ e, Answers fun s => finish s e
  goesOn : ∀ (t : State) (a : α), t.cfg = s.cfg → t.activity = held a →
    t.advance = t.afterReads held finish (consume r t.input t.inEos a)
  wants : ∀ (t : State) (a : α), t.cfg = s.cfg → t.activity = held a → t.wantsByte = (r.ends a t.inEos).isNone
  silent : s.nextOutByte = none

/-- What is in execution in `s` writes the output stream with `next` from position `a`. -/
structure WritesWith {α : Type} (s : State) (next : α → Option (TaggedByte × α)) (bound : Nat) (held : α → Activity)
    (finish : State → α → State) (a : α) : Prop where
  finishes : ∀ a, Answers fun s => finish s a
  goesOn : ∀ c, (s.onChannels c).advance = (s.onChannels c).writeFrom next bound held finish a
  keepsEos : ∀ s a, (finish s a).inEos = s.inEos
  wants : ∀ (t : State) (a : α), t.activity = held a → t.wantsByte = false
  byte : s.nextOutByte = (next a).map Prod.fst

/-- What is in execution: nothing, a reading loop, a writing loop, or a response to present. -/
inductive InExecution (s : State) : Prop where
  | idle (ha : s.activity = .idle)
  | reading {α ε : Type} (r : Reader α ε) (held : α → Activity) (finish : State → ε → State) (a : α)
      (ha : s.activity = held a) (h : ReadsWith s r held finish)
  | writing {α : Type} (next : α → Option (TaggedByte × α)) (bound : Nat) (held : α → Activity)
      (finish : State → α → State) (a : α) (ha : s.activity = held a)
      (h : WritesWith s next bound held finish a)
  | responding (r : RspWord) (ha : s.activity = .responding r)

theorem inExecution (s : State) : InExecution s := by
  cases ha : s.activity with
  | idle => exact .idle ha
  | hdrLoad staged =>
    exact .reading hdrLoadReader .hdrLoad finishHdrLoad staged ha
      { finishes := answers_finishHdrLoad
        goesOn := fun _ _ _ ht => advance_hdrLoad ht
        wants := fun _ _ _ ht => by simp [State.wantsByte, ht]
        silent := by simp [State.nextOutByte, ha] }
  | hdrStore k =>
    exact .writing (hdrStoreNext s.hdr) 12 .hdrStore (fun s' _ => s'.done 12) k ha
      { finishes := fun _ => answers_done fun _ _ _ => rfl
        goesOn := fun _ => advance_hdrStore ha
        keepsEos := fun _ _ => State.done_inEos _ _
        wants := fun _ _ ht => by simp [State.wantsByte, ht]
        byte := by simp [State.nextOutByte, ha] }
  | inNext =>
    exact .reading drainReader (fun _ => .inNext) finishInNext () ha
      { finishes := answers_finishInNext
        goesOn := fun _ _ _ ht => advance_inNext ht
        wants := fun _ _ _ ht => by simp [State.wantsByte, ht]
        silent := by simp [State.nextOutByte, ha] }
  | qBuild b =>
    exact .reading qBuildReader .qBuild finishQuestion b ha
      { finishes := answers_finishQuestion
        goesOn := fun _ _ _ ht => advance_qBuild ht
        wants := fun _ _ _ ht => by simp [State.wantsByte, ht]
        silent := by simp [State.nextOutByte, ha] }
  | qLoad p =>
    exact .reading (qLoadReader s.cfg.qcap) .qLoad finishQuestion p ha
      { finishes := answers_finishQuestion
        goesOn := fun _ _ hcfg ht => by rw [advance_qLoad ht, continueQLoad, hcfg]
        wants := fun _ _ hcfg ht => by simp [State.wantsByte, ht, hcfg]
        silent := by simp [State.nextOutByte, ha] }
  | qStore k =>
    exact .writing (qStoreNext s.qbuf s.qlen) s.qlen .qStore (fun s' _ => s'.done (BitVec.ofNat 16 s'.qlen)) k ha
      { finishes := fun _ => answers_done fun _ _ _ => rfl
        goesOn := fun _ => advance_qStore ha
        keepsEos := fun _ _ => State.done_inEos _ _
        wants := fun _ _ ht => by simp [State.wantsByte, ht]
        byte := by simp [State.nextOutByte, ha] }
  | qName n =>
    exact .writing (qNameNext s.qbuf) s.qlen .qName (fun s' c => s'.done (BitVec.ofNat 16 c.e)) n ha
      { finishes := fun _ => answers_done fun _ _ _ => rfl
        goesOn := fun _ => advance_qName ha
        keepsEos := fun _ _ => State.done_inEos _ _
        wants := fun _ _ ht => by simp [State.wantsByte, ht]
        byte := by simp [State.nextOutByte, ha] }
  | responding r => exact .responding r ha

/-! ### Accepting a command is going on from its first state -/

/-- Executing `i` in `s`, whatever the channels hold, is going on from `u`. -/
structure Starts (i : Instr) (s u : State) : Prop where
  cfg : u.cfg = s.cfg
  inEos : u.inEos = s.inEos
  reads : u.wantsByte = true → readsInput i = true
  writes : u.nextOutByte.isSome = true → writesOutput i = true
  runs : ∀ c, exec i (s.onChannels c) = .next (u.onChannels c).advance

/-- A command that answers at once starts with its response presented. -/
theorem starts_answer {i : Instr} {s : State} (u : State) (r : RspWord) (hcfg : u.cfg = s.cfg)
    (heos : u.inEos = s.inEos) (h : ∀ c, exec i (s.onChannels c) = .next ((u.onChannels c).deliver r)) :
    ∃ u, Starts i s u :=
  ⟨{ u with activity := .responding r }, hcfg, heos, nofun, nofun, h⟩

/-- A run of reads gives IN, IN_EOS and what is in execution their values, whatever they were before. -/
theorem afterReads_forgets {α ε : Type} (s : State) (input : List TaggedByte) (eos : Bool) (act : Activity)
    (held : α → Activity) {finish : State → ε → State} (hf : ∀ e, Answers fun s => finish s e) (c : Consumed α ε) :
    State.afterReads { s with input := input, inEos := eos, activity := act } held finish c =
      s.afterReads held finish c := by
  cases c with
  | ended e rest eos => exact (hf e).forgets { s with input := rest, inEos := eos } act
  | holding a eos => rfl

/-- So does a run of writes with what is in execution. -/
theorem writeFrom_forgets {α : Type} (s : State) (act : Activity) (next : α → Option (TaggedByte × α)) (bound : Nat)
    (held : α → Activity) {finish : State → α → State} (hf : ∀ a, Answers fun s => finish s a) (a : α) :
    State.writeFrom { s with activity := act } next bound held finish a = s.writeFrom next bound held finish a := by
  simp only [State.writeFrom]
  generalize produce next (s.outReady.grant bound) a = w
  split
  · exact (hf w.2).forgets { s with output := s.output ++ w.1, outReady := s.outReady.spend w.1.length } act
  · rfl

theorem starts_hdrLoad (s : State) : ∃ u, Starts .hdrLoad s u :=
  ⟨{ s with hv := false, activity := .hdrLoad [] }, rfl, rfl, fun _ => rfl, nofun, fun c =>
    congrArg Host.Outcome.next
      (afterReads_forgets (State.onChannels { s with hv := false } c) _ _ _ _ answers_finishHdrLoad _).symm⟩

theorem starts_inNext (s : State) : ∃ u, Starts .inNext s u :=
  ⟨{ s with activity := .inNext }, rfl, rfl, fun _ => rfl, nofun, fun c =>
    congrArg Host.Outcome.next (afterReads_forgets (s.onChannels c) _ _ _ _ answers_finishInNext _).symm⟩

theorem starts_qLoad (s : State) : ∃ u, Starts .qLoad s u :=
  ⟨{ s.dropQuestion with activity := .qLoad .start }, rfl, rfl, fun _ => rfl, nofun, fun c =>
    congrArg Host.Outcome.next
      (afterReads_forgets (s.dropQuestion.onChannels c) _ _ _ _ answers_finishQuestion _).symm⟩

theorem starts_qBuild (nameLen qtype qclass : Half) (s : State) : ∃ u, Starts (.qBuild nameLen qtype qclass) s u := by
  by_cases hc : nameLen.toNat + 6 > s.cfg.qcap
  · exact starts_answer s.dropQuestion.freeQuestion (rspWord .capacity 0) rfl rfl fun c =>
      congrArg Host.Outcome.next (if_pos hc)
  · refine ⟨{ s.dropQuestion with activity := .qBuild (.start nameLen qtype qclass) }, rfl, rfl, fun _ => rfl, nofun,
      fun c => congrArg Host.Outcome.next ((if_neg hc).trans ?_)⟩
    exact (afterReads_forgets (s.dropQuestion.onChannels c) _ _ _ _ answers_finishQuestion _).symm

/-- A command that needs a header, or a question, answers NO_OBJECT without one. -/
theorem starts_withHeader {i : Instr} {s : State} {effect : State → State}
    (hexec : ∀ s, exec i s = .next (s.withHeader effect))
    (h : (∀ c, exec i (s.onChannels c) = .next (effect (s.onChannels c))) → ∃ u, Starts i s u) :
    ∃ u, Starts i s u := by
  cases hv : s.hv with
  | true => exact h fun c => (hexec _).trans (congrArg _ (withHeader_of_valid (s := s.onChannels c) hv effect))
  | false => exact starts_answer s (rspWord .noObject 0) rfl rfl fun c =>
      (hexec _).trans (congrArg _ (withHeader_of_invalid (s := s.onChannels c) hv effect))

theorem starts_withQuestion {i : Instr} {s : State} {effect : State → State}
    (hexec : ∀ s, exec i s = .next (s.withQuestion effect))
    (h : (∀ c, exec i (s.onChannels c) = .next (effect (s.onChannels c))) → ∃ u, Starts i s u) :
    ∃ u, Starts i s u := by
  cases hv : s.qv with
  | true => exact h fun c => (hexec _).trans (congrArg _ (withQuestion_of_valid (s := s.onChannels c) hv effect))
  | false => exact starts_answer s (rspWord .noObject 0) rfl rfl fun c =>
      (hexec _).trans (congrArg _ (withQuestion_of_invalid (s := s.onChannels c) hv effect))

theorem starts_hdrStore (s : State) : ∃ u, Starts .hdrStore s u :=
  starts_withHeader (fun _ => rfl) fun h =>
    ⟨{ s with activity := .hdrStore 0 }, rfl, rfl, nofun, fun _ => rfl, fun c => (h c).trans
      (congrArg _ (writeFrom_forgets (s.onChannels c) _ _ _ _ (fun _ => answers_done fun _ _ _ => rfl) _).symm)⟩

theorem starts_qStore (s : State) : ∃ u, Starts .qStore s u :=
  starts_withQuestion (fun _ => rfl) fun h =>
    ⟨{ s with activity := .qStore 0 }, rfl, rfl, nofun, fun _ => rfl, fun c => (h c).trans
      (congrArg _ (writeFrom_forgets (s.onChannels c) _ _ _ _ (fun _ => answers_done fun _ _ _ => rfl) _).symm)⟩

theorem starts_qName (s : State) : ∃ u, Starts .qName s u :=
  starts_withQuestion (fun _ => rfl) fun h =>
    ⟨{ s with activity := .qName .start }, rfl, rfl, nofun, fun _ => rfl, fun c => (h c).trans
      (congrArg _ (writeFrom_forgets (s.onChannels c) _ _ _ _ (fun _ => answers_done fun _ _ _ => rfl) _).symm)⟩

/-- A question getter. -/
theorem starts_questionGetter {i : Instr} {data : State → Half}
    (hexec : ∀ s, exec i s = .next (s.withQuestion fun s => s.done (data s)))
    (hd : ∀ s c, data (s.onChannels c) = data s) (s : State) : ∃ u, Starts i s u :=
  starts_withQuestion hexec fun h => starts_answer s (rspWord .ok (data s)) rfl rfl fun c => by
    simp only [h, hd]; rfl

/-- Every command. -/
theorem exec_starts (i : Instr) (s : State) : ∃ u, Starts i s u := by
  cases hr : headerRead i with
  | some view =>
    exact starts_withHeader (exec_of_headerRead hr) fun h => starts_answer s (rspWord .ok (view s.hdr)) rfl rfl h
  | none =>
    cases hw : headerWrite i with
    | some write =>
      exact starts_withHeader (exec_of_headerWrite hw) fun h =>
        starts_answer { s with hdr := write s.hdr } (rspWord .ok 0) rfl rfl h
    | none =>
      cases i <;> simp only [headerRead, headerWrite, reduceCtorEq] at hr hw
      case getStatus => exact starts_answer s (rspWord .ok (statusView s)) rfl rfl fun _ => rfl
      case inNext => exact starts_inNext s
      case hdrClear =>
        exact starts_answer { s with hdr := Vector.replicate 12 0, hv := true } (rspWord .ok 0) rfl rfl fun _ => rfl
      case hdrLoad => exact starts_hdrLoad s
      case hdrStore => exact starts_hdrStore s
      case getBit o p =>
        have hl : legalByteOffset o = false := by simpa using hr
        exact starts_answer s (rspWord .illegalCmd 0) rfl rfl fun _ => by simp only [exec, execGetBit, hl]; rfl
      case setBit o p v =>
        have hl : legalByteOffset o = false := by simpa using hw
        exact starts_answer s (rspWord .illegalCmd 0) rfl rfl fun _ => by simp only [exec, execSetBit, hl]; rfl
      case qBuild nameLen qtype qclass => exact starts_qBuild nameLen qtype qclass s
      case qLoad => exact starts_qLoad s
      case qStore => exact starts_qStore s
      case qName => exact starts_qName s
      case qGetType => exact starts_questionGetter (data := questionType) (fun _ => rfl) (fun _ _ => rfl) s
      case qGetClass => exact starts_questionGetter (data := questionClass) (fun _ => rfl) (fun _ _ => rfl) s
      case qGetLen =>
        exact starts_questionGetter (data := fun s => BitVec.ofNat 16 s.qlen) (fun _ => rfl) (fun _ _ => rfl) s

end Sys2Proof.Machine
end

section
/-! PROOFS for 20_memory.md R53, R60, R65, R69 to R72: which streams a step moves, and in which direction. -/

namespace Sys2Proof.Machine

/-! ### The streams from one state to a later one -/

/-- The streams move forward from `s` to `t`: IN loses bytes from its front, and only if `reads`; OUT gains bytes, and
only if `writes`; not both; RSP gains at most one word; the host's words and the parameter stay. -/
structure Moves (reads writes : Prop) (s t : State) : Prop where
  input : ∃ k, t.input = s.input.drop k
  output : ∃ written, t.output = s.output ++ written
  rsp : ∃ issued, t.rsp = s.rsp ++ issued ∧ issued.length ≤ 1
  cmds : t.cmds = s.cmds
  cfg : t.cfg = s.cfg
  readsOnly : t.input ≠ s.input → reads
  writesOnly : t.output ≠ s.output → writes
  apart : SameInput s t ∨ t.output = s.output

theorem moves_refl (reads writes : Prop) (s : State) : Moves reads writes s s :=
  { input := ⟨0, rfl⟩
    output := ⟨[], by simp⟩
    rsp := ⟨[], by simp, by simp⟩
    cmds := rfl
    cfg := rfl
    readsOnly := fun hne => absurd rfl hne
    writesOnly := fun hne => absurd rfl hne
    apart := .inr rfl }

theorem Moves.mono {reads writes reads' writes' : Prop} {s t : State} (h : Moves reads writes s t)
    (hr : reads → reads') (hw : writes → writes') : Moves reads' writes' s t :=
  { h with readsOnly := hr ∘ h.readsOnly, writesOnly := hw ∘ h.writesOnly }

/-- Presenting a response: RSP gains it, or it waits. -/
theorem State.deliver_issues (s : State) (r : RspWord) :
    ∃ issued, (s.deliver r).rsp = s.rsp ++ issued ∧ issued.length ≤ 1 := by
  rcases s.deliver_rsp r with ⟨hr, -⟩ | ⟨hr, -⟩
  · exact ⟨[r], hr, Nat.le_refl 1⟩
  · exact ⟨[], by simpa using hr, Nat.zero_le 1⟩

theorem moves_deliver (reads writes : Prop) (s : State) (r : RspWord) : Moves reads writes s (s.deliver r) :=
  { input := ⟨0, s.deliver_input r⟩
    output := ⟨[], by simp⟩
    rsp := s.deliver_issues r
    cmds := s.deliver_cmds r
    cfg := s.deliver_cfg r
    readsOnly := fun hne => absurd (s.deliver_input r) hne
    writesOnly := fun hne => absurd (s.deliver_output r) hne
    apart := .inr (s.deliver_output r) }

/-- The end of a stream command moves nothing but RSP. -/
theorem Answers.moves {f : State → State} (hf : Answers f) (s : State) :
    (f s).input = s.input ∧ (f s).output = s.output ∧
      (∃ issued, (f s).rsp = s.rsp ++ issued ∧ issued.length ≤ 1) ∧ (f s).cmds = s.cmds ∧ (f s).cfg = s.cfg := by
  obtain ⟨u, r, hcfg, hu⟩ := hf s
  have e : f s = (u.onChannels s).deliver r := hu s s.activity
  rw [e]
  exact ⟨State.deliver_input _ r, State.deliver_output _ r, State.deliver_issues _ r, State.deliver_cmds _ r,
    (State.deliver_cfg _ r).trans hcfg⟩

/-! ### The two loops -/

/-- A run of reads takes a beginning of IN, and nothing where no byte is wanted. -/
theorem consume_rest {α ε : Type} {r : Reader α ε} {input rest : List TaggedByte} {eos eos' : Bool} {a : α} {e : ε}
    (h : consume r input eos a = .ended e rest eos') :
    (∃ k, rest = input.drop k) ∧ (rest ≠ input → r.ends a eos = none) := by
  constructor
  · obtain ⟨l, rest', rfl, -, ⟨e', -, hc⟩ | ⟨-, -, hc⟩⟩ := consume_cases r input eos a
    · rw [hc] at h; cases h; exact ⟨l.length, by simp⟩
    · rw [hc] at h; cases h
  · intro hne
    cases he : r.ends a eos with
    | none => rfl
    | some e' => rw [consume_of_ends r input eos a e' he] at h; cases h; exact absurd rfl hne

/-- A run of reads holds where a byte is wanted. -/
theorem consume_holds {α ε : Type} {r : Reader α ε} {input : List TaggedByte} {eos eos' : Bool} {a a' : α}
    (h : consume r input eos a = .holding a' eos') : r.ends a' eos' = none ∧ r.ends a eos = none := by
  constructor
  · obtain ⟨l, rest', rfl, -, ⟨e', -, hc⟩ | ⟨-, hn, hc⟩⟩ := consume_cases r input eos a
    · rw [hc] at h; cases h
    · rw [hc] at h; cases h; exact hn
  · cases he : r.ends a eos with
    | none => rfl
    | some e' => rw [consume_of_ends r input eos a e' he] at h; cases h

theorem moves_afterReads {α ε : Type} (writes : Prop) (s : State) (r : Reader α ε) (held : α → Activity)
    {finish : State → ε → State} (hf : ∀ e, Answers fun s => finish s e) (a : α) :
    Moves (r.ends a s.inEos = none) writes s (s.afterReads held finish (consume r s.input s.inEos a)) := by
  refine State.afterReads_of (Moves (r.ends a s.inEos = none) writes s) _ _ _ _ ?_ ?_
  · intro e rest eos hc
    obtain ⟨hin, hout, hrsp, hcmds, hcfg⟩ := (hf e).moves { s with input := rest, inEos := eos }
    obtain ⟨hdrop, hreads⟩ := consume_rest hc
    exact
      { input := by simpa only [hin] using hdrop
        output := ⟨[], by simpa using hout⟩
        rsp := hrsp
        cmds := hcmds
        cfg := hcfg
        readsOnly := fun hne => hreads (by simpa only [hin] using hne)
        writesOnly := fun hne => absurd hout hne
        apart := .inr hout }
  · intro a' eos hc
    exact { moves_refl False writes s with
      input := ⟨s.input.length, by simp⟩
      readsOnly := fun _ => (consume_holds hc).2
      apart := .inr rfl }

theorem moves_writeFrom {α : Type} (reads : Prop) (s : State) (next : α → Option (TaggedByte × α)) (bound : Nat)
    (held : α → Activity) {finish : State → α → State} (hf : ∀ a, Answers fun s => finish s a)
    (heos : ∀ s a, (finish s a).inEos = s.inEos) (a : α) :
    Moves reads ((next a).isSome = true) s (s.writeFrom next bound held finish a) := by
  have hw : ∀ w a', (w, a') = produce next (s.outReady.grant bound) a → s.output ++ w ≠ s.output →
      (next a).isSome = true := by
    intro w a' hp hne
    cases hn : next a with
    | some p => rfl
    | none =>
      rw [produce_none next _ _ hn] at hp
      cases hp
      simp at hne
  refine State.writeFrom_of (Moves reads ((next a).isSome = true) s) _ _ _ _ _ _ ?_ ?_
  · intro w a' hp _
    obtain ⟨hin, hout, hrsp, hcmds, hcfg⟩ :=
      (hf a').moves { s with output := s.output ++ w, outReady := s.outReady.spend w.length }
    exact
      { input := ⟨0, hin⟩
        output := ⟨w, hout⟩
        rsp := hrsp
        cmds := hcmds
        cfg := hcfg
        readsOnly := fun hne => absurd hin hne
        writesOnly := fun hne => hw w a' hp (by simpa only [hout] using hne)
        apart := .inl ⟨hin, heos _ _⟩ }
  · intro w a' hp _
    exact { moves_refl reads False s with
      output := ⟨w, rfl⟩
      writesOnly := hw w a' hp
      apart := .inl ⟨rfl, rfl⟩ }

/-! ### Going on, executing, stepping -/

/-- Going on with the command in execution reads only where in_ready could be 1, and writes only where out_valid
could be 1. -/
theorem advance_moves (s : State) : Moves (s.wantsByte = true) (s.nextOutByte.isSome = true) s s.advance := by
  cases inExecution s with
  | idle ha =>
    rw [State.advance, ha]
    exact moves_refl _ _ s
  | reading r held finish a ha h =>
    rw [h.goesOn s a rfl ha, h.wants s a rfl ha, Option.isNone_iff_eq_none]
    exact moves_afterReads _ s r held h.finishes a
  | writing next bound held finish a ha h =>
    have hgo : s.advance = s.writeFrom next bound held finish a := h.goesOn s
    rw [hgo, h.byte, Option.isSome_map]
    exact moves_writeFrom _ s next bound held h.finishes h.keepsEos a
  | responding r ha =>
    rw [advance_responding ha]
    exact moves_deliver _ _ s r

/-- A command reads only if it is a reading command, and writes only if it is a storing command. -/
theorem exec_moves {i : Instr} {s t : State} (h : exec i s = .next t) :
    Moves (readsInput i = true) (writesOutput i = true) s t := by
  obtain ⟨u, hu⟩ := exec_starts i s
  have he : exec i s = .next (u.onChannels s).advance := hu.runs s
  rw [he] at h
  cases h
  have hm := (advance_moves (u.onChannels s)).mono hu.reads hu.writes
  exact { hm with
    cfg := hm.cfg.trans hu.cfg
    apart := hm.apart.imp_left fun ⟨hin, heos⟩ => ⟨hin, heos.trans hu.inEos⟩ }

/-- Settles O12: the reset and the idle step move nothing, a word accepted is the first of those waiting, and what the
command then moves is said by `exec_moves` and `advance_moves`. -/
theorem streamsMoveOnlyForward : Obligations.StreamsMoveOnlyForward := by
  intro s t hstep
  rcases step_cases hstep with ⟨-, rfl⟩ | ⟨-, -, -, rfl⟩ | ⟨-, -, w, rest, i, hc, -, hexec⟩ |
    ⟨-, -, w, rest, e, hc, -, rfl⟩ | ⟨-, -, rfl⟩
  · exact ⟨⟨[], by simp⟩, ⟨[], by simp, by simp⟩, ⟨0, rfl⟩, .inl rfl, rfl⟩
  · exact ⟨⟨[], by simp⟩, ⟨[], by simp, by simp⟩, ⟨0, rfl⟩, .inl rfl, rfl⟩
  · have hm := exec_moves hexec
    exact ⟨hm.output, hm.rsp, hm.input, .inr ⟨w, by rw [hm.cmds]; exact hc⟩, hm.cfg⟩
  · have hm := moves_deliver True True (s.accept rest) (rspWord .illegalCmd 0)
    exact ⟨hm.output, hm.rsp, hm.input, .inr ⟨w, by rw [State.illegal_cmds]; exact hc⟩, hm.cfg⟩
  · have hm := advance_moves s
    exact ⟨hm.output, hm.rsp, hm.input, .inl hm.cmds, hm.cfg⟩

/-- Settles O13: the conditions of `advance_moves` are the ports' where rst = 0, and those of `exec_moves` are the kinds
of commands. -/
theorem transfersOnlyInCommandsThatCallForThem : Obligations.TransfersOnlyInCommandsThatCallForThem := by
  refine ⟨fun s t hstep => ?_, fun i s t hexec => (exec_moves hexec).apart⟩
  rcases step_cases hstep with ⟨-, rfl⟩ | ⟨-, -, -, rfl⟩ | ⟨hrst, ha, w, rest, i, hc, hd, hexec⟩ |
    ⟨-, -, w, rest, e, -, -, rfl⟩ | ⟨hrst, -, rfl⟩
  · exact ⟨fun hne => absurd rfl hne, fun hne => absurd rfl hne⟩
  · exact ⟨fun hne => absurd rfl hne, fun hne => absurd rfl hne⟩
  · have hm := exec_moves hexec
    have hready : s.cmdReady = true := by simp [State.cmdReady, hrst, ha]
    exact ⟨fun hne => .inr ⟨hready, w, rest, i, hc, hd, hm.readsOnly hne⟩,
      fun hne => .inr ⟨hready, w, rest, i, hc, hd, hm.writesOnly hne⟩⟩
  · exact ⟨fun hne => absurd (State.illegal_input _) hne, fun hne => absurd (State.illegal_output _) hne⟩
  · have hm := advance_moves s
    exact ⟨fun hne => .inl (by simp [State.inReady, hrst, hm.readsOnly hne]),
      fun hne => .inl (by simp [State.outValid, hrst, hm.writesOnly hne])⟩

/-- Settles O7: the step's own branches; going on takes no word by `advance_moves`. -/
theorem stepRunsTheDecodedCommand : Obligations.StepRunsTheDecodedCommand := by
  constructor
  · intro s w rest i hrst ha hc hd
    simp [step, runWord, State.accept, hrst, ha, hc, hd]
  · intro s hrst ha
    exact ⟨by simp [step, hrst, ha], (advance_moves s).cmds⟩

end Sys2Proof.Machine
end

section
/-! PROOFS for 20_memory.md R64, R65, R67: a hold changes nothing, and only the byte it waits for lifts it. -/

namespace Sys2Proof.Machine

/-! ### Holding (R64, R67) -/

/-- Waiting for a byte (R64). -/
theorem advance_of_wantsByte {s : State} (hw : s.wantsByte = true) (hin : s.input = []) : s.advance = s := by
  cases inExecution s with
  | idle ha =>
    simp [State.wantsByte, ha] at hw
  | reading r held finish a ha h =>
    rw [h.wants s a rfl ha, Option.isNone_iff_eq_none] at hw
    rw [h.goesOn s a rfl ha, hin, consume_nil_of_wants r _ _ hw, State.afterReads, ← hin, ← ha]
  | writing next bound held finish a ha h =>
    rw [h.wants s a ha] at hw; cases hw
  | responding r ha =>
    simp [State.wantsByte, ha] at hw

/-- Waiting for the transport (R67). -/
theorem advance_of_nextOutByte {s : State} (hb : s.nextOutByte.isSome = true) (hr : s.outReady.grant 1 = 0) :
    s.advance = s := by
  have hzero : s.outReady = .times 0 := by
    obtain ⟨n, hn, hlt⟩ := Readiness.of_grant_ne (r := s.outReady) (k := 1) (by omega)
    rw [hn, Nat.lt_one_iff.1 hlt]
  cases inExecution s with
  | idle ha =>
    simp [State.nextOutByte, ha] at hb
  | reading r held finish a ha h =>
    rw [h.silent] at hb; cases hb
  | writing next bound held finish a ha h =>
    rw [h.byte, Option.isSome_map] at hb
    obtain ⟨p, hp⟩ := Option.isSome_iff_exists.1 hb
    have hgo : s.advance = s.writeFrom next bound held finish a := h.goesOn s
    rw [hgo]
    simp only [State.writeFrom, hzero, Readiness.grant_times, Nat.zero_min, produce, hp, List.append_nil,
      List.length_nil, Readiness.spend_zero, ← ha]
    rw [← hzero]
  | responding r ha =>
    simp [State.nextOutByte, ha] at hb

/-- Settles O9: nothing to do, or one of the three holds. -/
theorem stepWithNoTransferChangesNothing : Obligations.StepWithNoTransferChangesNothing := by
  rintro s hrst (⟨ha, hc⟩ | ⟨hw, hin⟩ | ⟨hb, hr⟩ | ⟨⟨r, ha⟩, hr⟩)
  · simp [step, hrst, ha, hc]
  · have ha : s.activity ≠ .idle := fun ha => by simp [State.wantsByte, ha] at hw
    simp [step, hrst, ha, advance_of_wantsByte hw hin]
  · have ha : s.activity ≠ .idle := fun ha => by simp [State.nextOutByte, ha] at hb
    simp [step, hrst, ha, advance_of_nextOutByte hb hr]
  · have hwait : s.deliver r = s := by
      rw [State.deliver_waiting (by simp [HostReady, hr]), ← ha]
    simp [step, hrst, ha, advance_responding ha, hwait]

/-! ### Input that arrives later (R64, R65) -/

/-- What more input makes of a state: where a byte is wanted the command goes on with it, elsewhere it waits on the
stream. -/
def State.goOnWith (t : State) (later : List TaggedByte) : State :=
  if t.wantsByte then (t.presentInput later).advance else t.presentInput later

theorem goOnWith_of_wants {t : State} (h : t.wantsByte = true) (later : List TaggedByte) :
    t.goOnWith later = (t.presentInput later).advance := if_pos h

theorem goOnWith_of_not_wants {t : State} (h : t.wantsByte = false) (later : List TaggedByte) :
    t.goOnWith later = t.presentInput later := if_neg (by simp [h])

/-- A response does not touch the input stream. -/
theorem State.deliver_presentInput (s : State) (later : List TaggedByte) (r : RspWord) :
    (s.presentInput later).deliver r = (s.deliver r).presentInput later := by
  by_cases h : HostReady s
  · rw [State.deliver_ready h, State.deliver_ready (by exact h)]; rfl
  · rw [State.deliver_waiting h, State.deliver_waiting (by exact h)]; rfl

theorem State.deliver_wantsByte (s : State) (r : RspWord) : (s.deliver r).wantsByte = false := by
  rcases s.deliver_rsp r with ⟨-, ha⟩ | ⟨-, ha⟩ <;> simp [State.wantsByte, ha]

/-- A command that has answered leaves later input on the stream. -/
theorem goOnWith_deliver (s : State) (later : List TaggedByte) (r : RspWord) :
    (s.presentInput later).deliver r = (s.deliver r).goOnWith later := by
  rw [goOnWith_of_not_wants (s.deliver_wantsByte r), State.deliver_presentInput]

theorem Answers.goOnWith {f : State → State} (hf : Answers f) (s : State) (later : List TaggedByte) :
    f (s.presentInput later) = (f s).goOnWith later := by
  obtain ⟨u, r, -, hu⟩ := hf s
  have e : f s = (u.onChannels s).deliver r := hu s s.activity
  rw [e, ← goOnWith_deliver]
  exact hu (s.presentInput later) s.activity

/-- A reading command: `consume_append` says what the later bytes do, and where it holds its own state says where it goes
on. -/
theorem goOnWith_afterReads {α ε : Type} {s : State} {r : Reader α ε} {held : α → Activity}
    {finish : State → ε → State} (h : ReadsWith s r held finish) (a : α) (later : List TaggedByte) :
    (s.presentInput later).afterReads held finish (consume r (s.input ++ later) s.inEos a) =
      (s.afterReads held finish (consume r s.input s.inEos a)).goOnWith later := by
  rw [consume_append]
  cases hc : consume r s.input s.inEos a with
  | ended e rest eos => exact (h.finishes e).goOnWith { s with input := rest, inEos := eos } later
  | holding a' eos =>
    have hw : State.wantsByte { s with input := [], inEos := eos, activity := held a' } = true := by
      rw [h.wants _ a' (by rfl) (by rfl), Option.isNone_iff_eq_none]
      exact (consume_holds hc).1
    have hgo : (State.presentInput { s with input := [], inEos := eos, activity := held a' } later).advance =
        State.afterReads { s.presentInput later with input := later, inEos := eos, activity := held a' } held finish
          (consume r later eos a') := h.goesOn _ a' rfl rfl
    exact (((goOnWith_of_wants hw later).trans hgo).trans (afterReads_forgets _ _ _ _ held h.finishes _)).symm

/-- A storing command does not look at the input stream. -/
theorem goOnWith_writeFrom {α : Type} {s : State} {next : α → Option (TaggedByte × α)} {bound : Nat}
    {held : α → Activity} {finish : State → α → State} {a : α} (h : WritesWith s next bound held finish a)
    (later : List TaggedByte) :
    (s.presentInput later).writeFrom next bound held finish a =
      (s.writeFrom next bound held finish a).goOnWith later := by
  simp only [State.writeFrom, State.presentInput_outReady, State.presentInput_output]
  generalize produce next (s.outReady.grant bound) a = w
  split
  · exact (h.finishes w.2).goOnWith
      { s with output := s.output ++ w.1, outReady := s.outReady.spend w.1.length } later
  · rw [goOnWith_of_not_wants (h.wants _ w.2 (by rfl))]; rfl

/-- R64 and R65 for whatever is in execution. -/
theorem advance_presentInput (s : State) (later : List TaggedByte) :
    (s.presentInput later).advance = s.advance.goOnWith later := by
  cases inExecution s with
  | idle ha =>
    have hs : s.advance = s := by rw [State.advance, ha]
    have hs' : (s.presentInput later).advance = s.presentInput later := by
      rw [State.advance, State.presentInput_activity, ha]
    rw [hs, hs', goOnWith_of_not_wants (by simp [State.wantsByte, ha])]
  | reading r held finish a ha h =>
    rw [h.goesOn s a rfl ha, h.goesOn (s.presentInput later) a rfl ha]
    exact goOnWith_afterReads h a later
  | writing next bound held finish a ha h =>
    have hgo : s.advance = s.writeFrom next bound held finish a := h.goesOn s
    rw [hgo, ← goOnWith_writeFrom h later]
    exact h.goesOn (s.presentInput later)
  | responding r ha =>
    rw [advance_responding ha, advance_responding (s := s.presentInput later) ha]
    exact goOnWith_deliver s later r

/-- Settles O22: executing a command is going on from its first state (`exec_starts`), so `advance_presentInput` covers
every command. -/
theorem arrivalOfInputInPiecesMakesNoDifference : Obligations.ArrivalOfInputInPiecesMakesNoDifference := by
  intro i s t later h
  obtain ⟨u, hu⟩ := exec_starts i s
  have he : exec i s = .next (u.onChannels s).advance := hu.runs s
  rw [he] at h
  cases h
  have hlater : exec i (s.presentInput later) = .next ((u.onChannels s).advance.goOnWith later) := by
    rw [← advance_presentInput]
    exact hu.runs (s.presentInput later)
  rw [hlater]
  exact ⟨fun hw => congrArg _ (goOnWith_of_wants hw later), fun hw => congrArg _ (goOnWith_of_not_wants hw later)⟩

end Sys2Proof.Machine
end

section
/-! PROOFS for 20_memory.md R69, 70_reset_and_hazards.md R279 (c): a response the host does not take waits, and the
command's other effects do not. -/

namespace Sys2Proof.Machine

/-- Where `f` issues a response from `s` with the host ready for one, it has the same other effects with the host ready
for none, and presents the response. -/
def ResponseWaits (f : State → State) (s : State) : Prop :=
  s.rspReady = .times 0 → ∀ r, (f (s.setRspReady (.times 1))).rsp = s.rsp ++ [r] →
    f s = { f (s.setRspReady (.times 1)) with rsp := s.rsp, activity := .responding r }

theorem responseWaits_deliver (s : State) (r : RspWord) : ResponseWaits (fun s => s.deliver r) s := by
  intro h0 r' hr
  have hready : HostReady (s.setRspReady (.times 1)) := rfl
  have hwaits : ¬ HostReady s := by simp [HostReady, h0]
  simp only [State.deliver_ready hready, State.setRspReady_rsp, List.append_cancel_left_eq, List.cons.injEq,
    and_true] at hr
  simp only [State.deliver_waiting hwaits, State.deliver_ready hready, hr]
  cases s
  cases h0
  rfl

theorem Answers.responseWaits {f : State → State} (hf : Answers f) (s : State) : ResponseWaits f s := by
  obtain ⟨u, r, -, hu⟩ := hf s
  have e : f s = (u.onChannels s).deliver r := hu s s.activity
  have e' : f (s.setRspReady (.times 1)) = ((u.onChannels s).setRspReady (.times 1)).deliver r :=
    hu (s.setRspReady (.times 1)) s.activity
  unfold ResponseWaits
  rw [e, e']
  exact responseWaits_deliver (u.onChannels s) r

/-- Where RSP does not change, no response was issued. -/
theorem responseWaits_of_rsp {f : State → State} {s : State} (h : (f (s.setRspReady (.times 1))).rsp = s.rsp) :
    ResponseWaits f s := by
  intro _ r hr
  rw [h] at hr
  simp at hr

theorem responseWaits_advance (s : State) : ResponseWaits State.advance s := by
  cases inExecution s with
  | idle ha =>
    refine responseWaits_of_rsp ?_
    rw [State.advance, State.setRspReady_activity, ha]
    rfl
  | reading r held finish a ha h =>
    have hgo := h.goesOn s a rfl ha
    have hgo' := h.goesOn (s.setRspReady (.times 1)) a rfl ha
    rw [State.setRspReady_input, State.setRspReady_inEos] at hgo'
    cases hc : consume r s.input s.inEos a with
    | ended e rest eos =>
      rw [hc] at hgo hgo'
      unfold ResponseWaits
      rw [hgo, hgo']
      exact (h.finishes e).responseWaits { s with input := rest, inEos := eos }
    | holding a' eos =>
      rw [hc] at hgo'
      exact responseWaits_of_rsp (by rw [hgo']; rfl)
  | writing next bound held finish a ha h =>
    have hgo : s.advance = s.writeFrom next bound held finish a := h.goesOn s
    have hgo' : (s.setRspReady (.times 1)).advance =
        (s.setRspReady (.times 1)).writeFrom next bound held finish a := h.goesOn (s.setRspReady (.times 1))
    simp only [State.writeFrom, State.setRspReady_outReady, State.setRspReady_output] at hgo hgo'
    generalize produce next (s.outReady.grant bound) a = w at hgo hgo'
    split at hgo'
    · rename_i hn
      rw [hn] at hgo
      unfold ResponseWaits
      rw [hgo, hgo']
      exact (h.finishes w.2).responseWaits
        { s with output := s.output ++ w.1, outReady := s.outReady.spend w.1.length }
    · exact responseWaits_of_rsp (by rw [hgo']; rfl)
  | responding r ha =>
    unfold ResponseWaits
    rw [advance_responding ha, advance_responding (s := s.setRspReady (.times 1)) ha]
    exact responseWaits_deliver s r

/-- R69 for every command. -/
theorem exec_responseWaits {i : Instr} {s t : State} {r : RspWord} (h0 : s.rspReady = .times 0)
    (h : exec i (s.setRspReady (.times 1)) = .next t) (hr : t.rsp = s.rsp ++ [r]) :
    exec i s = .next { t with rsp := s.rsp, activity := .responding r } := by
  obtain ⟨u, hu⟩ := exec_starts i s
  have he : exec i s = .next (u.onChannels s).advance := hu.runs s
  have he' : exec i (s.setRspReady (.times 1)) = .next ((u.onChannels s).setRspReady (.times 1)).advance :=
    hu.runs (s.setRspReady (.times 1))
  rw [he'] at h
  cases h
  exact he.trans (congrArg _ (responseWaits_advance (u.onChannels s) h0 r hr))

/-- Settles O10: a command by `exec_responseWaits`, a word that spells none by `responseWaits_deliver`; the rest is what
presenting and taking a response are. -/
theorem responseWaitsForTheHost : Obligations.ResponseWaitsForTheHost := by
  refine ⟨fun i s t r h0 h hr => exec_responseWaits h0 h hr, fun w s t r h0 h hr => ?_,
    fun s w rest e hrst ha hc hd hn => ?_, fun u r hrst ha => ⟨?_, ?_, fun hready => ?_⟩⟩
  · unfold runWord at h ⊢
    cases hd : decode w with
    | ok i => rw [hd] at h; exact exec_responseWaits h0 h hr
    | error e =>
      rw [hd] at h
      cases h
      exact congrArg _ (responseWaits_deliver s (rspWord .illegalCmd 0) h0 r hr)
  · have hstep : step s = .next (s.accept rest).illegal := by simp [step, runWord, hrst, ha, hc, hd]
    exact hstep.trans (congrArg _ (State.deliver_waiting (s := s.accept rest) hn _))
  · simp [State.rspValid, hrst, ha]
  · simp [State.rspData, hrst, ha]
  · simp [step, hrst, ha, advance_responding ha, State.deliver_ready hready]

end Sys2Proof.Machine
end

section
/-! PROOFS for 30_encoding.md R90 to R105: which words spell which commands. `Form.Spells` is R91's table as a relation,
format by format; the decoder accepts exactly what it relates (`decode_eq_ok_iff`), the encoder writes what it relates
(`Instr.spelled`), and the opcode table's patterns match what it relates (`decode_ok_iff_matches`). -/

namespace Sys2Proof

/-! ### The fields a format admits (R91) -/

/-- The fields `sel`, `c`, `b`, `a` spell the command `i` in a format. -/
inductive Form.Spells : Form → BitVec 8 → Half → Half → Half → Instr → Prop where
  | n (i : Instr) : Spells (.n i) 0 0 0 0 i
  | v (mk : Half → Instr) (value : Half) : Spells (.v mk) 0 0 0 value (mk value)
  | f (mk : Bool → Instr) (value : Bool) : Spells (.f mk) 0 0 0 (flagField value) (mk value)
  | eo (mk : OpcodeSym → Instr) (sym : OpcodeSym) : Spells (.eo mk) 0 0 0 (opcodeSymField sym) (mk sym)
  | er (mk : RcodeSym → Instr) (sym : RcodeSym) : Spells (.er mk) 0 0 0 (rcodeSymField sym) (mk sym)
  | bg (mk : BitVec 4 → BitVec 3 → Instr) (o : BitVec 4) (p : BitVec 3) (ho : legalByteOffset o = true) :
      Spells (.bg mk) (selectorField o p) 0 0 0 (mk o p)
  | bs (mk : BitVec 4 → BitVec 3 → Bool → Instr) (o : BitVec 4) (p : BitVec 3) (value : Bool)
      (ho : legalByteOffset o = true) : Spells (.bs mk) (selectorField o p) 0 0 (flagField value) (mk o p value)
  | q (mk : Half → Half → Half → Instr) (nameLen qtype qclass : Half) :
      Spells (.q mk) 0 nameLen qclass qtype (mk nameLen qtype qclass)

/-- In the format of opcode `op`, the fields are those the encoder gives the command, and the command is well formed. -/
theorem Form.Spells.hasFields {f : Form} {op sel : BitVec 8} {c b a : Half} {i : Instr} (h : f.Spells sel c b a i)
    (hf : f.Agrees op) : i.WellFormed ∧ i.HasFields op sel c b a := by
  cases h with
  | n => exact hf
  | v | f | eo | er | q => apply hf
  | bg mk o p ho => exact (hf o p).imp_left fun hw => hw.trans ho
  | bs mk o p value ho => exact (hf o p value).imp_left fun hw => hw.trans ho

/-- The fields the encoder gives a well-formed command spell it in the format of its opcode. -/
theorem Instr.spelled {i : Instr} (h : i.WellFormed) :
    ∃ f, formOf (opcodeByte i) = some f ∧ f.Spells (selOperand i) (cOperand i) (bOperand i) (aOperand i) i := by
  cases i with
  | setId v | setQdcount v | setAncount v | setNscount v | setArcount v => exact ⟨_, rfl, .v _ v⟩
  | setQr v | setAa v | setTc v | setRd v | setRa v => exact ⟨_, rfl, .f _ v⟩
  | setOpcode sym => exact ⟨_, rfl, .eo _ sym⟩
  | setRcode sym => exact ⟨_, rfl, .er _ sym⟩
  | getBit o p => exact ⟨_, rfl, .bg _ o p h⟩
  | setBit o p v => exact ⟨_, rfl, .bs _ o p v h⟩
  | qBuild nameLen qtype qclass => exact ⟨_, rfl, .q _ nameLen qtype qclass⟩
  | _ => exact ⟨_, rfl, .n _⟩

/-! ### The decoder (R98) -/

theorem orOutOfRange_eq_ok_iff {i : Option Instr} {j : Instr} : orOutOfRange i = .ok j ↔ i = some j := by
  cases i <;> simp [orOutOfRange]

/-- A check of the decoder lets through what passes it. -/
theorem checked_eq_ok_iff {c : Prop} [Decidable c] {x : Except DecodeReject Instr} {e : DecodeReject} {i : Instr} :
    (if c then x else .error e) = .ok i ↔ c ∧ x = .ok i := by
  split <;> simp [*]

/-- The decoder accepts what the format of the opcode spells. -/
theorem decodeFields_of_spells {f : Form} {op sel : BitVec 8} {c b a : Half} {i : Instr} (hf : formOf op = some f)
    (h : f.Spells sel c b a i) : decodeFields op sel c b a = .ok i := by
  cases h <;> simp [decodeFields, orOutOfRange, *]

/-- The decoder accepts nothing else. -/
theorem spells_of_decodeFields {op sel : BitVec 8} {c b a : Half} {i : Instr} (h : decodeFields op sel c b a = .ok i) :
    ∃ f, formOf op = some f ∧ f.Spells sel c b a i := by
  unfold decodeFields at h
  split at h <;>
    simp only [checked_eq_ok_iff, orOutOfRange_eq_ok_iff, Option.map_eq_some_iff, Except.ok.injEq, reduceCtorEq] at h
  all_goals refine ⟨_, ‹_›, ?_⟩
  · obtain ⟨⟨rfl, rfl, rfl, rfl⟩, rfl⟩ := h
    exact .n _
  · obtain ⟨⟨rfl, rfl, rfl⟩, rfl⟩ := h
    exact .v _ a
  · obtain ⟨⟨rfl, rfl, rfl⟩, value, hv, rfl⟩ := h
    exact flagField_of_flagOf a value hv ▸ .f _ value
  · obtain ⟨⟨rfl, rfl, rfl⟩, sym, hs, rfl⟩ := h
    exact opcodeSymField_of_opcodeSymOf a sym hs ▸ .eo _ sym
  · obtain ⟨⟨rfl, rfl, rfl⟩, sym, hs, rfl⟩ := h
    exact rcodeSymField_of_rcodeSymOf a sym hs ▸ .er _ sym
  · obtain ⟨⟨rfl, rfl, rfl⟩, hl, rfl⟩ := h
    have := Form.Spells.bg ‹_› (selByteOffset sel) (selBitPosition sel) (legalByteOffset_of_selectorLegal sel hl)
    rwa [selectorField_operands sel hl] at this
  · obtain ⟨⟨rfl, rfl⟩, hl, value, hv, rfl⟩ := h
    have := Form.Spells.bs ‹_› (selByteOffset sel) (selBitPosition sel) value (legalByteOffset_of_selectorLegal sel hl)
    rwa [selectorField_operands sel hl, flagField_of_flagOf a value hv] at this
  · obtain ⟨rfl, rfl⟩ := h
    exact .q _ c a b

/-- `Decode` accepts exactly what R91 spells. -/
theorem decode_eq_ok_iff {w : CmdWord} {i : Instr} :
    decode w = .ok i ↔ ∃ f, formOf (cmdOp w) = some f ∧ f.Spells (cmdSel w) (cmdC w) (cmdB w) (cmdA w) i :=
  ⟨spells_of_decodeFields, fun ⟨_, hf, h⟩ => decodeFields_of_spells hf h⟩

/-- Decoding undoes encoding. -/
theorem decode_encode {i : Instr} (h : i.WellFormed) : decode (encode i) = .ok i := by
  obtain ⟨f, hf, hs⟩ := Instr.spelled h
  rw [encode, decode_packWord]
  exact decodeFields_of_spells hf hs

/-- Settles O1: the encoder's fields spell the command (`Instr.spelled`), and the decoder accepts what is spelled. -/
theorem decodeOfEncodeIsTheCommand : Obligations.DecodeOfEncodeIsTheCommand := fun _ h => decode_encode h

/-- Settles O2: what the decoder accepts is spelled by the word's fields, which are then the encoder's. -/
theorem encodeOfDecodeIsTheWord : Obligations.EncodeOfDecodeIsTheWord := by
  intro w i h
  obtain ⟨f, hf, hs⟩ := decode_eq_ok_iff.1 h
  obtain ⟨hw, hfields⟩ := hs.hasFields (formOf_agrees _ f hf)
  exact ⟨hw, hfields.encode_eq.trans (packWord_fields w)⟩

/-! ### The opcode table's patterns (R92) -/

/-- A pattern that fixes the opcode and the fields `c` and `b`, the latter at 0, and under a mask `sel` and `a`. -/
def rowPattern (op sel selMask : BitVec 8) (a aMask : Half) : WordPattern :=
  { bits := packWord op sel 0 0 a, mask := packWord 0xFF selMask 0xFFFF 0xFFFF aMask }

/-- The patterns of the table's row for an opcode of this format. -/
def Form.patterns (op : BitVec 8) (f : Form) : List WordPattern :=
  match f with
  | .n _ => [rowPattern op 0 0xFF 0 0xFFFF]
  | .v _ => [rowPattern op 0 0xFF 0 0]
  | .f _ => [rowPattern op 0 0xFF 0 0xFFFE]
  | .eo _ => [rowPattern op 0 0xFF 0 0xFFFC]
  | .er _ => [rowPattern op 0 0xFF 0 0xFFFC, rowPattern op 0 0xFF 4 0xFFFE]
  | .bg _ => [rowPattern op 0 0x88 0 0xFFFF, rowPattern op 0x80 0xC8 0 0xFFFF]
  | .bs _ => [rowPattern op 0 0x88 0 0xFFFE, rowPattern op 0x80 0xC8 0 0xFFFE]
  | .q _ => [{ bits := packWord op 0 0 0 0, mask := packWord 0xFF 0xFF 0 0 0 }]

/-- The patterns of the opcode map's row for `op`: none where it is reserved. -/
def opPatterns (op : BitVec 8) : List WordPattern :=
  match formOf op with
  | none => []
  | some f => f.patterns op

theorem opPatterns_subset_table (op : BitVec 8) : opPatterns op ⊆ tablePatternsN ++ tablePatternsOperand := by
  revert op; decide +kernel

theorem mem_opPatterns_of_mem_table :
    ∀ p ∈ tablePatternsN ++ tablePatternsOperand, p ∈ opPatterns (cmdOp p.bits) := by decide +kernel

theorem cmdOp_mask_of_mem_table : ∀ p ∈ tablePatternsN ++ tablePatternsOperand, cmdOp p.mask = 0xFF := by
  decide +kernel

/-! Words are masked field by field, and equal where their fields are. -/

@[simp] theorem cmdOp_and (w w' : CmdWord) : cmdOp (w &&& w') = cmdOp w &&& cmdOp w' := BitVec.extractLsb'_and
@[simp] theorem cmdSel_and (w w' : CmdWord) : cmdSel (w &&& w') = cmdSel w &&& cmdSel w' := BitVec.extractLsb'_and
@[simp] theorem cmdC_and (w w' : CmdWord) : cmdC (w &&& w') = cmdC w &&& cmdC w' := BitVec.extractLsb'_and
@[simp] theorem cmdB_and (w w' : CmdWord) : cmdB (w &&& w') = cmdB w &&& cmdB w' := BitVec.extractLsb'_and
@[simp] theorem cmdA_and (w w' : CmdWord) : cmdA (w &&& w') = cmdA w &&& cmdA w' := BitVec.extractLsb'_and

theorem word_ext_iff {w w' : CmdWord} :
    w = w' ↔ cmdOp w = cmdOp w' ∧ cmdSel w = cmdSel w' ∧ cmdC w = cmdC w' ∧ cmdB w = cmdB w' ∧ cmdA w = cmdA w' := by
  refine ⟨by rintro rfl; simp, fun ⟨hop, hsel, hc, hb, ha⟩ => ?_⟩
  rw [← packWord_fields w, ← packWord_fields w', hop, hsel, hc, hb, ha]

/-- A pattern admits a word where it admits each field. -/
theorem admits_packWord (op opMask sel selMask : BitVec 8) (c cMask b bMask a aMask : Half) (w : CmdWord) :
    WordPattern.admits { bits := packWord op sel c b a, mask := packWord opMask selMask cMask bMask aMask } w = true ↔
      cmdOp w &&& opMask = op ∧ cmdSel w &&& selMask = sel ∧ cmdC w &&& cMask = c ∧ cmdB w &&& bMask = b ∧
        cmdA w &&& aMask = a := by
  simp [WordPattern.admits, word_ext_iff]

/-! A field the pattern fixes is compared whole, one it leaves free not at all. -/

theorem byte_and_full (x : BitVec 8) : x &&& 0xFF = x := BitVec.and_allOnes
theorem half_and_full (x : Half) : x &&& 0xFFFF = x := BitVec.and_allOnes
theorem half_and_none (x : Half) : x &&& 0 = 0 := BitVec.and_zero

theorem rowPattern_admits (sel selMask : BitVec 8) (a aMask : Half) (w : CmdWord) :
    (rowPattern (cmdOp w) sel selMask a aMask).admits w = true ↔
      cmdSel w &&& selMask = sel ∧ cmdC w = 0 ∧ cmdB w = 0 ∧ cmdA w &&& aMask = a := by
  rw [rowPattern, admits_packWord]
  simp only [byte_and_full, half_and_full, true_and]

/-! The operands under their masks (R99 to R103). -/

/-- Clearing the lowest `n` bits. -/
theorem half_and_high (x : Half) (n : Nat) : x &&& BitVec.allOnes 16 <<< n = x >>> n <<< n :=
  BitVec.shiftLeft_ushiftRight.symm

theorem exists_flagField_iff (a : Half) : (∃ v, flagField v = a) ↔ a &&& 0xFFFE = 0 := by
  rw [show (0xFFFE : Half) = BitVec.allOnes 16 <<< 1 from rfl, half_and_high]
  constructor
  · rintro ⟨v, rfl⟩; cases v <;> rfl
  · intro h
    obtain rfl | rfl : a = 0 ∨ a = 1 := by bv_omega
    · exact ⟨false, rfl⟩
    · exact ⟨true, rfl⟩

theorem exists_opcodeSymField_iff (a : Half) : (∃ sym, opcodeSymField sym = a) ↔ a &&& 0xFFFC = 0 := by
  rw [show (0xFFFC : Half) = BitVec.allOnes 16 <<< 2 from rfl, half_and_high]
  constructor
  · rintro ⟨sym, rfl⟩; cases sym <;> rfl
  · intro h
    obtain rfl | rfl | rfl | rfl : a = 0 ∨ a = 1 ∨ a = 2 ∨ a = 3 := by bv_omega
    · exact ⟨.query, rfl⟩
    · exact ⟨.iquery, rfl⟩
    · exact ⟨.status, rfl⟩
    · exact ⟨.reserved, rfl⟩

theorem exists_rcodeSymField_iff (a : Half) :
    (∃ sym, rcodeSymField sym = a) ↔ a &&& 0xFFFC = 0 ∨ a &&& 0xFFFE = 4 := by
  rw [show (0xFFFC : Half) = BitVec.allOnes 16 <<< 2 from rfl, show (0xFFFE : Half) = BitVec.allOnes 16 <<< 1 from rfl,
    half_and_high, half_and_high]
  constructor
  · rintro ⟨sym, rfl⟩; cases sym <;> decide
  · intro h
    obtain rfl | rfl | rfl | rfl | rfl | rfl : a = 0 ∨ a = 1 ∨ a = 2 ∨ a = 3 ∨ a = 4 ∨ a = 5 := by bv_omega
    · exact ⟨.noError, rfl⟩
    · exact ⟨.formatError, rfl⟩
    · exact ⟨.serverFailure, rfl⟩
    · exact ⟨.nameError, rfl⟩
    · exact ⟨.notImplemented, rfl⟩
    · exact ⟨.refused, rfl⟩

theorem selectorLegal_iff (sel : BitVec 8) :
    selectorLegal sel = true ↔ sel &&& 0x88 = 0 ∨ sel &&& 0xC8 = 0x80 := by
  revert sel; decide

theorem exists_selectorField_iff (sel : BitVec 8) :
    (∃ o p, legalByteOffset o = true ∧ selectorField o p = sel) ↔ sel &&& 0x88 = 0 ∨ sel &&& 0xC8 = 0x80 := by
  rw [← selectorLegal_iff]
  constructor
  · rintro ⟨o, p, ho, rfl⟩
    rwa [selectorLegal_selectorField]
  · intro h
    exact ⟨_, _, legalByteOffset_of_selectorLegal sel h, selectorField_operands sel h⟩

/-- The constraints of R91 on the fields `sel`, `c`, `b`, `a`, by format. -/
def Form.Admits (f : Form) (sel : BitVec 8) (c b a : Half) : Prop :=
  match f with
  | .n _ => sel = 0 ∧ c = 0 ∧ b = 0 ∧ a = 0
  | .v _ => sel = 0 ∧ c = 0 ∧ b = 0
  | .f _ => sel = 0 ∧ c = 0 ∧ b = 0 ∧ ∃ value, flagField value = a
  | .eo _ => sel = 0 ∧ c = 0 ∧ b = 0 ∧ ∃ sym, opcodeSymField sym = a
  | .er _ => sel = 0 ∧ c = 0 ∧ b = 0 ∧ ∃ sym, rcodeSymField sym = a
  | .bg _ => (∃ o p, legalByteOffset o = true ∧ selectorField o p = sel) ∧ c = 0 ∧ b = 0 ∧ a = 0
  | .bs _ =>
    (∃ o p, legalByteOffset o = true ∧ selectorField o p = sel) ∧ c = 0 ∧ b = 0 ∧ ∃ value, flagField value = a
  | .q _ => sel = 0

/-- The fields a format admits are those that spell a command in it. -/
theorem Form.admits_iff_spells (f : Form) (sel : BitVec 8) (c b a : Half) :
    f.Admits sel c b a ↔ ∃ i, f.Spells sel c b a i := by
  constructor
  · intro h
    cases f with
    | n i => obtain ⟨rfl, rfl, rfl, rfl⟩ := h; exact ⟨_, .n i⟩
    | v mk => obtain ⟨rfl, rfl, rfl⟩ := h; exact ⟨_, .v mk a⟩
    | f mk => obtain ⟨rfl, rfl, rfl, value, rfl⟩ := h; exact ⟨_, .f mk value⟩
    | eo mk => obtain ⟨rfl, rfl, rfl, sym, rfl⟩ := h; exact ⟨_, .eo mk sym⟩
    | er mk => obtain ⟨rfl, rfl, rfl, sym, rfl⟩ := h; exact ⟨_, .er mk sym⟩
    | bg mk => obtain ⟨⟨o, p, ho, rfl⟩, rfl, rfl, rfl⟩ := h; exact ⟨_, .bg mk o p ho⟩
    | bs mk => obtain ⟨⟨o, p, ho, rfl⟩, rfl, rfl, value, rfl⟩ := h; exact ⟨_, .bs mk o p value ho⟩
    | q mk => obtain rfl : sel = 0 := h; exact ⟨_, .q mk c a b⟩
  · rintro ⟨i, h⟩
    cases h with
    | n | v | q => simp [Form.Admits]
    | f mk value => exact ⟨rfl, rfl, rfl, value, rfl⟩
    | eo mk sym => exact ⟨rfl, rfl, rfl, sym, rfl⟩
    | er mk sym => exact ⟨rfl, rfl, rfl, sym, rfl⟩
    | bg mk o p ho => exact ⟨⟨o, p, ho, rfl⟩, rfl, rfl, rfl⟩
    | bs mk o p value ho => exact ⟨⟨o, p, ho, rfl⟩, rfl, rfl, value, rfl⟩

/-- The fields a format admits are those its patterns match. -/
theorem Form.admits_iff_matches (f : Form) (w : CmdWord) :
    f.Admits (cmdSel w) (cmdC w) (cmdB w) (cmdA w) ↔ ∃ p ∈ f.patterns (cmdOp w), p.admits w = true := by
  cases f <;>
    simp only [Form.Admits, Form.patterns, List.mem_cons, List.not_mem_nil, or_false, exists_eq_left, exists_eq_or_imp,
      rowPattern_admits, admits_packWord, byte_and_full, half_and_full, half_and_none, true_and, and_true,
      exists_flagField_iff, exists_opcodeSymField_iff, exists_rcodeSymField_iff, exists_selectorField_iff,
      ← and_or_left, ← or_and_right]

/-- A word spells a command where a pattern of its opcode matches it. -/
theorem decode_ok_iff_matches (w : CmdWord) :
    (∃ i, decode w = .ok i) ↔ ∃ p ∈ opPatterns (cmdOp w), p.admits w = true := by
  simp only [decode_eq_ok_iff, opPatterns]
  cases hf : formOf (cmdOp w) with
  | none => simp
  | some f => simp [← Form.admits_iff_matches, Form.admits_iff_spells]

/-- A pattern of the table matches only words of its own opcode. -/
theorem cmdOp_of_admits {p : WordPattern} (hp : p ∈ tablePatternsN ++ tablePatternsOperand) {w : CmdWord}
    (h : p.admits w = true) : cmdOp p.bits = cmdOp w := by
  rw [← eq_of_beq h, cmdOp_and, cmdOp_mask_of_mem_table p hp, byte_and_full]

/-- Settles O3: the table is the opcode map's patterns, and those of a word's own opcode match what its format admits. -/
theorem legalWordsAreThoseOfTheOpcodeTable : Obligations.LegalWordsAreThoseOfTheOpcodeTable := by
  intro w
  rw [decode_ok_iff_matches, inOpcodeTable, List.any_eq_true]
  constructor
  · rintro ⟨p, hp, h⟩
    exact ⟨p, opPatterns_subset_table _ hp, h⟩
  · rintro ⟨p, hp, h⟩
    exact ⟨p, cmdOp_of_admits hp h ▸ mem_opPatterns_of_mem_table p hp, h⟩

/-! ### Reserved opcodes (R105) -/

theorem orOutOfRange_ne_reservedOpcode (i : Option Instr) : orOutOfRange i ≠ .error .reservedOpcode := by
  cases i <;> simp [orOutOfRange]

/-- `Decode` refuses a word for its opcode where the opcode map has no row for it: every other rejection is of a field. -/
theorem decode_eq_reservedOpcode_iff {w : CmdWord} : decode w = .error .reservedOpcode ↔ formOf (cmdOp w) = none := by
  constructor
  · intro h
    unfold decode decodeFields at h
    split at h
    · assumption
    all_goals (repeat' split at h) <;> simp [orOutOfRange_ne_reservedOpcode] at h
  · intro h
    simp [decode, decodeFields, h]

/-- The list of R105 is the complement of the opcode map. -/
theorem reservedOpcode_eq (op : BitVec 8) : Machine.reservedOpcode op.toNat = (formOf op).isNone := by revert op; decide

/-- Settles O4: a word is refused for its opcode where the opcode map has no row, and these opcodes are R105's. -/
theorem reservedOpcodesAreIllegal : Obligations.ReservedOpcodesAreIllegal := by
  refine ⟨fun w => ?_, by decide +kernel, by decide, by decide⟩
  rw [decode_eq_reservedOpcode_iff, reservedOpcode_eq, Option.isNone_iff_eq_none]

/-- Settles O5: each word is decoded. -/
theorem writtenWordsDecode : Obligations.WrittenWordsDecode := by
  unfold Obligations.WrittenWordsDecode
  decide

end Sys2Proof
end

section
/-! PROOFS for 30_encoding.md R108 to R110: what the assembler accepts is a command of the opcode map. -/

namespace Sys2Proof.Machine

theorem parseUpTo_le {max n : Nat} {cs : List Char} (h : parseUpTo max cs = some n) : n ≤ max := by
  simpa using (Option.filter_eq_some_iff.1 h).2

theorem legalByteOffset_ofNat {o : Nat} (h : o ≤ 11) : legalByteOffset (BitVec.ofNat 4 o) = true := by
  rw [legalByteOffset, BitVec.toNat_ofNat, Nat.mod_eq_of_lt (by omega)]
  exact decide_eq_true h

/-- The operands the assembler accepts for a format are operands the format admits. -/
theorem spells_of_assembleOperands {f : Form} {ops : List (List Char)} {i : Instr}
    (h : assembleOperands f ops = some i) : ∃ sel c b a, f.Spells sel c b a i := by
  unfold assembleOperands at h
  split at h <;> simp only [Option.bind_eq_some_iff, Option.map_eq_some_iff, Option.some.injEq, reduceCtorEq] at h
  · subst h; exact ⟨_, _, _, _, .n _⟩
  · obtain ⟨v, -, rfl⟩ := h; exact ⟨_, _, _, _, .v _ v⟩
  · obtain ⟨v, -, rfl⟩ := h; exact ⟨_, _, _, _, .f _ v⟩
  · obtain ⟨sym, -, rfl⟩ := h; exact ⟨_, _, _, _, .eo _ sym⟩
  · obtain ⟨sym, -, rfl⟩ := h; exact ⟨_, _, _, _, .er _ sym⟩
  · obtain ⟨o, ho, p, -, rfl⟩ := h
    exact ⟨_, _, _, _, .bg _ _ _ (legalByteOffset_ofNat (parseUpTo_le ho))⟩
  · obtain ⟨o, ho, p, -, v, -, rfl⟩ := h
    exact ⟨_, _, _, _, .bs _ _ _ v (legalByteOffset_ofNat (parseUpTo_le ho))⟩
  · obtain ⟨n, -, t, -, c, -, rfl⟩ := h
    exact ⟨_, _, _, _, .q _ n _ c⟩

/-- Settles O6: the operands spell the command in the format of the mnemonic's opcode, so the command has that opcode and
is well formed, and decoding undoes its encoding. -/
theorem assembledLinesAreLegalCommands : Obligations.AssembledLinesAreLegalCommands := by
  intro line i h
  obtain ⟨op, hname, h'⟩ := Option.bind_eq_some_iff.1 h
  obtain ⟨f, hf, hops⟩ := Option.bind_eq_some_iff.1 h'
  obtain ⟨sel, c, b, a, hs⟩ := spells_of_assembleOperands hops
  obtain ⟨hw, rfl, -⟩ := hs.hasFields (formOf_agrees op f hf)
  exact ⟨hw, hname, encode i, by rw [assembleWord, h]; rfl, decode_encode hw⟩

end Sys2Proof.Machine
end

section
/-! PROOFS for 30_encoding.md R93, R104: an illegal word is answered and nothing else, and every accepted word is answered
once. -/

namespace Sys2Proof.Machine

/-- Settles O8: the step refuses the word, and presenting a response changes nothing but the response side. -/
theorem illegalWordIsAnsweredAndNothingElse : Obligations.IllegalWordIsAnsweredAndNothingElse := by
  intro s w rest e hrst ha hc hd hready
  have hstep : step s = .next (s.accept rest).illegal := by simp [step, runWord, hrst, ha, hc, hd]
  have hanswered : Answered s (s.accept rest).illegal .illegalCmd 0 := State.respond_answered hready _ _ rfl rfl
  have ⟨_, _, hidle⟩ := hanswered
  obtain ⟨hhdr, hquestion, hin, hout, hcfg, hcmds, hrst', hdraws⟩ :=
    respond_onlyAnswers (s.accept rest) .illegalCmd 0
  exact ⟨_, hstep, hanswered, hhdr, hquestion, hin, hout, hcfg, hcmds, hrst'.trans hrst, hdraws,
    by simp [State.cmdReady, hrst, hidle]⟩

/-! ### One response for one command (R93) -/

/-- From `s` to `t` one command ends with a response, or is left in execution with none. -/
def OneResponse (s t : State) : Prop := t.rsp.length + (if t.activity = .idle then 0 else 1) = s.rsp.length + 1

/-- A command that holds has issued no response yet. -/
theorem oneResponse_of_holds {s t : State} (hrsp : t.rsp = s.rsp) (ha : t.activity ≠ .idle) : OneResponse s t := by
  simp [OneResponse, hrsp, ha]

theorem oneResponse_deliver (s : State) (r : RspWord) : OneResponse s (s.deliver r) := by
  rcases s.deliver_rsp r with ⟨hr, ha⟩ | ⟨hr, ha⟩ <;> simp [OneResponse, hr, ha]

theorem Answers.oneResponse {f : State → State} (hf : Answers f) (s : State) : OneResponse s (f s) := by
  obtain ⟨u, r, -, hu⟩ := hf s
  have e : f s = (u.onChannels s).deliver r := hu s s.activity
  rw [e]
  exact oneResponse_deliver (u.onChannels s) r

theorem oneResponse_afterReads {α ε : Type} (s : State) {held : α → Activity} (hh : ∀ a, held a ≠ .idle)
    {finish : State → ε → State} (hf : ∀ e, Answers fun s => finish s e) (c : Consumed α ε) :
    OneResponse s (s.afterReads held finish c) :=
  State.afterReads_of (OneResponse s) _ _ _ _
    (fun e rest eos _ => (hf e).oneResponse { s with input := rest, inEos := eos })
    fun a _ _ => oneResponse_of_holds rfl (hh a)

theorem oneResponse_writeFrom {α : Type} (s : State) (next : α → Option (TaggedByte × α)) (bound : Nat)
    {held : α → Activity} (hh : ∀ a, held a ≠ .idle) {finish : State → α → State}
    (hf : ∀ a, Answers fun s => finish s a) (a : α) : OneResponse s (s.writeFrom next bound held finish a) :=
  State.writeFrom_of (OneResponse s) _ _ _ _ _ _
    (fun w a' _ _ => (hf a').oneResponse { s with output := s.output ++ w, outReady := s.outReady.spend w.length })
    fun _ a' _ _ => oneResponse_of_holds rfl (hh a')

theorem continueHdrLoad_oneResponse (s : State) (staged : List Byte) : OneResponse s (continueHdrLoad s staged) :=
  oneResponse_afterReads s nofun answers_finishHdrLoad _

theorem continueInNext_oneResponse (s : State) : OneResponse s (continueInNext s) :=
  oneResponse_afterReads s nofun answers_finishInNext _

theorem continueQBuild_oneResponse (s : State) (b : QBuild) : OneResponse s (continueQBuild s b) :=
  oneResponse_afterReads s nofun answers_finishQuestion _

theorem continueQLoad_oneResponse (s : State) (p : QParse) : OneResponse s (continueQLoad s p) :=
  oneResponse_afterReads s nofun answers_finishQuestion _

theorem continueHdrStore_oneResponse (s : State) (k : Nat) : OneResponse s (continueHdrStore s k) :=
  oneResponse_writeFrom s _ _ nofun (fun _ => answers_done fun _ _ _ => rfl) k

theorem continueQStore_oneResponse (s : State) (k : Nat) : OneResponse s (continueQStore s k) :=
  oneResponse_writeFrom s _ _ nofun (fun _ => answers_done fun _ _ _ => rfl) k

theorem continueQName_oneResponse (s : State) (c : NameCursor) : OneResponse s (continueQName s c) :=
  oneResponse_writeFrom s _ _ nofun (fun _ => answers_done fun _ _ _ => rfl) c

/-- Executing a command. -/
theorem Ran.oneResponse {i : Instr} {s t : State} (h : Ran i s t) : OneResponse s t := by
  cases h with
  | answered | noHeader | noQuestion | illegal => exact oneResponse_deliver s _
  | wrote write => exact oneResponse_deliver { s with hdr := write s.hdr } _
  | cleared => exact oneResponse_deliver { s with hdr := Vector.replicate 12 0, hv := true } _
  | hdrLoad => exact continueHdrLoad_oneResponse { s with hv := false } []
  | hdrStore => exact continueHdrStore_oneResponse s 0
  | inNext => exact continueInNext_oneResponse s
  | qBuildTooLong => exact (answers_failQuestion .capacity).oneResponse s.dropQuestion
  | qBuild => exact continueQBuild_oneResponse s.dropQuestion _
  | qLoad => exact continueQLoad_oneResponse s.dropQuestion .start
  | qStore => exact continueQStore_oneResponse s 0
  | qName => exact continueQName_oneResponse s .start

/-- Going on with one. -/
theorem advance_oneResponse {s : State} (ha : s.activity ≠ .idle) : OneResponse s s.advance := by
  unfold State.advance
  cases h : s.activity with
  | idle => exact absurd h ha
  | hdrLoad staged => exact continueHdrLoad_oneResponse s staged
  | hdrStore k => exact continueHdrStore_oneResponse s k
  | inNext => exact continueInNext_oneResponse s
  | qBuild b => exact continueQBuild_oneResponse s b
  | qLoad p => exact continueQLoad_oneResponse s p
  | qStore k => exact continueQStore_oneResponse s k
  | qName c => exact continueQName_oneResponse s c
  | responding r => exact oneResponse_deliver s r

/-- Settles O11: a word accepted becomes a response or a command in execution, and so does the command that goes on; the
idle step changes nothing. -/
theorem oneResponsePerAcceptedCommand : Obligations.OneResponsePerAcceptedCommand := by
  intro s t hrst hstep
  rcases step_cases hstep with ⟨hreset, -⟩ | ⟨-, -, -, rfl⟩ | ⟨-, ha, w, rest, i, hc, -, hexec⟩ |
    ⟨-, ha, w, rest, e, hc, -, rfl⟩ | ⟨-, ha, rfl⟩
  · rw [hrst] at hreset; cases hreset
  · rfl
  · have hcmds : t.cmds = rest := (exec_moves hexec).cmds
    have hone := (ran_of_exec hexec).oneResponse
    simp only [OneResponse, State.accept_rsp] at hone
    simp only [accounted, hcmds, hc, ha, if_true, List.length_cons]
    omega
  · have hone : OneResponse (s.accept rest) (s.accept rest).illegal := oneResponse_deliver _ _
    simp only [OneResponse, State.accept_rsp] at hone
    simp only [accounted, State.illegal_cmds, State.accept_cmds, hc, ha, if_true, List.length_cons]
    omega
  · have hone := advance_oneResponse ha
    simp only [OneResponse] at hone
    simp only [accounted, (advance_moves s).cmds, if_neg ha]
    omega

end Sys2Proof.Machine
end

section
/-! PROOFS for 20_memory.md R66, R67 and 40_header_lifecycle.md R125, 42_question.md R202: the writing commands. What a
writing command has written when the transport holds it up, and that it goes on from there (`WritesInPieces`), is proved
for every writing loop; the two storing commands are the loops that count through their bytes. -/

namespace Sys2Proof.Machine

/-! ### The end of a command, and the transport -/

theorem State.deliver_nextOutByte (s : State) (r : RspWord) : (s.deliver r).nextOutByte = none := by
  rcases s.deliver_rsp r with ⟨-, ha⟩ | ⟨-, ha⟩ <;> simp [State.nextOutByte, ha]

/-- A command that has answered has nothing left to write. -/
theorem Answers.nextOutByte {f : State → State} (hf : Answers f) (s : State) : (f s).nextOutByte = none := by
  obtain ⟨u, r, -, hu⟩ := hf s
  have e : f s = (u.onChannels s).deliver r := hu s s.activity
  rw [e, State.deliver_nextOutByte]

/-- A command that answers leaves later readiness of the transport alone. -/
theorem Answers.takeMore {f : State → State} (hf : Answers f) (s : State) (more : Readiness) :
    f (s.takeMore more) = (f s).takeMore more := by
  obtain ⟨u, r, -, hu⟩ := hf s
  have e : f s = (u.onChannels s).deliver r := hu s s.activity
  rw [e, ← State.deliver_takeMore]
  exact hu (s.takeMore more) s.activity

theorem answers_fail (st : Status) : Answers fun s => s.fail st := fun s => ⟨s, rspWord st 0, rfl, fun _ _ => rfl⟩

/-! ### Writing in pieces -/

/-- A transport that takes a byte takes the first of those wanted, and only that one if it takes no more. -/
theorem Readiness.grant_pos {r : Readiness} {k : Nat} (hr : r.grant 1 = 1) (hk : 0 < k) :
    ∃ m, r.grant k = m + 1 ∧ (r = .times 1 → m = 0) := by
  cases r with
  | always => exact ⟨k - 1, by simp; omega, nofun⟩
  | times n =>
    simp only [grant_times] at hr
    exact ⟨min n k - 1, by simp; omega, by rintro ⟨⟩; omega⟩

/-- What stands on out_data is the byte the command writes next. -/
theorem State.nextOutByte_of_outData {s : State} {x : TaggedByte} (h : s.outData = some x) :
    s.nextOutByte = some x := by
  unfold State.outData at h
  split at h
  · cases h
  · exact h

/-- A loop that has a byte left to write, within a bound that is enough, has a bound above 0. -/
theorem produce_bound_pos {α : Type} {next : α → Option (TaggedByte × α)} {bound n : Nat} {a : α}
    (hb : next (produce next bound a).2 = none) (hle : n ≤ bound) (hn : (next (produce next n a).2).isSome = true) :
    0 < bound := by
  refine Nat.pos_of_ne_zero ?_
  rintro rfl
  rw [Nat.le_zero.1 hle, hb] at hn
  cases hn

/-- The bytes a writing command adds to OUT, whether it ends or holds. -/
theorem State.writeFrom_output {α : Type} (s : State) (next : α → Option (TaggedByte × α)) (bound : Nat)
    (held : α → Activity) {finish : State → α → State} (hf : ∀ a, Answers fun s => finish s a) (a : α) :
    (s.writeFrom next bound held finish a).output = s.output ++ (produce next (s.outReady.grant bound) a).1 := by
  refine State.writeFrom_of (fun t => t.output = s.output ++ _) _ _ _ _ _ _ ?_ ?_
  · intro w a' hp _
    obtain ⟨-, hout, -⟩ := (hf a').moves { s with output := s.output ++ w, outReady := s.outReady.spend w.length }
    rw [hout, ← hp]
  · intro w a' hp _
    rw [← hp]

/-- A transport that is ready takes the byte that is next, and only that one if it is ready for no more. -/
theorem State.writeFrom_takes_next {α : Type} (s : State) {next : α → Option (TaggedByte × α)} {bound : Nat}
    (held : α → Activity) {finish : State → α → State} (hf : ∀ a, Answers fun s => finish s a) {a a' : α}
    {x : TaggedByte} (hn : next a = some (x, a')) (hpos : 0 < bound) (hr : s.outReady.grant 1 = 1) :
    ∃ later, (s.writeFrom next bound held finish a).output = s.output ++ x :: later ∧
      (s.outReady = .times 1 → later = []) := by
  obtain ⟨m, hm, hm'⟩ := Readiness.grant_pos hr hpos
  refine ⟨(produce next m a').1, ?_, fun h1 => by rw [hm' h1]; rfl⟩
  rw [State.writeFrom_output s next bound held hf a, hm]
  simp only [produce, hn]

/-- A command that does not wait for the transport is not touched by it. -/
theorem writesInPieces_of_ended {i : Instr} {s t : State} (ht : exec i s = .next t) (hn : t.nextOutByte = none)
    (hmore : ∀ more, exec i (s.takeMore more) = .next (t.takeMore more)) : WritesInPieces i s := by
  intro t' more ht'
  obtain rfl : t = t' := Host.Outcome.next.inj (ht.symm.trans ht')
  refine ⟨fun hs => ?_, fun _ => hmore more, fun x hx => ?_⟩
  · rw [hn] at hs; cases hs
  · simp [State.outData, hn] at hx

/-- A command that answers at once. -/
theorem writesInPieces_of_answers {i : Instr} {s : State} {f : State → State} (hf : Answers f)
    (hexec : ∀ c, exec i (s.onChannels c) = .next (f (s.onChannels c))) : WritesInPieces i s :=
  writesInPieces_of_ended (hexec s) (hf.nextOutByte s) fun more =>
    (hexec (s.takeMore more)).trans (congrArg _ (hf.takeMore s more))

/-- A command that runs a writing loop from position `a` and goes on with it from where it holds, `bound` being enough
for all it has to write. -/
theorem writesInPieces_of_writeFrom {α : Type} {i : Instr} {s : State} {next : α → Option (TaggedByte × α)}
    {bound : Nat} {held : α → Activity} {finish : State → α → State} {a : α}
    (hf : ∀ a, Answers fun s => finish s a)
    (hexec : ∀ c, exec i (s.onChannels c) = .next ((s.onChannels c).writeFrom next bound held finish a))
    (hgo : ∀ c a', (State.onChannels { s with activity := held a' } c).advance =
      (State.onChannels { s with activity := held a' } c).writeFrom next bound held finish a')
    (hbyte : ∀ c a', (State.onChannels { s with activity := held a' } c).nextOutByte = (next a').map Prod.fst)
    (hb : next (produce next bound a).2 = none) : WritesInPieces i s := by
  cases hn : next (produce next (s.outReady.grant bound) a).2 with
  | none =>
    refine writesInPieces_of_ended (hexec s) ?_ fun more => (hexec (s.takeMore more)).trans (congrArg _ ?_)
    · simp only [State.onChannels, State.writeFrom, hn]
      exact (hf _).nextOutByte _
    · exact State.writeFrom_ended s next bound held finish a more (fun s' a' => (hf a').takeMore s' more) hn
  | some p =>
    obtain ⟨x, a''⟩ := p
    intro t more ht
    have hsome : (next (produce next (s.outReady.grant bound) a).2).isSome = true := by rw [hn]; rfl
    have hpos : 0 < bound := produce_bound_pos hb (Readiness.grant_le _ _) hsome
    obtain ⟨hheld, hresumed⟩ :=
      State.writeFrom_resumed s next bound held finish a more hb (fun s' act a' => (hf a').forgets s' act) hsome
    obtain rfl := Host.Outcome.next.inj (ht.symm.trans ((hexec s).trans (congrArg _ hheld)))
    rw [hheld] at hresumed
    generalize (produce next (s.outReady.grant bound) a).1 = written at *
    generalize (produce next (s.outReady.grant bound) a).2 = a' at *
    have hadv := hgo (State.takeMore { s with output := s.output ++ written, outReady := .times 0 } more) a'
    have hnext := hbyte { s with output := s.output ++ written, outReady := .times 0 } a'
    rw [hn] at hnext
    refine ⟨fun _ => ?_, fun hnone => ?_, fun y hy hone => ?_⟩
    · exact (hexec (s.takeMore more)).trans (congrArg _ (hresumed.trans hadv.symm))
    · cases hnone.symm.trans hnext
    · obtain rfl : x = y := Option.some.inj (hnext.symm.trans (State.nextOutByte_of_outData hy))
      obtain ⟨later, hlater, hone'⟩ := State.writeFrom_takes_next
        (State.takeMore { s with output := s.output ++ written, outReady := .times 0, activity := held a' } more)
        held hf hn hpos (by rw [State.takeMore_outReady, Readiness.zero_plus]; exact hone)
      refine ⟨later, (congrArg State.output hadv).trans hlater, fun h1 => hone' ?_⟩
      rw [State.takeMore_outReady, Readiness.zero_plus, h1]

/-! ### Counting through a list of bytes -/

section
variable {s : State} {next : Nat → Option (TaggedByte × Nat)} {l : List TaggedByte} {n : Nat}
  (hnext : ∀ k, next k = (l[k]?).map fun x => (x, k + 1)) (hlen : l.length = n)

include hnext hlen

/-- After the last byte there is nothing left to write. -/
theorem counting_next_end : next n = none := by
  rw [hnext, List.getElem?_eq_none (Nat.le_of_eq hlen)]
  rfl

/-- What is written from the start, for any readiness of the transport. -/
theorem counting_produce (m : Nat) : produce next m 0 = (l.take m, min m n) := by
  rw [produce_counting next l hnext m 0 (Nat.zero_le _), List.drop_zero, Nat.zero_add, hlen]

theorem counting_enough : next (produce next n 0).2 = none := by
  rw [counting_produce hnext hlen, Nat.min_self]
  exact counting_next_end hnext hlen

/-- The transport takes all of the bytes: the command ends. -/
theorem writeFrom_counting_ready (hr : TransportReady s n) (held : Nat → Activity) (finish : State → Nat → State) :
    s.writeFrom next n held finish 0 =
      finish { s with output := s.output ++ l, outReady := s.outReady.spend n } n := by
  have hgrant : s.outReady.grant n = n := hr
  have htake : l.take n = l := List.take_of_length_le (Nat.le_of_eq hlen)
  simp only [State.writeFrom, hgrant, counting_produce hnext hlen n, Nat.min_self, counting_next_end hnext hlen, htake,
    hlen]

/-- The transport takes only the first `k`: the command holds at offset `k`. -/
theorem writeFrom_counting_waiting {k : Nat} (hr : s.outReady = .times k) (hk : k < n) (held : Nat → Activity)
    (finish : State → Nat → State) :
    s.writeFrom next n held finish 0 =
      { s with output := s.output ++ l.take k, outReady := .times 0, activity := held k } := by
  have hmin : min k n = k := Nat.min_eq_left (Nat.le_of_lt hk)
  have hmore : next k = some (l[k], k + 1) := by rw [hnext, List.getElem?_eq_getElem]; rfl
  simp only [State.writeFrom, hr, Readiness.grant_times, hmin, counting_produce hnext hlen k, hmore, List.length_take,
    hlen, Readiness.spend_times, Nat.sub_self]

end

/-- A command that counts through its bytes and then ends is `WriteOut` of them (20_memory.md R66). -/
theorem exec_of_writeOut {i : Instr} {s : State} {next : Nat → Option (TaggedByte × Nat)} {bytes : List Byte} {n : Nat}
    {held : Nat → Activity} {finish : State → Nat → State}
    (hexec : exec i s = .next (s.writeFrom next n held finish 0))
    (hnext : ∀ k, next k = ((tagLast bytes)[k]?).map fun x => (x, k + 1)) (hlen : bytes.length = n)
    {ends : State → State}
    (hends : ∀ output ready k, finish { s with output := output, outReady := ready } k =
      ends { s with output := output, outReady := ready }) :
    (∀ t, writeOut s bytes ends = some t → exec i s = .next t) ∧
    (writeOut s bytes ends = none →
      ∃ k, s.outReady = .times k ∧ k < n ∧ exec i s = .next
        { s with output := s.output ++ (tagLast bytes).take k, outReady := .times 0, activity := held k }) := by
  have hlen' : (tagLast bytes).length = n := (tagLast_length bytes).trans hlen
  rw [hexec]
  by_cases hr : TransportReady s n
  · rw [writeOut_ready (hlen.symm ▸ hr), hlen, writeFrom_counting_ready hnext hlen' hr, hends]
    exact ⟨fun t h => congrArg _ (Option.some.inj h), nofun⟩
  · rw [writeOut_waiting (hlen.symm ▸ hr)]
    obtain ⟨k, hk, hlt⟩ := Readiness.of_grant_ne hr
    exact ⟨(fun _ h => nomatch h),
      fun _ => ⟨k, hk, hlt, congrArg _ (writeFrom_counting_waiting hnext hlen' hk hlt held finish)⟩⟩

/-! ### HDR_STORE and Q_STORE -/

theorem exec_hdrStore {s : State} (hv : s.hv = true) : exec .hdrStore s = .next (continueHdrStore s 0) :=
  congrArg Host.Outcome.next (withHeader_of_valid hv _)

theorem exec_hdrStore_noHeader {s : State} (hv : s.hv = false) : exec .hdrStore s = .next (s.fail .noObject) :=
  congrArg Host.Outcome.next (withHeader_of_invalid hv _)

theorem exec_qStore {s : State} (hv : s.qv = true) : exec .qStore s = .next (continueQStore s 0) :=
  congrArg Host.Outcome.next (withQuestion_of_valid hv _)

theorem exec_qStore_noQuestion {s : State} (hv : s.qv = false) : exec .qStore s = .next (s.fail .noObject) :=
  congrArg Host.Outcome.next (withQuestion_of_invalid hv _)

/-- HDR_STORE's steps and R122. -/
theorem hdrStore_refines (s : State) :
    (∀ t, pseudoHdrStore s = some t → exec .hdrStore s = .next t) ∧
    (pseudoHdrStore s = none →
      ∃ k, s.outReady = .times k ∧ k < 12 ∧
        exec .hdrStore s = .next
          { s with
            output := s.output ++ (tagLast s.hdr.toList).take k
            outReady := .times 0
            activity := .hdrStore k }) := by
  unfold pseudoHdrStore
  by_cases hv : s.hv = false
  · rw [if_pos hv, exec_hdrStore_noHeader hv]
    exact ⟨fun t h => congrArg _ (Option.some.inj h), nofun⟩
  · rw [if_neg hv]
    exact exec_of_writeOut (exec_hdrStore (Bool.eq_true_of_not_eq_false hv)) (hdrStoreNext_eq s.hdr)
      s.hdr.length_toList fun _ _ _ => rfl

/-- Q_STORE's steps and R200, QBUF having QLEN bytes. -/
theorem qStore_refines {s : State} (hlen : s.qbuf.length = s.qlen) :
    (∀ t, pseudoQStore s = some t → exec .qStore s = .next t) ∧
    (pseudoQStore s = none →
      ∃ k, s.outReady = .times k ∧ k < s.qlen ∧
        exec .qStore s = .next
          { s with
            output := s.output ++ (tagLast s.qbuf).take k
            outReady := .times 0
            activity := .qStore k }) := by
  unfold pseudoQStore
  by_cases hv : s.qv = false
  · rw [if_pos hv, exec_qStore_noQuestion hv]
    exact ⟨fun t h => congrArg _ (Option.some.inj h), nofun⟩
  · have htake : s.qbuf.take s.qlen = s.qbuf := List.take_of_length_le (Nat.le_of_eq hlen)
    rw [if_neg hv, htake]
    exact exec_of_writeOut (exec_qStore (Bool.eq_true_of_not_eq_false hv)) (hlen ▸ qStoreNext_eq s.qbuf) hlen
      fun _ _ _ => rfl

/-- Q_STORE counts through QLEN bytes, whatever QBUF holds. -/
theorem qStoreNext_counts (buf : List Byte) (qlen k : Nat) :
    qStoreNext buf qlen k =
      (((List.range qlen).map fun k => ({ byte := qByte buf k, last := decide (k = qlen - 1) } : TaggedByte))[k]?).map
        fun x => (x, k + 1) := by
  unfold qStoreNext
  split
  · rename_i hk; simp [hk]
  · rename_i hk; simp [hk]

theorem hdrStore_writesInPieces (s : State) : WritesInPieces .hdrStore s := by
  cases hv : s.hv with
  | false => exact writesInPieces_of_answers (answers_fail .noObject) fun _ => exec_hdrStore_noHeader hv
  | true =>
    exact writesInPieces_of_writeFrom (next := hdrStoreNext s.hdr) (bound := 12) (held := .hdrStore) (a := 0)
      (fun _ => answers_done fun _ _ _ => rfl) (fun c => exec_hdrStore (s := s.onChannels c) hv) (fun _ _ => rfl)
      (fun _ _ => rfl)
      (counting_enough (hdrStoreNext_eq s.hdr) ((tagLast_length _).trans s.hdr.length_toList))

theorem qStore_writesInPieces (s : State) : WritesInPieces .qStore s := by
  cases hv : s.qv with
  | false => exact writesInPieces_of_answers (answers_fail .noObject) fun _ => exec_qStore_noQuestion hv
  | true =>
    exact writesInPieces_of_writeFrom (next := qStoreNext s.qbuf s.qlen) (bound := s.qlen) (held := .qStore) (a := 0)
      (fun _ => answers_done fun _ _ _ => rfl) (fun c => exec_qStore (s := s.onChannels c) hv) (fun _ _ => rfl)
      (fun _ _ => rfl) (counting_enough (qStoreNext_counts s.qbuf s.qlen) (by simp))

/-- Settles O24: both stores are writing loops that count through their bytes. -/
theorem storeStepsGiveTheirPseudocode : Obligations.StoreStepsGiveTheirPseudocode :=
  ⟨hdrStore_refines, fun _ hinv => qStore_refines hinv.bufferLength,
    fun s => ⟨hdrStore_writesInPieces s, qStore_writesInPieces s⟩⟩

end Sys2Proof.Machine
end

section
/-! PROOFS for 40_header_lifecycle.md: HDR_CLEAR, HDR_LOAD and HDR_STORE (R120 to R124). What HDR_LOAD does is said once,
by how the bytes it takes run out: twelve of them, the end of the message, or a hold. -/

namespace Sys2Proof.Machine

/-! ### HDR_LOAD by how it stops (R121, R124) -/

section
variable {s : State} {l rest : List TaggedByte} (hin : s.input = l ++ rest)
  (hopen : ∀ m x m', l = m ++ x :: m' → (s.inEos || eosOf m) = false)

include hin hopen

/-- Up to twelve bytes of an open message are staged. -/
theorem exec_hdrLoad_stages (hle : l.length ≤ 12) :
    exec .hdrLoad s = .next (State.afterReads { s with hv := false } .hdrLoad finishHdrLoad
      (consume hdrLoadReader rest (s.inEos || eosOf l) (untagged l))) := by
  have hwants : ∀ m x m', l = m ++ x :: m' →
      hdrLoadReader.ends ((untagged m).foldl hdrLoadReader.take []) (s.inEos || eosOf m) = none := by
    intro m x m' e
    have hlt : l.length = m.length + (m'.length + 1) := by rw [e]; simp
    rw [hopen m x m' e, hdrLoad_foldl, List.nil_append]
    exact hdrLoad_wants _ (by rw [untagged_length]; omega)
  have hrun := consume_run hdrLoadReader l rest s.inEos [] hwants
  rw [← hin, hdrLoad_foldl, List.nil_append] at hrun
  exact congrArg (fun c => Host.Outcome.next (State.afterReads { s with hv := false } .hdrLoad finishHdrLoad c)) hrun

/-- Twelve bytes: they are the header. -/
theorem exec_hdrLoad_full (hlen : l.length = 12) :
    exec .hdrLoad s = .next (State.done
      { s with
        hdr := headerOfBytes (untagged l)
        hv := true
        input := rest
        inEos := s.inEos || eosOf l } 0) := by
  rw [exec_hdrLoad_stages hin hopen (Nat.le_of_eq hlen),
    consume_of_ends _ _ _ _ _ (hdrLoad_ends_full _ _ ((untagged_length l).trans hlen))]
  rfl

/-- The message ends first. -/
theorem exec_hdrLoad_truncated (hlt : l.length < 12) (heos : (s.inEos || eosOf l) = true) :
    exec .hdrLoad s =
      .next (State.failHeader { s with hv := false, input := rest, inEos := true } .truncatedInput) := by
  have hne : (untagged l).length ≠ 12 := by rw [untagged_length]; omega
  rw [exec_hdrLoad_stages hin hopen (Nat.le_of_lt hlt), heos,
    consume_of_ends _ _ _ _ _ (hdrLoad_ends_truncated _ hne)]
  rfl

/-- The transport has presented no more. -/
theorem exec_hdrLoad_waiting (hlt : l.length < 12) (hrest : rest = []) (heos : (s.inEos || eosOf l) = false) :
    exec .hdrLoad s =
      .next { s with hv := false, input := [], activity := .hdrLoad (untagged s.input) } := by
  have hne : (untagged l).length ≠ 12 := by rw [untagged_length]; omega
  have hl : s.input = l := by rw [hin, hrest, List.append_nil]
  have hfalse : s.inEos = false := (Bool.or_eq_false_iff.1 heos).1
  rw [exec_hdrLoad_stages hin hopen (Nat.le_of_lt hlt), heos, hrest,
    consume_nil_of_wants _ _ _ (hdrLoad_wants _ hne), hl, ← hfalse]
  rfl

end

/-- Settles O23: `ReadIn(12)` stops in the same three ways as HDR_LOAD's steps. -/
theorem hdrLoadStepsGiveItsPseudocode : Obligations.HdrLoadStepsGiveItsPseudocode := by
  intro s
  unfold pseudoHdrLoad
  obtain ⟨l, rest, hin, hopen, ⟨hlen, hr⟩ | ⟨hlt, heos, hr⟩ | ⟨hlt, hrest, heos, hr⟩⟩ :=
    readIn_cases 12 s.input s.inEos
  · simp only [hr]
    refine ⟨fun t ht => ?_, fun h => nomatch h⟩
    rw [exec_hdrLoad_full hin hopen hlen, Option.some.inj ht]
  · simp only [hr]
    refine ⟨fun t ht => ?_, fun h => nomatch h⟩
    rw [exec_hdrLoad_truncated hin hopen hlt heos, Option.some.inj ht]
  · simp only [hr]
    exact ⟨(fun _ h => nomatch h), fun _ => exec_hdrLoad_waiting hin hopen hlt hrest heos⟩

/-- HDR_LOAD leaves a valid header only when it has taken twelve bytes. -/
theorem exec_hdrLoad_valid {s t : State} (h : exec .hdrLoad s = .next t) (hv : t.hv = true) :
    ∃ l rest eos, s.input = l ++ rest ∧ l.length = 12 ∧
      t = State.done { s with hdr := headerOfBytes (untagged l), hv := true, input := rest, inEos := eos } 0 := by
  obtain ⟨l, rest, hin, hopen, ⟨hlen, -⟩ | ⟨hlt, heos, -⟩ | ⟨hlt, hrest, heos, -⟩⟩ :=
    readIn_cases 12 s.input s.inEos
  · rw [exec_hdrLoad_full hin hopen hlen] at h
    exact ⟨l, rest, _, hin, hlen, (Host.Outcome.next.inj h).symm⟩
  · rw [exec_hdrLoad_truncated hin hopen hlt heos] at h
    rw [← Host.Outcome.next.inj h, State.failHeader_hv] at hv
    cases hv
  · rw [exec_hdrLoad_waiting hin hopen hlt hrest heos] at h
    rw [← Host.Outcome.next.inj h] at hv
    cases hv

/-- HDR_LOAD of twelve available bytes. -/
theorem Available.exec_hdrLoad {s : State} {l rest : List TaggedByte} (h : Available s l rest) (hlen : l.length = 12) :
    exec .hdrLoad s = .next (State.done
      { s with hdr := headerOfBytes (untagged l), hv := true, input := rest, inEos := eosOf l } 0) := by
  have ⟨hin, _, heos⟩ := h
  have hfalse : s.inEos = false := heos.resolve_right (by rintro rfl; cases hlen)
  rw [exec_hdrLoad_full hin (fun _ _ _ => h.noEos) hlen, hfalse, Bool.false_or]

/-- Settles O32: the end of HDR_LOAD after twelve bytes, part by part. -/
theorem hdrLoadTakesTwelveBytes : Obligations.HdrLoadTakesTwelveBytes := by
  intro s l rest hready h hlen
  refine ⟨_, h.exec_hdrLoad hlen, State.respond_answered hready _ _ rfl rfl, ?_⟩
  refine ⟨fun k hk => ?_, by simp, by simp, by simp, by simp [SameQuestionSlot], by simp [SameOutput],
    by simp [SameRest]⟩
  have hk' : k < (untagged l).length := by rw [untagged_length, hlen]; exact hk
  rw [State.done_hdr, hdrByte_headerOfBytes _ _ hk, List.getElem?_eq_getElem hk', List.getD_eq_getElem _ _ hk']

/-- Settles O33: the end of HDR_LOAD at the end of the message, part by part. -/
theorem hdrLoadOfAShortMessageIsTruncated : Obligations.HdrLoadOfAShortMessageIsTruncated := by
  intro s l rest hready h hlt
  have ⟨hin, _, _⟩ := h
  refine ⟨_, exec_hdrLoad_truncated hin (fun _ _ _ => h.available.noEos) hlt h.eos,
    State.respond_answered hready _ _ rfl rfl, ?_⟩
  exact ⟨by simp, by simp, by simp, by simp [SameQuestionSlot], by simp [SameOutput], by simp [SameButDraws]⟩

/-! ### HDR_STORE (R122) -/

/-- HDR_STORE with the transport ready for the header. -/
theorem exec_hdrStore_ready {s : State} (hv : s.hv = true) (hr : TransportReady s 12) :
    exec .hdrStore s = .next (State.done
      { s with output := s.output ++ tagLast s.hdr.toList, outReady := s.outReady.spend 12 } 12) :=
  (exec_hdrStore hv).trans (congrArg _ (writeFrom_counting_ready (hdrStoreNext_eq s.hdr)
    ((tagLast_length _).trans s.hdr.length_toList) hr .hdrStore fun s' _ => s'.done 12))

/-- Settles O34: the bytes are `tagLast` of the header's. -/
theorem hdrStoreWritesTheHeader : Obligations.HdrStoreWritesTheHeader := by
  intro s hv hready hr
  refine ⟨_, exec_hdrStore_ready hv hr, State.respond_answered hready _ _ rfl rfl, ?_⟩
  refine ⟨⟨tagLast s.hdr.toList, by simp, (tagLast_length _).trans s.hdr.length_toList, fun k hk => ?_⟩, by simp,
    by simp [SameHeaderSlot], by simp [SameQuestionSlot], by simp [SameInput], by simp [SameRest]⟩
  rw [tagLast_getElem? _ _ (by rw [s.hdr.length_toList]; exact hk), hdrByte_eq _ _ hk]
  simp

/-! ### Load and store (R123) -/

/-- Only the last of the bytes of a stored object is tagged. -/
theorem noEarlyLast_tagLast_of_ne_nil {l : List Byte} (h : l ≠ []) : NoEarlyLast (tagLast l) := by
  intro x hx
  have hsplit : tagLast l = plain l.dropLast ++ tagLast [l.getLast h] := by
    rw [← tagLast_append _ _ (by simp), List.dropLast_append_getLast h]
  rw [hsplit, tagLast, List.dropLast_concat] at hx
  obtain ⟨b, -, rfl⟩ := List.mem_map.1 hx
  rfl

/-- Settles O35: twelve bytes and the header they make determine each other. -/
theorem headerLoadAndStoreAreInverse : Obligations.HeaderLoadAndStoreAreInverse := by
  constructor
  · intro s t u _ hout hload hv hstore
    obtain ⟨l, rest, eos, hin, hlen, rfl⟩ := exec_hdrLoad_valid hload hv
    have hready : TransportReady (State.done
        { s with hdr := headerOfBytes (untagged l), hv := true, input := rest, inEos := eos } 0) 12 := by
      simp [TransportReady, hout]
    have hbytes : (headerOfBytes (untagged l)).toList = untagged l :=
      toList_headerOfBytes _ ((untagged_length l).trans hlen)
    have htake : s.input.take 12 = l := by rw [hin, ← hlen, List.take_left]
    rw [exec_hdrStore_ready hv hready] at hstore
    rw [← Host.Outcome.next.inj hstore, htake]
    simp [hbytes]
  · intro s other u rest _ _ heos hin hload
    have hlen : s.hdr.toList.length = 12 := s.hdr.length_toList
    have hne : s.hdr.toList ≠ [] := by rintro h; rw [h] at hlen; cases hlen
    have havailable : Available other (tagLast s.hdr.toList) rest :=
      ⟨hin, noEarlyLast_tagLast_of_ne_nil hne, .inl heos⟩
    rw [havailable.exec_hdrLoad ((tagLast_length _).trans hlen), untagged_tagLast, headerOfBytes_toList] at hload
    rw [← Host.Outcome.next.inj hload]
    exact ⟨by simp, by simp, by simp⟩

/-! ### HDR_CLEAR (R120) -/

/-- Settles O31: HDR_CLEAR's one update, part by part. -/
theorem hdrClearMakesTheZeroHeader : Obligations.HdrClearMakesTheZeroHeader := by
  intro s hready
  refine ⟨State.done { s with hdr := Vector.replicate 12 0, hv := true } 0, rfl,
    State.respond_answered hready _ _ rfl rfl, fun k hk => ?_, by simp, by simp [SameQuestionSlot],
    by simp [SameInput], by simp [SameOutput], by simp [SameRest]⟩
  rw [State.done_hdr, hdrByte_eq _ _ hk, Vector.getElem_replicate]

end Sys2Proof.Machine
end

section
/-! PROOFS for 41_header_fields.md: which bits of the header each getter reads (20_memory.md R50, R51). A header bit
belongs to at most one named field, so a setter is seen by its own getter and by GET_BIT only. -/

namespace Sys2Proof.Machine

/-! ### The layout of the header -/

/-- The getter, other than GET_BIT, that reads bit `p` of header byte `o` (R50, R51); the Z field has none (R186). -/
def namedGetterAt (o p : Nat) : Option Instr :=
  match o with
  | 0 | 1 => some .getId
  | 2 =>
    match p with
    | 0 => some .getQr
    | 1 | 2 | 3 | 4 => some .getOpcode
    | 5 => some .getAa
    | 6 => some .getTc
    | _ => some .getRd
  | 3 =>
    match p with
    | 0 => some .getRa
    | 1 | 2 | 3 => none
    | _ => some .getRcode
  | 4 | 5 => some .getQdcount
  | 6 | 7 => some .getAncount
  | 8 | 9 => some .getNscount
  | 10 | 11 => some .getArcount
  | _ => none

/-- `g` reads bit `p` of header byte `o`. -/
def ReadsBit (g : Instr) (o p : Nat) : Prop :=
  namedGetterAt o p = some g ∨ g = .getBit (BitVec.ofNat 4 o) (BitVec.ofNat 3 p)

/-- A bit of the field of `get` is read by no other getter but GET_BIT aimed at it. -/
theorem not_readsBit {g get : Instr} {o p : Nat} (hat : namedGetterAt o p = some get) (hg : g ≠ get)
    (hbit : g ≠ .getBit (BitVec.ofNat 4 o) (BitVec.ofNat 3 p)) : ¬ ReadsBit g o p := by
  rintro (h | h)
  · exact hg (Option.some.inj (h.symm.trans hat))
  · exact hbit h

theorem namedGetterAt_opcode {p : Nat} (h1 : 1 ≤ p) (h4 : p ≤ 4) : namedGetterAt 2 p = some .getOpcode := by
  interval_cases p <;> rfl

theorem namedGetterAt_rcode {p : Nat} (h4 : 4 ≤ p) (h7 : p ≤ 7) : namedGetterAt 3 p = some .getRcode := by
  interval_cases p <;> rfl

/-! ### What a getter answers depends on the bits it reads -/

theorem get16_congr {h h' : Header} {o : Nat} (hi : ∀ p, p < 8 → headerBit h o p = headerBit h' o p)
    (lo : ∀ p, p < 8 → headerBit h (o + 1) p = headerBit h' (o + 1) p) : get16 h o = get16 h' o := by
  rw [get16, get16, hdrByte_congr h h' o hi, hdrByte_congr h h' (o + 1) lo]

/-- The data of a bit getter is its header bit. -/
theorem bitData_bitGet (h : Header) (o : Nat) {p : Nat} (hp : p < 8) :
    bitData (bitGet h o p) = if headerBit h o p then 1 else 0 := by
  rw [bitData, bitGet_eq h o p hp]

theorem bitData_bitGet_congr {h h' : Header} {o p : Nat} (hp : p < 8) (e : headerBit h o p = headerBit h' o p) :
    bitData (bitGet h o p) = bitData (bitGet h' o p) := by
  rw [bitData_bitGet h o hp, bitData_bitGet h' o hp, e]

theorem legalByteOffset_iff {o : BitVec 4} : legalByteOffset o = true ↔ o.toNat ≤ 11 := decide_eq_true_iff

/-- Headers that agree on the bits a getter reads look the same to it. -/
theorem headerRead_congr {g : Instr} {view : Header → Half} (hg : headerRead g = some view) {h h' : Header}
    (e : ∀ o p, o < 12 → p < 8 → ReadsBit g o p → headerBit h o p = headerBit h' o p) : view h = view h' := by
  cases g with
  | getId | getQdcount | getAncount | getNscount | getArcount =>
    cases hg
    exact get16_congr (fun p hp => e _ p (by decide) hp (Or.inl rfl)) fun p hp => e _ p (by decide) hp (Or.inl rfl)
  | getQr | getAa | getTc | getRd | getRa =>
    cases hg
    exact bitData_bitGet_congr (by decide) (e _ _ (by decide) (by decide) (Or.inl rfl))
  | getOpcode =>
    cases hg
    have hraw : opcodeRaw h = opcodeRaw h' := opcodeRaw_congr h h' fun p h1 h4 =>
      e 2 p (by decide) (by omega) (Or.inl (namedGetterAt_opcode h1 h4))
    simp only [hraw]
  | getRcode =>
    cases hg
    have hraw : rcodeRaw h = rcodeRaw h' := rcodeRaw_congr h h' fun p h4 h7 =>
      e 3 p (by decide) (by omega) (Or.inl (namedGetterAt_rcode h4 h7))
    simp only [hraw]
  | getBit o p =>
    obtain ⟨ho, rfl⟩ : legalByteOffset o = true ∧ (fun h => bitData (bitGet h o.toNat p.toNat)) = view := by
      simpa [headerRead] using hg
    have ho : o.toNat ≤ 11 := legalByteOffset_iff.1 ho
    exact bitData_bitGet_congr p.isLt (e _ _ (by omega) p.isLt (Or.inr (by simp)))
  | _ => cases hg

/-! ### A setter, seen by the getters -/

section
variable {i : Instr} {write : Header → Header} {s t : State} (hw : headerWrite i = some write) (hv : s.hv = true)
  (hr : s.rspReady = .always) (he : exec i s = .next t)

include hw hv hr he

/-- A setter that has completed leaves a valid header with what it writes, and a host that is still ready. -/
theorem exec_headerWrite_next : t.hdr = write s.hdr ∧ t.hv = true ∧ HostReady t := by
  have hready : HostReady s := by rw [HostReady, hr]; rfl
  obtain ⟨u, hu, ⟨-, hspent, -⟩, hhdr, hhv, -⟩ := headerSetter_ready hv hready write
  obtain rfl : u = t := Host.Outcome.next.inj (hu.symm.trans ((exec_of_headerWrite hw s).symm.trans he))
  exact ⟨hhdr, hhv.trans hv, by rw [HostReady, hspent, hr]; rfl⟩

/-- After the setter, a getter answers its view of what was written. -/
theorem reads_after_headerWrite {g : Instr} {view : Header → Half} (hg : headerRead g = some view) (d : Half) :
    Reads g t d ↔ d = view (write s.hdr) := by
  obtain ⟨hhdr, hhv, hready⟩ := exec_headerWrite_next hw hv hr he
  rw [reads_iff hg hhv hready, hhdr]

/-- Where the setter changes bits of the field of `get` only, every other getter answers what it answered before, GET_BIT
aimed at one of these bits excepted. -/
theorem reads_unchanged {get g : Instr} {field : Nat → Nat → Prop}
    (hnamed : ∀ o p, field o p → namedGetterAt o p = some get)
    (hframe : ∀ o p, o < 12 → p < 8 → ¬ field o p → headerBit (write s.hdr) o p = headerBit s.hdr o p)
    (hg : (headerRead g).isSome = true) (hne : g ≠ get)
    (hbit : ∀ o p, p < 8 → field o p → g ≠ .getBit (BitVec.ofNat 4 o) (BitVec.ofNat 3 p)) (d : Half) :
    Reads g t d ↔ Reads g s d := by
  have hseen : ∀ o p, o < 12 → p < 8 → ReadsBit g o p → headerBit (write s.hdr) o p = headerBit s.hdr o p :=
    fun o p ho hp hreads => hframe o p ho hp fun hin => not_readsBit (hnamed o p hin) hne (hbit o p hp hin) hreads
  obtain ⟨view, hview⟩ := Option.isSome_iff_exists.1 hg
  have hready : HostReady s := by rw [HostReady, hr]; rfl
  rw [reads_after_headerWrite hw hv hr he hview, reads_iff hview hv hready, headerRead_congr hview hseen]

end

/-! ### Completion of getters and setters -/

section
variable {s : State} (hv : s.hv = true) (hready : HostReady s)

include hv hready

theorem completes_of_headerRead {g : Instr} {view : Header → Half} (hg : headerRead g = some view) :
    Completes g s .ok (view s.hdr) (OnlyAnswers s) := by
  obtain ⟨t, ht, hanswered, honly⟩ := headerGetter_ready hv hready view
  exact ⟨t, (exec_of_headerRead hg s).trans ht, hanswered, honly⟩

theorem completes_of_headerWrite {i : Instr} {write : Header → Header} (hw : headerWrite i = some write)
    {post : State → Prop} (hpost : ∀ t : State, t.hdr = write s.hdr → post t) :
    Completes i s .ok 0 fun t => post t ∧ OnlyWritesHeader s t := by
  obtain ⟨t, ht, hanswered, hhdr, honly⟩ := headerSetter_ready hv hready write
  exact ⟨t, (exec_of_headerWrite hw s).trans ht, hanswered, hpost t hhdr, honly⟩

end

end Sys2Proof.Machine
end

section
/-! PROOFS for 41_header_fields.md R141 to R153: the 16-bit fields. -/

namespace Sys2Proof.Machine

/-- `set` and `get` are the accessors of the 16-bit field at offset `o`, and no other named getter reads its bytes. -/
structure IsField16 (set : Half → Instr) (get : Instr) (o : Nat) : Prop where
  write : ∀ v, headerWrite (set v) = some fun h => set16 h o v
  read : headerRead get = some fun h => get16 h o
  inHeader : o + 1 < 12
  high : ∀ p, namedGetterAt o p = some get
  low : ∀ p, namedGetterAt (o + 1) p = some get

theorem isField16_id : IsField16 .setId .getId 0 :=
  ⟨fun _ => rfl, rfl, by decide, fun _ => rfl, fun _ => rfl⟩

theorem isField16_qdcount : IsField16 .setQdcount .getQdcount 4 :=
  ⟨fun _ => rfl, rfl, by decide, fun _ => rfl, fun _ => rfl⟩

theorem isField16_ancount : IsField16 .setAncount .getAncount 6 :=
  ⟨fun _ => rfl, rfl, by decide, fun _ => rfl, fun _ => rfl⟩

theorem isField16_nscount : IsField16 .setNscount .getNscount 8 :=
  ⟨fun _ => rfl, rfl, by decide, fun _ => rfl, fun _ => rfl⟩

theorem isField16_arcount : IsField16 .setArcount .getArcount 10 :=
  ⟨fun _ => rfl, rfl, by decide, fun _ => rfl, fun _ => rfl⟩

theorem get16_eq (h : Header) {o : Nat} (ho : o + 1 < 12) :
    get16 h o = BitVec.ofNat 16 (h[o].toNat * 256 + h[o + 1].toNat) := by
  rw [get16, be16_eq, hdrByte_eq h o (Nat.lt_of_succ_lt ho), hdrByte_eq h (o + 1) ho]

theorem get16_set16 (h : Header) {o : Nat} (v : Half) (ho : o + 1 < 12) : get16 (set16 h o v) o = v := by
  rw [get16, hdrByte_set16 h o o v (Nat.lt_of_succ_lt ho), hdrByte_set16 h o (o + 1) v ho]
  simp

/-- `Set16` leaves the bits of the other ten bytes. -/
theorem headerBit_set16_of_not (h : Header) {o o' : Nat} (v : Half) (p : Nat) (ho' : o' < 12)
    (hout : ¬ (o' = o ∨ o' = o + 1)) : headerBit (set16 h o v) o' p = headerBit h o' p := by
  obtain ⟨hne, hne'⟩ := not_or.1 hout
  rw [headerBit, headerBit, hdrByte_set16 h o o' v ho', if_neg hne, if_neg hne']

/-- The two bytes of a 16-bit value make the value (R153). -/
theorem shiftRight_mul_add_and (v : Half) : (v >>> 8).toNat * 256 + (v &&& 0xFF).toNat = v.toNat := by
  have hand : (v &&& 0xFF).toNat = v.toNat % 256 := Nat.and_two_pow_sub_one_eq_mod v.toNat 8
  rw [BitVec.toNat_ushiftRight, Nat.shiftRight_eq_div_pow, hand]
  omega

section
variable {set : Half → Instr} {get : Instr} {o : Nat} (hf : IsField16 set get o) {s : State} (hv : s.hv = true)

include hf hv

theorem IsField16.completes_get (hready : HostReady s) :
    Completes get s .ok (BitVec.ofNat 16 ((s.hdr[o]'(Nat.lt_of_succ_lt hf.inHeader)).toNat * 256 +
      (s.hdr[o + 1]'hf.inHeader).toNat)) (OnlyAnswers s) := by
  rw [← get16_eq s.hdr hf.inHeader]
  exact completes_of_headerRead (view := fun h => get16 h o) hv hready hf.read

theorem IsField16.completes_set (hready : HostReady s) (v : Half) :
    Completes (set v) s .ok 0 fun t => Holds16At s t o v ∧ OnlyWritesHeader s t :=
  completes_of_headerWrite hv hready (hf.write v) fun t hhdr k hk => by
    rw [hhdr, hdrByte_set16 _ _ _ _ hk, hi8_eq, lo8_eq]

/-- What the getters answer after the setter (R153). -/
theorem IsField16.law (hr : s.rspReady = .always) {t : State} {v : Half} (he : exec (set v) s = .next t) :
    Reads get t v ∧
    ∀ (g : Instr) (d : Half), (headerRead g).isSome = true → g ≠ get →
      (∀ p, g ≠ .getBit (BitVec.ofNat 4 o) p ∧ g ≠ .getBit (BitVec.ofNat 4 (o + 1)) p) →
        (Reads g t d ↔ Reads g s d) := by
  refine ⟨(reads_after_headerWrite (hf.write v) hv hr he hf.read v).2 (get16_set16 _ v hf.inHeader).symm,
    fun g d hg hne hbit => reads_unchanged (field := fun o' _ => o' = o ∨ o' = o + 1) (hf.write v) hv hr he
      ?_ (fun o' p ho' _ => headerBit_set16_of_not s.hdr v p ho') hg hne ?_ d⟩
  · rintro o' p (rfl | rfl)
    · exact hf.high p
    · exact hf.low p
  · rintro o' p - (rfl | rfl)
    · exact (hbit _).1
    · exact (hbit _).2

end

/-- Settles O37: each of the five setters is `Set16` at its offset. -/
theorem sixteenBitSettersWriteTheirTwoBytes : Obligations.SixteenBitSettersWriteTheirTwoBytes := fun _ v hv hready =>
  ⟨isField16_id.completes_set hv hready v, isField16_qdcount.completes_set hv hready v,
    isField16_ancount.completes_set hv hready v, isField16_nscount.completes_set hv hready v,
    isField16_arcount.completes_set hv hready v⟩

/-- Settles O36: each of the five getters is `Get16` at its offset. -/
theorem sixteenBitGettersReadBigEndian : Obligations.SixteenBitGettersReadBigEndian := fun _ hv hready =>
  ⟨isField16_id.completes_get hv hready, isField16_qdcount.completes_get hv hready,
    isField16_ancount.completes_get hv hready, isField16_nscount.completes_get hv hready,
    isField16_arcount.completes_get hv hready⟩

/-- Settles O38: the law of one field for each of the five; the other two clauses are about the bytes alone. -/
theorem sixteenBitFieldLaws : Obligations.SixteenBitFieldLaws := by
  refine ⟨fun s t v set get o hmem hv hr he => ?_, fun h v o hmem => get16_set16 h v ?_, shiftRight_mul_add_and⟩
  · have hf : IsField16 set get o := by
      simp only [List.mem_cons, Prod.mk.injEq, List.not_mem_nil, or_false] at hmem
      rcases hmem with ⟨rfl, rfl, rfl⟩ | ⟨rfl, rfl, rfl⟩ | ⟨rfl, rfl, rfl⟩ | ⟨rfl, rfl, rfl⟩ | ⟨rfl, rfl, rfl⟩
      · exact isField16_id
      · exact isField16_qdcount
      · exact isField16_ancount
      · exact isField16_nscount
      · exact isField16_arcount
    exact hf.law hv hr he
  · revert o
    decide

end Sys2Proof.Machine
end

section
/-! PROOFS for 41_header_fields.md R154 to R167, R184, R185: the flags and the generic bit. -/

namespace Sys2Proof.Machine

/-- `set` and `get` are the accessors of the flag at bit `p` of header byte `o`. -/
structure IsFlag (set : Bool → Instr) (get : Instr) (o p : Nat) : Prop where
  write : ∀ v, headerWrite (set v) = some fun h => bitSet h o p v
  read : headerRead get = some fun h => bitData (bitGet h o p)
  byteInHeader : o < 12
  bitInByte : p < 8
  named : namedGetterAt o p = some get

theorem isFlag_qr : IsFlag .setQr .getQr 2 0 := ⟨fun _ => rfl, rfl, by decide, by decide, rfl⟩

theorem isFlag_aa : IsFlag .setAa .getAa 2 5 := ⟨fun _ => rfl, rfl, by decide, by decide, rfl⟩

theorem isFlag_tc : IsFlag .setTc .getTc 2 6 := ⟨fun _ => rfl, rfl, by decide, by decide, rfl⟩

theorem isFlag_rd : IsFlag .setRd .getRd 2 7 := ⟨fun _ => rfl, rfl, by decide, by decide, rfl⟩

theorem isFlag_ra : IsFlag .setRa .getRa 3 0 := ⟨fun _ => rfl, rfl, by decide, by decide, rfl⟩

/-! ### Completion -/

section
variable {s : State} (hv : s.hv = true)

theorem holdsBitAt_of_bitSet {t : State} {o p : Nat} {v : Bool} (hp : p < 8) (hhdr : t.hdr = bitSet s.hdr o p v) :
    HoldsBitAt s t o p v := by
  intro o' p' ho' hp'
  rw [hhdr, headerBit_bitSet _ _ _ _ _ _ hp ho' hp']

include hv

/-- A getter of one bit, named or GET_BIT. -/
theorem completes_of_reads_bit (hready : HostReady s) {g : Instr} {o p : Nat} (hp : p < 8)
    (hg : headerRead g = some fun h => bitData (bitGet h o p)) :
    Completes g s .ok (if headerBit s.hdr o p then 1 else 0) (OnlyAnswers s) := by
  rw [← bitData_bitGet s.hdr o hp]
  exact completes_of_headerRead (view := fun h => bitData (bitGet h o p)) hv hready hg

/-- A setter of one bit, named or SET_BIT. -/
theorem completes_of_writes_bit (hready : HostReady s) {i : Instr} {o p : Nat} {v : Bool} (hp : p < 8)
    (hw : headerWrite i = some fun h => bitSet h o p v) :
    Completes i s .ok 0 fun t => HoldsBitAt s t o p v ∧ OnlyWritesHeader s t :=
  completes_of_headerWrite hv hready hw fun _ => holdsBitAt_of_bitSet hp

end

/-! ### The flags -/

section
variable {set : Bool → Instr} {get : Instr} {o p : Nat} (hf : IsFlag set get o p) {s : State} (hv : s.hv = true)

include hf hv

theorem IsFlag.completes_get (hready : HostReady s) :
    Completes get s .ok (if headerBit s.hdr o p then 1 else 0) (OnlyAnswers s) :=
  completes_of_reads_bit hv hready hf.bitInByte hf.read

theorem IsFlag.completes_set (hready : HostReady s) (v : Bool) :
    Completes (set v) s .ok 0 fun t => HoldsBitAt s t o p v ∧ OnlyWritesHeader s t :=
  completes_of_writes_bit hv hready hf.bitInByte (hf.write v)

/-- What the getters answer after the setter (R167). -/
theorem IsFlag.law (hr : s.rspReady = .always) {t : State} {v : Bool} (he : exec (set v) s = .next t) :
    Reads get t (if v then 1 else 0) ∧ HoldsBitAt s t o p v ∧
    ∀ (g : Instr) (d : Half), (headerRead g).isSome = true → g ≠ get →
      g ≠ .getBit (BitVec.ofNat 4 o) (BitVec.ofNat 3 p) → (Reads g t d ↔ Reads g s d) := by
  have hbits := fun o' p' ho' hp' => headerBit_bitSet s.hdr o p o' p' v hf.bitInByte ho' hp'
  refine ⟨(reads_after_headerWrite (hf.write v) hv hr he hf.read _).2 ?_,
    holdsBitAt_of_bitSet hf.bitInByte (exec_headerWrite_next (hf.write v) hv hr he).1,
    fun g d hg hne hbit => reads_unchanged (field := fun o' p' => o' = o ∧ p' = p) (hf.write v) hv hr he ?_
      (fun o' p' ho' hp' hout => (hbits o' p' ho' hp').trans (if_neg hout)) hg hne ?_ d⟩
  · rw [bitData_bitGet _ o hf.bitInByte, (hbits o p hf.byteInHeader hf.bitInByte).trans (if_pos ⟨rfl, rfl⟩)]
  · rintro _ _ ⟨rfl, rfl⟩
    exact hf.named
  · rintro _ _ - ⟨rfl, rfl⟩
    exact hbit

end

/-- Settles O40: each of the five setters is `BitSet` at its place. -/
theorem flagSettersWriteTheirBitOnly : Obligations.FlagSettersWriteTheirBitOnly := fun _ v hv hready =>
  ⟨isFlag_qr.completes_set hv hready v, isFlag_aa.completes_set hv hready v, isFlag_tc.completes_set hv hready v,
    isFlag_rd.completes_set hv hready v, isFlag_ra.completes_set hv hready v⟩

/-- Settles O39: each of the five getters is `BitGet` at its place. -/
theorem flagGettersReadTheirBit : Obligations.FlagGettersReadTheirBit := fun _ hv hready =>
  ⟨isFlag_qr.completes_get hv hready, isFlag_aa.completes_get hv hready, isFlag_tc.completes_get hv hready,
    isFlag_rd.completes_get hv hready, isFlag_ra.completes_get hv hready⟩

/-- Settles O41: the law of one flag for each of the five. -/
theorem flagLaws : Obligations.FlagLaws := by
  intro s t v set get o p hmem hv hr he
  have hf : IsFlag set get o p := by
    simp only [List.mem_cons, Prod.mk.injEq, List.not_mem_nil, or_false] at hmem
    rcases hmem with ⟨rfl, rfl, rfl, rfl⟩ | ⟨rfl, rfl, rfl, rfl⟩ | ⟨rfl, rfl, rfl, rfl⟩ | ⟨rfl, rfl, rfl, rfl⟩ |
      ⟨rfl, rfl, rfl, rfl⟩
    · exact isFlag_qr
    · exact isFlag_aa
    · exact isFlag_tc
    · exact isFlag_rd
    · exact isFlag_ra
  exact hf.law hv hr he

/-! ### GET_BIT and SET_BIT (R184, R185) -/

theorem decode_encode_getBit_illegal {o : BitVec 4} (p : BitVec 3) (ho : legalByteOffset o = false) :
    decode (encode (.getBit o p)) = .error .operandRange := by
  have hform : formOf (opcodeByte (.getBit o p)) = some (.bg .getBit) := rfl
  simp [encode, decode_packWord, decodeFields, hform, selOperand, cOperand, bOperand, aOperand, ho]

theorem decode_encode_setBit_illegal {o : BitVec 4} (p : BitVec 3) (v : Bool) (ho : legalByteOffset o = false) :
    decode (encode (.setBit o p v)) = .error .operandRange := by
  have hform : formOf (opcodeByte (.setBit o p v)) = some (.bs .setBit) := rfl
  simp [encode, decode_packWord, decodeFields, hform, selOperand, cOperand, bOperand, ho]

/-- What is answered like an illegal word has no other effect. -/
theorem completes_of_illegal {i : Instr} {s : State} (hready : HostReady s) (he : exec i s = .next s.illegal) :
    Completes i s .illegalCmd 0 (OnlyAnswers s) :=
  ⟨_, he, State.respond_answered hready _ _ rfl rfl, respond_onlyAnswers s _ _⟩

/-- Settles O45: at a legal offset `BitGet` and `BitSet`; at another the selector is refused, by the decoder and by the
command alike. -/
theorem bitAccessorsReachEveryHeaderBit : Obligations.BitAccessorsReachEveryHeaderBit := by
  refine ⟨fun s o p v hv hready ho => ?_, fun o p v ho => ?_⟩
  · have hlegal : legalByteOffset o = true := legalByteOffset_iff.2 ho
    exact ⟨completes_of_reads_bit hv hready p.isLt (if_pos hlegal),
      completes_of_writes_bit hv hready p.isLt (if_pos hlegal)⟩
  · have hillegal : ¬ legalByteOffset o = true := fun h => absurd (legalByteOffset_iff.1 h) (by omega)
    have hfalse : legalByteOffset o = false := Bool.eq_false_iff.2 hillegal
    exact ⟨decode_encode_getBit_illegal p hfalse, decode_encode_setBit_illegal p v hfalse, fun s hready =>
      ⟨completes_of_illegal hready (if_neg hillegal), completes_of_illegal hready (if_neg hillegal)⟩⟩

end Sys2Proof.Machine
end

section
/-! PROOFS for 41_header_fields.md R175 to R180: OPCODE and RCODE. -/

namespace Sys2Proof.Machine

/-! ### The byte a setter writes -/

theorem opcodeByteWrite_eq (sym : OpcodeSym) : ∀ b : Byte, (b &&& 0x87) ||| (lo8 (opcodeSymField sym) <<< 3) =
    BitVec.ofNat 8 (b.toNat / 128 * 128 + (opcodeSymField sym).toNat * 8 + b.toNat % 8) := by
  cases sym <;> decide

theorem rcodeByteWrite_eq (sym : RcodeSym) : ∀ b : Byte, (b &&& 0xF0) ||| lo8 (rcodeSymField sym) =
    BitVec.ofNat 8 (b.toNat / 16 * 16 + (rcodeSymField sym).toNat) := by
  cases sym <;> decide

theorem opcodeByteWrite_toNat (sym : OpcodeSym) :
    ∀ b : Byte, ((b &&& 0x87) ||| (lo8 (opcodeSymField sym) <<< 3)).toNat / 8 % 16 = (opcodeSymField sym).toNat := by
  cases sym <;> decide

theorem rcodeByteWrite_toNat (sym : RcodeSym) :
    ∀ b : Byte, ((b &&& 0xF0) ||| lo8 (rcodeSymField sym)).toNat % 16 = (rcodeSymField sym).toNat := by
  cases sym <;> decide

/-- The mask keeps the bits outside the field, where the symbol's code has none. -/
theorem opcodeByteWrite_getMsbD (sym : OpcodeSym) (b : Byte) {p : Nat} (hp : p < 8) (hout : ¬ (1 ≤ p ∧ p ≤ 4)) :
    ((b &&& 0x87) ||| (lo8 (opcodeSymField sym) <<< 3)).getMsbD p = b.getMsbD p := by
  have hbits : ∀ p, p < 8 → ¬ (1 ≤ p ∧ p ≤ 4) →
      ((0x87 : Nat) : Byte).getMsbD p = true ∧ (lo8 (opcodeSymField sym) <<< 3).getMsbD p = false := by
    cases sym <;> decide
  obtain ⟨hmask, hcode⟩ := hbits p hp hout
  rw [BitVec.getMsbD_or, BitVec.getMsbD_and, hmask, hcode, Bool.and_true, Bool.or_false]

/-- The mask keeps the bits outside the field, where the symbol's code has none. -/
theorem rcodeByteWrite_getMsbD (sym : RcodeSym) (b : Byte) {p : Nat} (hp : p < 8) (hout : ¬ (4 ≤ p ∧ p ≤ 7)) :
    ((b &&& 0xF0) ||| lo8 (rcodeSymField sym)).getMsbD p = b.getMsbD p := by
  have hbits : ∀ p, p < 8 → ¬ (4 ≤ p ∧ p ≤ 7) →
      (0xF0 : Byte).getMsbD p = true ∧ (lo8 (rcodeSymField sym)).getMsbD p = false := by
    cases sym <;> decide
  obtain ⟨hmask, hcode⟩ := hbits p hp hout
  rw [BitVec.getMsbD_or, BitVec.getMsbD_and, hmask, hcode, Bool.and_true, Bool.or_false]

/-! ### The field after its setter, and the other bits -/

theorem opcodeRaw_setOpcodeField (h : Header) (sym : OpcodeSym) :
    (opcodeRaw (setOpcodeField h sym)).toNat = (opcodeSymField sym).toNat := by
  rw [opcodeRaw_toNat, hdrByte_setOpcodeField _ _ _ (by decide), if_pos rfl, opcodeByteWrite_toNat]

theorem rcodeRaw_setRcodeField (h : Header) (sym : RcodeSym) :
    (rcodeRaw (setRcodeField h sym)).toNat = (rcodeSymField sym).toNat := by
  rw [rcodeRaw_toNat, hdrByte_setRcodeField _ _ _ (by decide), if_pos rfl, rcodeByteWrite_toNat]

theorem headerBit_setOpcodeField (h : Header) (sym : OpcodeSym) {o p : Nat} (ho : o < 12) (hp : p < 8)
    (hout : ¬ (o = 2 ∧ 1 ≤ p ∧ p ≤ 4)) : headerBit (setOpcodeField h sym) o p = headerBit h o p := by
  rw [headerBit, headerBit, hdrByte_setOpcodeField _ _ _ ho]
  split
  · subst o
    exact opcodeByteWrite_getMsbD sym _ hp fun hin => hout ⟨rfl, hin⟩
  · rfl

theorem headerBit_setRcodeField (h : Header) (sym : RcodeSym) {o p : Nat} (ho : o < 12) (hp : p < 8)
    (hout : ¬ (o = 3 ∧ 4 ≤ p ∧ p ≤ 7)) : headerBit (setRcodeField h sym) o p = headerBit h o p := by
  rw [headerBit, headerBit, hdrByte_setRcodeField _ _ _ ho]
  split
  · subst o
    exact rcodeByteWrite_getMsbD sym _ hp fun hin => hout ⟨rfl, hin⟩
  · rfl

/-! ### Completion -/

/-- Settles O42: the symbol tables of R175 on the raw fields. -/
theorem enumeratedGettersAnswerTheSymbol : Obligations.EnumeratedGettersAnswerTheSymbol := by
  intro s hv hready
  have hop := completes_of_headerRead hv hready (g := .getOpcode) rfl
  have hrc := completes_of_headerRead hv hready (g := .getRcode) rfl
  rw [opSym_field, opcodeRaw_toNat, hdrByte_eq _ _ (by decide)] at hop
  rw [rcSym_data, rcodeRaw_toNat, hdrByte_eq _ _ (by decide)] at hrc
  exact ⟨hop, hrc⟩

theorem completes_setOpcode {s : State} (hv : s.hv = true) (hready : HostReady s) (sym : OpcodeSym) :
    Completes (.setOpcode sym) s .ok 0 fun t =>
      HoldsByteAt s t 2 (BitVec.ofNat 8 (s.hdr[2].toNat / 128 * 128 + (opcodeSymField sym).toNat * 8 +
        s.hdr[2].toNat % 8)) ∧ OnlyWritesHeader s t :=
  completes_of_headerWrite hv hready rfl fun t hhdr k hk => by
    rw [hhdr, hdrByte_setOpcodeField _ _ _ hk, opcodeByteWrite_eq, hdrByte_eq _ 2 (by decide)]

theorem completes_setRcode {s : State} (hv : s.hv = true) (hready : HostReady s) (sym : RcodeSym) :
    Completes (.setRcode sym) s .ok 0 fun t =>
      HoldsByteAt s t 3 (BitVec.ofNat 8 (s.hdr[3].toNat / 16 * 16 + (rcodeSymField sym).toNat)) ∧
        OnlyWritesHeader s t :=
  completes_of_headerWrite hv hready rfl fun t hhdr k hk => by
    rw [hhdr, hdrByte_setRcodeField _ _ _ hk, rcodeByteWrite_eq, hdrByte_eq _ 3 (by decide)]

/-- Settles O43: the byte each setter writes, by the code of its symbol (R175). -/
theorem enumeratedSettersWriteTheirFourBits : Obligations.EnumeratedSettersWriteTheirFourBits := by
  refine fun s hv hready => ⟨fun sym code hmem => ?_, fun sym code hmem => ?_⟩
  · obtain rfl : code = (opcodeSymField sym).toNat := by
      cases sym <;> simpa [opcodeSymField] using hmem
    exact completes_setOpcode hv hready sym
  · obtain rfl : code = (rcodeSymField sym).toNat := by
      cases sym <;> simpa [rcodeSymField] using hmem
    exact completes_setRcode hv hready sym

/-! ### The laws (R180) -/

theorem setOpcode_law {s t : State} {sym : OpcodeSym} (hv : s.hv = true) (hr : s.rspReady = .always)
    (he : exec (.setOpcode sym) s = .next t) :
    Reads .getOpcode t (opcodeSymField sym) ∧
    ∀ (g : Instr) (d : Half), (headerRead g).isSome = true → g ≠ .getOpcode →
      (∀ p, g = .getBit 2 p → ¬ (1 ≤ p.toNat ∧ p.toNat ≤ 4)) → (Reads g t d ↔ Reads g s d) := by
  have hw : headerWrite (.setOpcode sym) = some fun h => setOpcodeField h sym := rfl
  refine ⟨(reads_after_headerWrite hw hv hr he rfl _).2 ?_,
    fun g d hg hne hbit => reads_unchanged (field := fun o p => o = 2 ∧ 1 ≤ p ∧ p ≤ 4) hw hv hr he ?_
      (fun o p ho hp => headerBit_setOpcodeField s.hdr sym ho hp) hg hne ?_ d⟩
  · rw [opSym_field, opcodeRaw_setOpcodeField]
    cases sym <;> rfl
  · rintro o p ⟨rfl, h1, h4⟩
    exact namedGetterAt_opcode h1 h4
  · rintro o p hp ⟨rfl, h1, h4⟩ rfl
    exact hbit _ rfl (by rw [BitVec.toNat_ofNat]; omega)

theorem setRcode_law {s t : State} {sym : RcodeSym} (hv : s.hv = true) (hr : s.rspReady = .always)
    (he : exec (.setRcode sym) s = .next t) :
    Reads .getRcode t (0x0100 ||| rcodeSymField sym) ∧
    ∀ (g : Instr) (d : Half), (headerRead g).isSome = true → g ≠ .getRcode →
      (∀ p, g = .getBit 3 p → ¬ (4 ≤ p.toNat ∧ p.toNat ≤ 7)) → (Reads g t d ↔ Reads g s d) := by
  have hw : headerWrite (.setRcode sym) = some fun h => setRcodeField h sym := rfl
  refine ⟨(reads_after_headerWrite hw hv hr he rfl _).2 ?_,
    fun g d hg hne hbit => reads_unchanged (field := fun o p => o = 3 ∧ 4 ≤ p ∧ p ≤ 7) hw hv hr he ?_
      (fun o p ho hp => headerBit_setRcodeField s.hdr sym ho hp) hg hne ?_ d⟩
  · rw [rcSym_data, rcodeRaw_setRcodeField]
    cases sym <;> rfl
  · rintro o p ⟨rfl, h4, h7⟩
    exact namedGetterAt_rcode h4 h7
  · rintro o p hp ⟨rfl, h4, h7⟩ rfl
    exact hbit _ rfl (by rw [BitVec.toNat_ofNat]; omega)

/-- Settles O44: the laws of the two setters, and the raw values without a symbol of their own. -/
theorem enumeratedFieldLaws : Obligations.EnumeratedFieldLaws := by
  refine ⟨fun _ _ _ => setOpcode_law, fun _ _ _ => setRcode_law, fun s hv hready => ⟨fun hraw => ?_, fun hraw => ?_⟩⟩
  · refine (reads_iff (g := .getOpcode) rfl hv hready 3).2 ?_
    rw [opSym_field, Nat.min_eq_right (by omega)]
    rfl
  · refine (reads_iff (g := .getRcode) rfl hv hready 0).2 ?_
    rw [rcSym_data, if_neg (by omega)]

end Sys2Proof.Machine
end

section
/-! PROOFS for 42_question.md R191, R196: the two ends of a question constructor, said once for Q_BUILD and Q_LOAD. -/

namespace Sys2Proof.Machine

/-- The old question dropped, and IN read up to `rest`. -/
def State.readAs (s : State) (rest : List TaggedByte) (eos : Bool) : State :=
  { s.dropQuestion with input := rest, inEos := eos }

section
variable (s : State) (rest : List TaggedByte) (eos : Bool)

@[simp] theorem State.readAs_hdr : (s.readAs rest eos).hdr = s.hdr := rfl
@[simp] theorem State.readAs_hv : (s.readAs rest eos).hv = s.hv := rfl
@[simp] theorem State.readAs_inEos : (s.readAs rest eos).inEos = eos := rfl
@[simp] theorem State.readAs_cfg : (s.readAs rest eos).cfg = s.cfg := rfl
@[simp] theorem State.readAs_input : (s.readAs rest eos).input = rest := rfl
@[simp] theorem State.readAs_output : (s.readAs rest eos).output = s.output := rfl
@[simp] theorem State.readAs_cmds : (s.readAs rest eos).cmds = s.cmds := rfl
@[simp] theorem State.readAs_outReady : (s.readAs rest eos).outReady = s.outReady := rfl
@[simp] theorem State.readAs_rst : (s.readAs rest eos).rst = s.rst := rfl
@[simp] theorem State.readAs_freeDraws : (s.readAs rest eos).freeDraws = s.freeDraws := rfl

end

section
variable {i : Instr} {s : State} {rest : List TaggedByte} {eos : Bool} (hready : HostReady s)

include hready

/-- A constructor that succeeds, part by part. -/
theorem completes_of_commitQuestion {buf : List Byte} {ll : Bool}
    (hexec : exec i s = .next ((s.readAs rest eos).commitQuestion buf ll)) :
    Completes i s .ok (BitVec.ofNat 16 buf.length) fun t =>
      t.qbuf = buf ∧ t.qlen = buf.length ∧ t.qv = true ∧ t.longLabel = ll ∧ t.longName = longNameLength buf.length ∧
      t.input = rest ∧ t.inEos = eos ∧ SameHeaderSlot s t ∧ SameOutput s t ∧ SameRest s t :=
  ⟨_, hexec, State.respond_answered hready _ _ rfl rfl, by simp, by simp, by simp, by simp, by simp,
    by simp, by simp, by simp [SameHeaderSlot], by simp [SameOutput], by simp [SameRest]⟩

/-- A constructor that fails, part by part. -/
theorem completes_of_failQuestion {st : Status} (hexec : exec i s = .next ((s.readAs rest eos).failQuestion st)) :
    Completes i s st 0 fun t =>
      (t.qv = false ∧ t.longLabel = false ∧ t.longName = false) ∧ t.input = rest ∧ t.inEos = eos ∧
      SameHeaderSlot s t ∧ SameOutput s t ∧ SameButDraws s t :=
  ⟨_, hexec, State.respond_answered hready _ _ rfl rfl, by simp, by simp, by simp,
    by simp [SameHeaderSlot], by simp [SameOutput], by simp [SameButDraws]⟩

end

end Sys2Proof.Machine
end

section
/-! PROOFS for 42_question.md R190 to R195: `Split` and Q_BUILD. What Q_BUILD does is said once, by how the bytes it
takes run out: the whole name, the end of the message, or a hold. -/

namespace Sys2Proof.Machine

/-! ### `Split` (R192) -/

/-- The labels already cut stay in front. -/
theorem splitLoop_eq_append (n : List Byte) (labels : List (List Byte)) (cur : List Byte) :
    splitLoop n labels cur = labels ++ splitLoop n [] cur := by
  induction n generalizing labels cur with
  | nil => rfl
  | cons x n ih =>
    by_cases hx : x = separator
    · simp only [splitLoop, hx, if_true]
      rw [ih (labels ++ [cur]), ih ([] ++ [cur]), List.nil_append, List.append_assoc]
    · simp only [splitLoop, hx, if_false]
      exact ih _ _

theorem splitLoop_separator (n cur : List Byte) : splitLoop (separator :: n) [] cur = cur :: split n := by
  simp only [splitLoop, if_true]
  exact splitLoop_eq_append n [cur] []

theorem splitLoop_content {x : Byte} (hx : x ≠ separator) (n cur : List Byte) :
    splitLoop (x :: n) [] cur = splitLoop n [] (cur ++ [x]) := by
  simp only [splitLoop, hx, if_false]

theorem split_ne_nil (n : List Byte) : split n ≠ [] := by
  intro h
  have := wireLabels_split_length n
  simp [h] at this

theorem joinLabels_cons {labels : List (List Byte)} (h : labels ≠ []) (l : List Byte) :
    joinLabels (l :: labels) = l ++ separator :: joinLabels labels := by
  cases labels with
  | nil => exact absurd rfl h
  | cons m labels => rfl

theorem splitLoop_length (n cur : List Byte) : (splitLoop n [] cur).length = n.count separator + 1 := by
  induction n generalizing cur with
  | nil => rfl
  | cons x n ih =>
    by_cases hx : x = separator
    · subst hx
      rw [splitLoop_separator, List.length_cons, split, ih, List.count_cons_self]
    · rw [splitLoop_content hx, ih, List.count_cons_of_ne hx]

theorem joinLabels_splitLoop (n cur : List Byte) : joinLabels (splitLoop n [] cur) = cur ++ n := by
  induction n generalizing cur with
  | nil => simp [splitLoop, joinLabels]
  | cons x n ih =>
    by_cases hx : x = separator
    · subst hx
      rw [splitLoop_separator, joinLabels_cons (split_ne_nil n), split, ih, List.nil_append]
    · rw [splitLoop_content hx, ih, List.append_assoc, List.singleton_append]

theorem separator_notMem_splitLoop (n cur : List Byte) (hcur : separator ∉ cur) :
    ∀ l ∈ splitLoop n [] cur, separator ∉ l := by
  induction n generalizing cur with
  | nil => simpa [splitLoop] using hcur
  | cons x n ih =>
    by_cases hx : x = separator
    · subst hx
      rw [splitLoop_separator]
      exact List.forall_mem_cons.2 ⟨hcur, ih [] List.not_mem_nil⟩
    · rw [splitLoop_content hx]
      exact ih _ (by simpa [hcur] using Ne.symm hx)

theorem joinLabels_split (n : List Byte) : joinLabels (split n) = n := joinLabels_splitLoop n []

/-- Settles O48: each of the three by induction on the string, the current label general. -/
theorem splitCutsAtEverySeparator : Obligations.SplitCutsAtEverySeparator := fun n =>
  ⟨splitLoop_length n [], joinLabels_split n, separator_notMem_splitLoop n [] List.not_mem_nil⟩

/-! ### Q_BUILD by how it stops (R191, R195) -/

/-- The bytes of the question built from a name (R191). -/
def builtBytes (qtype qclass : Half) (name : List Byte) : List Byte :=
  wireLabels (split name) ++ questionTail qtype qclass

theorem builtBytes_length (qtype qclass : Half) (name : List Byte) :
    (builtBytes qtype qclass name).length = name.length + 6 := by
  simp [builtBytes, questionTail, wireLabels_split_length]

theorem exec_qBuild_tooLong {nameLen qtype qclass : Half} {s : State} (hcap : nameLen.toNat + 6 > s.cfg.qcap) :
    exec (.qBuild nameLen qtype qclass) s = .next (s.dropQuestion.failQuestion .capacity) :=
  congrArg Host.Outcome.next (if_pos hcap)

section
variable {nameLen : Half} (qtype qclass : Half) {s : State} {l rest : List TaggedByte}
  (hcap : nameLen.toNat + 6 ≤ s.cfg.qcap) (hin : s.input = l ++ rest)
  (hopen : ∀ m x m', l = m ++ x :: m' → (s.inEos || eosOf m) = false)

include hcap hin hopen

/-- Up to name_len bytes of an open message are taken. -/
theorem exec_qBuild_takes (hle : l.length ≤ nameLen.toNat) :
    exec (.qBuild nameLen qtype qclass) s = .next (s.dropQuestion.afterReads .qBuild finishQuestion
      (consume qBuildReader rest (s.inEos || eosOf l)
        ((untagged l).foldl QBuild.take (QBuild.start nameLen qtype qclass)))) := by
  have hwants : ∀ m x m', l = m ++ x :: m' →
      qBuildReader.ends ((untagged m).foldl QBuild.take (QBuild.start nameLen qtype qclass)) (s.inEos || eosOf m) =
        none := by
    intro m x m' e
    have hlt : l.length = m.length + (m'.length + 1) := by rw [e]; simp
    rw [hopen m x m' e]
    exact qBuild_wants _ _ _ _ (by rw [untagged_length]; omega)
  have hrun := consume_run qBuildReader l rest s.inEos (QBuild.start nameLen qtype qclass) hwants
  rw [← hin] at hrun
  refine congrArg Host.Outcome.next ((if_neg (Nat.not_lt.2 hcap)).trans ?_)
  exact congrArg (s.dropQuestion.afterReads .qBuild finishQuestion) hrun

/-- The whole name: it is encoded, or a label is too long. -/
theorem exec_qBuild_full (hlen : l.length = nameLen.toNat) :
    exec (.qBuild nameLen qtype qclass) s = .next (
      if (split (untagged l)).any fun label => decide (label.length > 255) then
        (s.readAs rest (s.inEos || eosOf l)).failQuestion .unencodable
      else
        (s.readAs rest (s.inEos || eosOf l)).commitQuestion (builtBytes qtype qclass (untagged l))
          ((split (untagged l)).any fun label => decide (label.length ≥ 64))) := by
  rw [exec_qBuild_takes qtype qclass hcap hin hopen (Nat.le_of_eq hlen),
    consume_of_ends _ _ _ _ _ (qBuild_ends_full _ _ _ _ _ ((untagged_length l).trans hlen)), QBuild.finish_foldl]
  split <;> rfl

/-- The message ends first. -/
theorem exec_qBuild_truncated (hlt : l.length < nameLen.toNat) (heos : (s.inEos || eosOf l) = true) :
    exec (.qBuild nameLen qtype qclass) s = .next ((s.readAs rest true).failQuestion .truncatedInput) := by
  have hne : (untagged l).length ≠ nameLen.toNat := by rw [untagged_length]; omega
  rw [exec_qBuild_takes qtype qclass hcap hin hopen (Nat.le_of_lt hlt), heos,
    consume_of_ends _ _ _ _ _ (qBuild_ends_truncated _ _ _ _ hne)]
  rfl

/-- The transport has presented no more. -/
theorem exec_qBuild_waiting (hlt : l.length < nameLen.toNat) (hrest : rest = [])
    (heos : (s.inEos || eosOf l) = false) :
    exec (.qBuild nameLen qtype qclass) s = .next
      { s.dropQuestion with
        input := []
        activity := .qBuild ((untagged s.input).foldl QBuild.take (QBuild.start nameLen qtype qclass)) } := by
  have hne : (untagged l).length ≠ nameLen.toNat := by rw [untagged_length]; omega
  have hl : s.input = l := by rw [hin, hrest, List.append_nil]
  have hfalse : s.inEos = false := (Bool.or_eq_false_iff.1 heos).1
  rw [exec_qBuild_takes qtype qclass hcap hin hopen (Nat.le_of_lt hlt), heos, hrest,
    consume_nil_of_wants _ _ _ (qBuild_wants _ _ _ _ hne), hl, ← hfalse]
  rfl

end

/-- Settles O25: `ReadIn(name_len)` stops in the same three ways as Q_BUILD's steps, and after the whole name the staged
bytes are those of R191 (`QBuild.finish_foldl`). -/
theorem qBuildStepsGiveItsPseudocode : Obligations.QBuildStepsGiveItsPseudocode := by
  intro nameLen qtype qclass s
  unfold pseudoQBuild
  by_cases hcap : nameLen.toNat + 6 > s.cfg.qcap
  · simp only [if_pos hcap]
    exact ⟨fun t ht => (exec_qBuild_tooLong hcap).trans (congrArg _ (Option.some.inj ht)), fun h => nomatch h⟩
  · have hfits : nameLen.toNat + 6 ≤ s.cfg.qcap := Nat.not_lt.1 hcap
    simp only [if_neg hcap]
    obtain ⟨l, rest, hin, hopen, ⟨hlen, hr⟩ | ⟨hlt, heos, hr⟩ | ⟨hlt, hrest, heos, hr⟩⟩ :=
      readIn_cases nameLen.toNat s.input s.inEos
    · simp only [hr, exec_qBuild_full qtype qclass hfits hin hopen hlen]
      split
      · exact ⟨fun t ht => congrArg _ (Option.some.inj ht), fun h => nomatch h⟩
      · refine ⟨fun t ht => congrArg _ (Eq.trans ?_ (Option.some.inj ht)), fun h => nomatch h⟩
        simp only [List.append_assoc]
        rfl
    · simp only [hr, exec_qBuild_truncated qtype qclass hfits hin hopen hlt heos]
      exact ⟨fun t ht => congrArg _ (Option.some.inj ht), fun h => nomatch h⟩
    · simp only [hr]
      exact ⟨(fun _ h => nomatch h), fun _ => exec_qBuild_waiting qtype qclass hfits hin hopen hlt hrest heos⟩

/-! ### Completion (R191, R193, 60_exceptions.md R241, R245, R246, R248) -/

/-- Q_BUILD of an available name whose labels fit their length bytes. -/
theorem Available.exec_qBuild {s : State} {l rest : List TaggedByte} (h : Available s l rest) {nameLen : Half}
    (qtype qclass : Half) (hlen : l.length = nameLen.toNat) (hcap : nameLen.toNat + 6 ≤ s.cfg.qcap)
    (hlabels : ∀ label ∈ split (untagged l), label.length ≤ 255) :
    exec (.qBuild nameLen qtype qclass) s = .next (
      (s.readAs rest (s.inEos || eosOf l)).commitQuestion (builtBytes qtype qclass (untagged l))
        ((split (untagged l)).any fun label => decide (label.length ≥ 64))) := by
  have ⟨hin, _, _⟩ := h
  have hany : ¬ ((split (untagged l)).any fun label => decide (label.length > 255)) = true := by
    simpa using hlabels
  rw [exec_qBuild_full qtype qclass hcap hin (fun _ _ _ => h.noEos) hlen, if_neg hany]

/-- Settles O46: the end of Q_BUILD after the whole name. -/
theorem qBuildEncodesTheName : Obligations.QBuildEncodesTheName := by
  intro s nameLen qtype qclass l rest hready h hlen hcap hlabels
  have hlength : (builtBytes qtype qclass (untagged l)).length = nameLen.toNat + 6 := by
    rw [builtBytes_length, untagged_length, hlen]
  obtain ⟨t, hexec, hanswered, hqbuf, hqlen, hqv, hlabel, hname, hframe⟩ :=
    completes_of_commitQuestion hready (h.exec_qBuild qtype qclass hlen hcap hlabels)
  rw [hlength] at hanswered hqlen hname
  refine ⟨t, hexec, hanswered, ?_, hqlen, hqv, by simp [hlabel], ?_, hframe⟩
  · rw [hqbuf, ← hi8_eq, ← lo8_eq, ← hi8_eq, ← lo8_eq]
    rfl
  · rw [hname, longNameLength, decide_eq_true_iff]
    omega

/-- Settles O47: the three failing ends of Q_BUILD. -/
theorem qBuildFailuresInOrder : Obligations.QBuildFailuresInOrder := by
  intro s nameLen qtype qclass l rest hready
  refine ⟨fun hcap => ?_, fun hcap h hlt => ?_, fun hcap h hlen hlong => ?_⟩
  · obtain ⟨t, hexec, hanswered, hslot, hinput, heos, hframe⟩ := completes_of_failQuestion hready
      (rest := s.input) (eos := s.inEos) (exec_qBuild_tooLong (qtype := qtype) (qclass := qclass) hcap)
    exact ⟨t, hexec, hanswered, hslot, ⟨hinput, heos⟩, hframe⟩
  · have ⟨hin, _, _⟩ := h
    exact completes_of_failQuestion hready
      (exec_qBuild_truncated qtype qclass hcap hin (fun _ _ _ => h.available.noEos) hlt h.eos)
  · have ⟨hin, _, _⟩ := h
    have hany : ((split (untagged l)).any fun label => decide (label.length > 255)) = true := by simpa using hlong
    exact completes_of_failQuestion hready
      ((exec_qBuild_full qtype qclass hcap hin (fun _ _ _ => h.noEos) hlen).trans (congrArg _ (if_pos hany)))

end Sys2Proof.Machine
end

section
/-! PROOFS for 42_question.md R196 to R199: Q_LOAD. A run of its steps ends where the pseudocode does (`qLoad_parse`);
what it has then taken is a question on the wire, or a beginning of none. -/

namespace Sys2Proof.Machine

/-! ### The tests before a byte (R198) -/

theorem qLoadReader_take (qcap : Nat) : (qLoadReader qcap).take = QParse.take := rfl

@[simp] theorem QParse.start_buf : QParse.start.buf = [] := rfl

theorem QParse.foldl_start_buf (bytes : List Byte) : (bytes.foldl QParse.take QParse.start).buf = bytes := by simp

theorem qLoad_ends_of_finished {bytes : List Byte} (h : (bytes.foldl QParse.take QParse.start).finished = true)
    (qcap : Nat) (eos : Bool) :
    (qLoadReader qcap).ends (bytes.foldl QParse.take QParse.start) eos =
      some (.ok (bytes, (bytes.foldl QParse.take QParse.start).ll)) := by
  simp [qLoadReader, h]

theorem qLoad_ends_of_unfinished {bytes : List Byte} (h : (bytes.foldl QParse.take QParse.start).finished = false)
    (qcap : Nat) (eos : Bool) :
    (qLoadReader qcap).ends (bytes.foldl QParse.take QParse.start) eos =
      if bytes.length = qcap then some (.error .capacity)
      else if eos then some (.error .truncatedInput) else none := by
  simp [qLoadReader, h]

/-! ### Q_LOAD against its pseudocode (R196, R198) -/

/-- A run of reads with an end is that end. -/
theorem State.afterReads_of_fate {α ε : Type} (s : State) (held : α → Activity) (finish : State → ε → State)
    {c : Consumed α ε} {e : ε} {rest : List TaggedByte} {eos : Bool} (h : c.fate = some (e, rest, eos)) :
    s.afterReads held finish c = finish { s with input := rest, inEos := eos } e := by
  cases c with
  | ended e' rest' eos' => cases h; rfl
  | holding a eos' => cases h

theorem exec_qLoad_of_consume {s : State} {c : Consumed QParse (Except Status (List Byte × Bool))}
    (h : consume (qLoadReader s.cfg.qcap) s.input s.inEos QParse.start = c) :
    exec .qLoad s = .next (s.dropQuestion.afterReads .qLoad finishQuestion c) :=
  congrArg (fun c => Host.Outcome.next (s.dropQuestion.afterReads .qLoad finishQuestion c)) h

/-- The pseudocode's answer, from where a run of the steps ends. -/
theorem pseudoQLoad_eq (s : State) :
    pseudoQLoad s = (consume (qLoadReader s.cfg.qcap) s.input s.inEos QParse.start).fate.map fun f =>
      finishQuestion (s.readAs f.2.1 f.2.2) f.1 := by
  rw [qLoad_parse, pseudoQLoad]
  simp only
  cases parseQuestion s.cfg.qcap s.input s.inEos <;> rfl

/-- Q_LOAD holds only in the middle of the message, with every presented byte taken. -/
theorem exec_qLoad_waiting {s : State}
    (h : (consume (qLoadReader s.cfg.qcap) s.input s.inEos QParse.start).fate = none) :
    exec .qLoad s = .next
      { s.dropQuestion with
        input := []
        activity := .qLoad ((untagged s.input).foldl QParse.take QParse.start) } := by
  obtain ⟨l, rest, hin, -, ⟨e, -, hc⟩ | ⟨rfl, hends, hc⟩⟩ :=
    consume_cases (qLoadReader s.cfg.qcap) s.input s.inEos QParse.start
  · rw [hc] at h; cases h
  · rw [List.append_nil] at hin
    rw [qLoadReader_take] at hends hc
    obtain ⟨hf, hroom⟩ := qLoad_wants_byte hends
    rw [QParse.foldl_start_buf] at hroom
    have heos : (s.inEos || eosOf l) = false := by
      rw [qLoad_ends_of_unfinished hf, if_neg hroom] at hends
      simpa only [ite_eq_right_iff, reduceCtorEq, imp_false, Bool.not_eq_true] using hends
    have hfalse : s.inEos = false := (Bool.or_eq_false_iff.1 heos).1
    rw [heos, ← hfalse, ← hin] at hc
    exact exec_qLoad_of_consume hc

/-- Settles O26: the run of the steps ends, or holds, where the pseudocode does. -/
theorem qLoadStepsGiveItsPseudocode : Obligations.QLoadStepsGiveItsPseudocode := by
  intro s
  rw [pseudoQLoad_eq]
  cases hf : (consume (qLoadReader s.cfg.qcap) s.input s.inEos QParse.start).fate with
  | none => exact ⟨(fun _ h => nomatch h), fun _ => exec_qLoad_waiting hf⟩
  | some f =>
    refine ⟨fun t ht => (exec_qLoad_of_consume rfl).trans (congrArg Host.Outcome.next ?_), fun h => nomatch h⟩
    exact (s.dropQuestion.afterReads_of_fate _ _ hf).trans (Option.some.inj ht)

/-! ### Q_LOAD by what it has taken -/

theorem untagged_take (l : List TaggedByte) (n : Nat) : untagged (l.take n) = (untagged l).take n := List.map_take

/-- Q_LOAD of available bytes, none of whose beginnings is a question, up to where its tests end it. -/
theorem Available.exec_qLoad_ends {s : State} {l rest : List TaggedByte} (h : Available s l rest)
    (hunf : ∀ m x m', l = m ++ x :: m' → ((untagged m).foldl QParse.take QParse.start).finished = false)
    (hroom : l.length ≤ s.cfg.qcap) {e : Except Status (List Byte × Bool)}
    (he : (qLoadReader s.cfg.qcap).ends ((untagged l).foldl QParse.take QParse.start) (s.inEos || eosOf l) = some e) :
    exec .qLoad s = .next (finishQuestion (s.readAs rest (s.inEos || eosOf l)) e) := by
  have hrun := h.consume (qLoadReader s.cfg.qcap) QParse.start fun m x m' hm => by
    have hlt : l.length = m.length + (m'.length + 1) := by rw [hm]; simp
    have hne : (untagged m).length ≠ s.cfg.qcap := by rw [untagged_length]; omega
    rw [qLoadReader_take, qLoad_ends_of_unfinished (hunf m x m' hm), if_neg hne]
    rfl
  exact exec_qLoad_of_consume (hrun.trans (consume_of_ends _ _ _ _ _ he))

/-- Q_LOAD of a question on the wire. -/
theorem Available.exec_qLoad {s : State} {l rest : List TaggedByte} (h : Available s l rest)
    {labels : List (List Byte)} {tail : List Byte} (hw : WireLabels labels) (ht : tail.length = 4)
    (hl : untagged l = wireLabels labels ++ 0 :: tail) (hroom : l.length ≤ s.cfg.qcap) :
    exec .qLoad s = .next ((s.readAs rest (s.inEos || eosOf l)).commitQuestion (untagged l)
      (labels.any fun label => decide (64 ≤ label.length))) := by
  have hparse := QParse.foldl_question labels tail hw ht
  rw [← hl] at hparse
  refine h.exec_qLoad_ends (e := .ok (untagged l, _)) (fun m x m' hm => ?_) hroom ?_
  · refine QParse.unfinished_of_prefix labels tail (untagged m) (untagged m') x.byte hw ht ?_
    rw [← hl, hm, untagged_append, untagged_cons]
  · rw [qLoad_ends_of_finished (by rw [hparse]; rfl), hparse]

/-- Bytes whose parse ends with their last byte are one question. -/
theorem QParse.question_of_finished {bytes : List Byte}
    (hf : (bytes.foldl QParse.take QParse.start).finished = true)
    (hfirst : ∀ k, k < bytes.length → ((bytes.take k).foldl QParse.take QParse.start).finished = false) :
    ∃ labels tail, WireLabels labels ∧ tail.length = 4 ∧ bytes = wireLabels labels ++ 0 :: tail := by
  obtain ⟨labels, tail, hw, hbytes, htail, -⟩ := QParse.finished_shape hf
  have hcut : bytes.take ((wireLabels labels).length + 5) = wireLabels labels ++ 0 :: tail.take 4 := by
    rw [hbytes, List.take_append]
    simp
  refine ⟨labels, tail, hw, Nat.le_antisymm (Nat.not_lt.1 fun hgt => ?_) htail, hbytes⟩
  have hunf := hfirst ((wireLabels labels).length + 5) (by rw [hbytes]; simp; omega)
  rw [hcut, QParse.foldl_question labels _ hw (by simp; omega)] at hunf
  cases hunf

/-- Q_LOAD leaves a valid question only when it has taken one. -/
theorem exec_qLoad_valid {s t : State} (h : exec .qLoad s = .next t) (hv : t.qv = true) :
    ∃ l rest eos labels tail ll, s.input = l ++ rest ∧ WireLabels labels ∧ tail.length = 4 ∧
      untagged l = wireLabels labels ++ 0 :: tail ∧ t = (s.readAs rest eos).commitQuestion (untagged l) ll := by
  obtain ⟨l, rest, hin, hwants, ⟨e, hends, hc⟩ | ⟨-, -, hc⟩⟩ :=
    consume_cases (qLoadReader s.cfg.qcap) s.input s.inEos QParse.start
  · rw [qLoadReader_take] at hends
    obtain rfl : finishQuestion (s.readAs rest (s.inEos || eosOf l)) e = t :=
      Host.Outcome.next.inj ((exec_qLoad_of_consume hc).symm.trans h)
    cases e with
    | error st => rw [finishQuestion, State.failQuestion_qv] at hv; cases hv
    | ok q =>
      obtain ⟨hf, rfl⟩ := qLoad_ends_ok hends
      obtain ⟨labels, tail, hw, ht, hl⟩ := QParse.question_of_finished hf fun k hk => by
        rw [untagged_length] at hk
        have hsplit : l = l.take k ++ l[k] :: l.drop (k + 1) := by
          rw [List.getElem_cons_drop, List.take_append_drop]
        have hunf := (qLoad_wants_byte (hwants _ _ _ hsplit)).1
        rwa [untagged_take] at hunf
      refine ⟨l, rest, s.inEos || eosOf l, labels, tail, ((untagged l).foldl QParse.take .start).ll, hin, hw, ht, hl,
        ?_⟩
      rw [finishQuestion, QParse.foldl_start_buf]
  · obtain rfl := Host.Outcome.next.inj ((exec_qLoad_of_consume hc).symm.trans h)
    cases hv

/-! ### Completion (R196, R197, 60_exceptions.md R241, R245, R248) -/

/-- Settles O49: the end of Q_LOAD after a whole question. -/
theorem qLoadParsesAWireQuestion : Obligations.QLoadParsesAWireQuestion := by
  intro s l rest labels tail hready h hw ht hl hroom
  have heos : s.inEos = false := by
    obtain ⟨-, -, hopen⟩ := h
    refine hopen.resolve_right ?_
    rintro rfl
    have := congrArg List.length hl
    simp at this
  obtain ⟨t, hexec, hanswered, hqbuf, hqlen, hqv, hlabel, hname, hinput, heos', hframe⟩ :=
    completes_of_commitQuestion hready (h.exec_qLoad hw ht hl hroom)
  rw [untagged_length] at hanswered hqlen hname
  exact ⟨t, hexec, hanswered, hqbuf, hqlen, hqv, by simp [hlabel], by simp [hname, longNameLength], hinput,
    by rw [heos', heos, Bool.false_or], hframe⟩

/-- Settles O50: the two failing ends of Q_LOAD, the test on the capacity before that on IN_EOS. -/
theorem qLoadFailuresInOrder : Obligations.QLoadFailuresInOrder := by
  intro s l rest hready hunf
  have hbefore : ∀ m x m', l = m ++ x :: m' →
      ((untagged m).foldl QParse.take QParse.start).finished = false := by
    intro m x m' hm
    have htake : (untagged l).take (untagged m).length = untagged m := by
      rw [hm, untagged_append, List.take_left]
    rw [← htake]
    exact hunf _ (by rw [hm]; simp)
  have hwhole : ((untagged l).foldl QParse.take QParse.start).finished = false := by
    have := hunf _ (Nat.le_refl _)
    rwa [List.take_length] at this
  refine ⟨fun h hlt => ?_, fun h hfull => ?_⟩
  · have hends : (qLoadReader s.cfg.qcap).ends ((untagged l).foldl QParse.take QParse.start) (s.inEos || eosOf l) =
        some (.error .truncatedInput) := by
      rw [qLoad_ends_of_unfinished hwhole, untagged_length, if_neg (Nat.ne_of_lt hlt), h.eos]
      rfl
    have hexec := h.available.exec_qLoad_ends hbefore (Nat.le_of_lt hlt) hends
    rw [h.eos] at hexec
    exact completes_of_failQuestion hready hexec
  · have hends : (qLoadReader s.cfg.qcap).ends ((untagged l).foldl QParse.take QParse.start) (s.inEos || eosOf l) =
        some (.error .capacity) := by
      rw [qLoad_ends_of_unfinished hwhole, untagged_length, if_pos hfull]
    exact completes_of_failQuestion hready (h.exec_qLoad_ends hbefore (Nat.le_of_eq hfull) hends)

end Sys2Proof.Machine
end

section
/-! PROOFS for 42_question.md R200 to R205: Q_STORE, Q_NAME and the getters. Q_NAME's byte steps write the labels of the
walk, joined by the separator (`qName_labels`); how far a transport lets them get is said for every loop that writes a
known list of bytes. -/

namespace Sys2Proof.Machine

/-! ### Reading a question and answering, part by part -/

section
variable {i : Instr} {s : State} {d : Half} (hready : HostReady s)

include hready

theorem reads_of_done (hexec : exec i s = .next (s.done d)) : Reads i s d :=
  ⟨_, hexec, State.respond_answered hready _ _ rfl rfl⟩

theorem completes_of_done (hexec : exec i s = .next (s.done d)) : Completes i s .ok d (OnlyAnswers s) :=
  ⟨_, hexec, State.respond_answered hready _ _ rfl rfl, respond_onlyAnswers s _ _⟩

/-- A command that writes the bytes `w` and ends. -/
theorem completes_of_write {w : List TaggedByte} {ready : Readiness}
    (hexec : exec i s = .next (State.done { s with output := s.output ++ w, outReady := ready } d)) :
    Completes i s .ok d fun t =>
      t.output = s.output ++ w ∧ t.outReady = ready ∧
      SameHeaderSlot s t ∧ SameQuestionSlot s t ∧ SameInput s t ∧ SameRest s t :=
  ⟨_, hexec, State.respond_answered hready _ _ rfl rfl, by simp, by simp, by simp [SameHeaderSlot],
    by simp [SameQuestionSlot], by simp [SameInput], by simp [SameRest]⟩

end

/-! ### The getters (R203 to R205) -/

theorem exec_qGetLen {s : State} (hv : s.qv = true) : exec .qGetLen s = .next (s.done (BitVec.ofNat 16 s.qlen)) :=
  congrArg Host.Outcome.next (withQuestion_of_valid hv _)

section
variable {s : State} {front : List Byte} {th tl ch cl : Byte} (hv : s.qv = true)
  (hbuf : s.qbuf = front ++ [th, tl, ch, cl]) (hlen : s.qlen = s.qbuf.length)

include hv hbuf hlen

theorem exec_qGetType_tail : exec .qGetType s = .next (s.done (be16 th tl)) := by
  have htype : questionType s = be16 th tl := by simp [questionType, qByte, hlen, hbuf]
  exact congrArg Host.Outcome.next ((withQuestion_of_valid hv _).trans (congrArg s.done htype))

theorem exec_qGetClass_tail : exec .qGetClass s = .next (s.done (be16 ch cl)) := by
  have hclass : questionClass s = be16 ch cl := by simp [questionClass, qByte, hlen, hbuf]
  exact congrArg Host.Outcome.next ((withQuestion_of_valid hv _).trans (congrArg s.done hclass))

end

/-- Settles O53: the last four bytes are at QLEN - 4 to QLEN - 1. -/
theorem questionGettersReadTheTail : Obligations.QuestionGettersReadTheTail := by
  intro s front th tl ch cl hv hready hbuf hlen
  rw [← be16_eq, ← be16_eq]
  exact ⟨completes_of_done hready (exec_qGetType_tail hv hbuf hlen),
    completes_of_done hready (exec_qGetClass_tail hv hbuf hlen), completes_of_done hready (exec_qGetLen hv)⟩

/-! ### Q_STORE (R200) -/

/-- Q_STORE with the transport ready for the question. -/
theorem exec_qStore_ready {s : State} (hv : s.qv = true) (hlen : s.qbuf.length = s.qlen)
    (hr : TransportReady s s.qlen) :
    exec .qStore s = .next (State.done
      { s with output := s.output ++ tagLast s.qbuf, outReady := s.outReady.spend s.qlen }
      (BitVec.ofNat 16 s.qlen)) :=
  (exec_qStore hv).trans (congrArg _ (writeFrom_counting_ready (hlen ▸ qStoreNext_eq s.qbuf)
    ((tagLast_length _).trans hlen) hr .qStore fun s' _ => s'.done (BitVec.ofNat 16 s'.qlen)))

/-- Settles O51: the bytes are `tagLast` of QBUF, which has QLEN of them. -/
theorem qStoreWritesTheQuestion : Obligations.QStoreWritesTheQuestion := fun _ hinv hv hready hr =>
  completes_of_write hready (exec_qStore_ready hv hinv.bufferLength hr)

/-! ### A loop that writes a known list of bytes (20_memory.md R66, R67) -/

/-- A transport ready for `k` bytes grants at least `k` of a larger bound. -/
theorem Readiness.le_grant_of_grant {r : Readiness} {k bound : Nat} (h : r.grant k = k) (hk : k ≤ bound) :
    k ≤ r.grant bound := by
  cases r with
  | always => exact hk
  | times n => exact Nat.le_min.2 ⟨by simpa using h, hk⟩

section
variable {α : Type} {next : α → Option (TaggedByte × α)} {w : List TaggedByte} {a c : α}
  (hall : produce next w.length a = (w, c))

include hall

/-- A beginning of the list is what fewer steps write. -/
theorem produce_take {k : Nat} (hk : k ≤ w.length) : (produce next k a).1 = w.take k := by
  have hsplit := produce_add next k (w.length - k) a
  rw [Nat.add_sub_cancel' hk, hall] at hsplit
  have hw := congrArg Prod.fst hsplit
  have hlen := congrArg List.length hw
  have hfirst := produce_length_le next k a
  have hsecond := produce_length_le next (w.length - k) (produce next k a).2
  simp only [List.length_append] at hw hlen
  rw [hw, List.take_left' (by omega)]

/-- Before its end there is a byte left to write. -/
theorem produce_unfinished {k : Nat} (hk : k < w.length) : (next (produce next k a).2).isSome = true := by
  refine Option.isSome_iff_ne_none.2 fun hnone => ?_
  have hpast := produce_past next k w.length a hnone (Nat.le_of_lt hk)
  have hle := produce_length_le next k a
  rw [← hpast, hall] at hle
  exact Nat.lt_irrefl _ (Nat.lt_of_lt_of_le hk hle)

variable {s : State} {bound : Nat} (hbound : w.length ≤ bound) (held : α → Activity) (finish : State → α → State)

include hbound

/-- The transport takes all of it: the command ends. -/
theorem writeFrom_list_ready (hend : next c = none) (hr : TransportReady s w.length) :
    s.writeFrom next bound held finish a =
      finish { s with output := s.output ++ w, outReady := s.outReady.spend w.length } c := by
  have hgrant := produce_past next w.length (s.outReady.grant bound) a (by rw [hall]; exact hend)
    (Readiness.le_grant_of_grant hr hbound)
  simp only [State.writeFrom, hgrant, hall, hend]

/-- The transport takes only the first `k`: the command holds after them. -/
theorem writeFrom_list_waiting {k : Nat} (hr : s.outReady = .times k) (hk : k < w.length) :
    s.writeFrom next bound held finish a =
      { s with output := s.output ++ w.take k, outReady := .times 0, activity := held (produce next k a).2 } := by
  obtain ⟨p, hp⟩ := Option.isSome_iff_exists.1 (produce_unfinished hall hk)
  have hgrant : s.outReady.grant bound = k := by rw [hr]; exact Nat.min_eq_left (by omega)
  have htaken : (w.take k).length = k := List.length_take_of_le (Nat.le_of_lt hk)
  simp only [State.writeFrom, hgrant, hp, produce_take hall (Nat.le_of_lt hk), htaken]
  simp [hr]

end

/-! ### Q_NAME (R201, R202) -/

theorem qNameNext_e {buf : List Byte} {c c' : NameCursor} {x : TaggedByte} (h : qNameNext buf c = some (x, c')) :
    c'.e = c.e + 1 := by
  unfold qNameNext at h
  split at h
  · cases h; rfl
  · split at h
    · cases h; rfl
    · split at h
      · cases h
      · cases h; rfl

/-- The emitted count is the number of bytes written. -/
theorem qName_emitted (buf : List Byte) (n : Nat) (c : NameCursor) :
    (produce (qNameNext buf) n c).2.e = c.e + (produce (qNameNext buf) n c).1.length := by
  induction n generalizing c with
  | zero => rfl
  | succ n ih =>
    cases hn : qNameNext buf c with
    | none => simp [produce, hn]
    | some p =>
      obtain ⟨x, c'⟩ := p
      have he := qNameNext_e hn
      simp only [produce, hn, ih c', List.length_cons]
      omega

/-- The joined labels have fewer bytes than the labels with their length bytes, and none where there is no label. -/
theorem joinLabels_length (labels : List (List Byte)) :
    (joinLabels labels).length = (wireLabels labels).length - 1 := by
  induction labels with
  | nil => rfl
  | cons l labels ih =>
    cases labels with
    | nil => simp [joinLabels]
    | cons m labels =>
      rw [joinLabels_cons_cons, wireLabels_cons, List.length_append, List.length_cons, ih]
      simp

theorem tagLast_joinLabels_length_le {buf tail : List Byte} {labels : List (List Byte)} {qlen : Nat}
    (hbuf : buf = wireLabels labels ++ 0 :: tail) (hlen : buf.length = qlen) :
    (tagLast (joinLabels labels)).length ≤ qlen := by
  rw [tagLast_length, joinLabels_length, ← hlen, hbuf, List.length_append]
  omega

theorem exec_qName {s : State} (hv : s.qv = true) : exec .qName s = .next (continueQName s .start) :=
  congrArg Host.Outcome.next (withQuestion_of_valid hv _)

theorem exec_qName_noQuestion {s : State} (hv : s.qv = false) : exec .qName s = .next (s.fail .noObject) :=
  congrArg Host.Outcome.next (withQuestion_of_invalid hv _)

/-- A valid question begins with labels and a zero length byte: the walk stops (10_state.md R26 (d)). -/
theorem Invariant.beginsWithLabels {s : State} (h : Invariant s) (hv : s.qv = true) :
    ∃ labels tail, WireLabels labels ∧ s.qbuf = wireLabels labels ++ 0 :: tail := by
  obtain ⟨-, -, t, hwalk, -⟩ := h.question hv
  obtain ⟨labels, tail, hw, hbuf, -⟩ := walkEnd_some hwalk
  exact ⟨labels, tail, hw, hbuf⟩

section
variable {s : State} {labels : List (List Byte)} {tail : List Byte} (hw : WireLabels labels)
  (hbuf : s.qbuf = wireLabels labels ++ 0 :: tail)

include hw hbuf

/-- Q_NAME's steps write the joined labels and then have nothing left. -/
theorem qName_writes : ∃ c, produce (qNameNext s.qbuf) (tagLast (joinLabels labels)).length .start =
    (tagLast (joinLabels labels), c) ∧ c.e = (joinLabels labels).length ∧ qNameNext s.qbuf c = none := by
  obtain ⟨c, hall, he, hend⟩ := qName_labels labels hw [] tail 0
  rw [List.nil_append, ← hbuf] at hall hend
  rw [Nat.zero_add] at he
  rw [tagLast_length]
  exact ⟨c, hall, he, hend⟩

variable (hlen : s.qbuf.length = s.qlen)

include hlen

/-- Q_NAME with the transport ready for the name. -/
theorem exec_qName_ready (hv : s.qv = true) (hr : TransportReady s (joinLabels labels).length) :
    exec .qName s = .next (State.done
      { s with
        output := s.output ++ tagLast (joinLabels labels)
        outReady := s.outReady.spend (joinLabels labels).length }
      (BitVec.ofNat 16 (joinLabels labels).length)) := by
  obtain ⟨c, hall, he, hend⟩ := qName_writes hw hbuf
  rw [exec_qName hv, continueQName, writeFrom_list_ready hall (tagLast_joinLabels_length_le hbuf hlen) _ _ hend
    (by rwa [tagLast_length]), tagLast_length, he]

/-- The transport takes only the first `k` bytes of the name. -/
theorem exec_qName_waiting (hv : s.qv = true) {k : Nat} (hr : s.outReady = .times k)
    (hk : k < (joinLabels labels).length) :
    ∃ c : NameCursor, c.e = k ∧ exec .qName s = .next
      { s with
        output := s.output ++ (tagLast (joinLabels labels)).take k
        outReady := .times 0
        activity := .qName c } := by
  obtain ⟨c, hall, -, -⟩ := qName_writes hw hbuf
  rw [← tagLast_length] at hk
  refine ⟨(produce (qNameNext s.qbuf) k .start).2, ?_, ?_⟩
  · rw [qName_emitted, produce_take hall (Nat.le_of_lt hk), List.length_take_of_le (Nat.le_of_lt hk)]
    exact Nat.zero_add k
  · rw [exec_qName hv, continueQName, writeFrom_list_waiting hall (tagLast_joinLabels_length_le hbuf hlen) _ _ hr hk]

/-- Q_NAME's steps and R201. -/
theorem qName_refines (hv : s.qv = true) :
    (∀ t, pseudoQName s = some t → exec .qName s = .next t) ∧
    (pseudoQName s = none →
      ∃ k c, s.outReady = .times k ∧ k < (dottedName s.qbuf).length ∧ c.e = k ∧
        exec .qName s = .next
          { s with
            output := s.output ++ (tagLast (dottedName s.qbuf)).take k
            outReady := .times 0
            activity := .qName c }) := by
  have hname : dottedName s.qbuf = joinLabels labels := by rw [hbuf, dottedName_wire labels hw]
  have hvalid : ¬ s.qv = false := by simp [hv]
  rw [pseudoQName, if_neg hvalid, hname]
  by_cases hr : TransportReady s (joinLabels labels).length
  · rw [writeOut_ready hr]
    exact ⟨fun t ht => (exec_qName_ready hw hbuf hlen hv hr).trans (congrArg _ (Option.some.inj ht)),
      fun h => nomatch h⟩
  · rw [writeOut_waiting hr]
    refine ⟨(fun _ h => nomatch h), fun _ => ?_⟩
    obtain ⟨k, hk, hlt⟩ := Readiness.of_grant_ne hr
    obtain ⟨c, he, hexec⟩ := exec_qName_waiting hw hbuf hlen hv hk hlt
    exact ⟨k, c, hk, hlt, he, hexec⟩

theorem qName_writesInPieces (hv : s.qv = true) : WritesInPieces .qName s := by
  obtain ⟨c, hall, -, hend⟩ := qName_writes hw hbuf
  have henough := produce_past (qNameNext s.qbuf) _ _ _ (by rw [hall]; exact hend)
    (tagLast_joinLabels_length_le hbuf hlen)
  exact writesInPieces_of_writeFrom (next := qNameNext s.qbuf) (bound := s.qlen) (held := .qName) (a := .start)
    (fun _ => answers_done fun _ _ _ => rfl) (fun c => exec_qName (s := s.onChannels c) hv) (fun _ _ => rfl)
    (fun _ _ => rfl) (by rw [henough, hall]; exact hend)

end

/-- Settles O27: without a question both fail at once; with one, the walk's labels are what both write. -/
theorem qNameStepsGiveItsPseudocode : Obligations.QNameStepsGiveItsPseudocode := by
  intro s hinv
  by_cases hv : s.qv = true
  · obtain ⟨labels, tail, hw, hbuf⟩ := hinv.beginsWithLabels hv
    obtain ⟨hends, hholds⟩ := qName_refines hw hbuf hinv.bufferLength hv
    exact ⟨hends, hholds, qName_writesInPieces hw hbuf hinv.bufferLength hv⟩
  · have hnone : s.qv = false := Bool.eq_false_iff.2 hv
    rw [pseudoQName, if_pos hnone]
    exact ⟨fun t ht => (exec_qName_noQuestion hnone).trans (congrArg _ (Option.some.inj ht)), (nomatch ·),
      writesInPieces_of_answers (answers_fail .noObject) fun c => exec_qName_noQuestion (s := s.onChannels c) hnone⟩

/-- Settles O52: the end of Q_NAME, part by part. -/
theorem qNameWritesTheDottedName : Obligations.QNameWritesTheDottedName :=
  fun _ _ _ hinv hv hready hw hbuf hr =>
    completes_of_write hready (exec_qName_ready hw hbuf hinv.bufferLength hv hr)

end Sys2Proof.Machine
end

section
/-! PROOFS for 42_question.md R206: the round trips, each from what the two commands do on their own. -/

namespace Sys2Proof.Machine

/-! ### What a command known to complete has left -/

theorem Completes.of_exec {i : Instr} {s t : State} {st : Status} {d : Half} {post : State → Prop}
    (h : Completes i s st d post) (hexec : exec i s = .next t) : Answered s t st d ∧ post t := by
  obtain ⟨t', hexec', hanswered, hpost⟩ := h
  obtain rfl : t' = t := Host.Outcome.next.inj (hexec'.symm.trans hexec)
  exact ⟨hanswered, hpost⟩

/-- A host that takes every response still does after one. -/
theorem Answered.hostReady {s t : State} {st : Status} {d : Half} (h : Answered s t st d)
    (hr : s.rspReady = .always) : HostReady t := by
  obtain ⟨-, hready, -⟩ := h
  simp [HostReady, hready, hr]

/-! ### A built question (R206 (a), (b)) -/

/-- Q_BUILD leaves a valid question only when it has taken the whole name. -/
theorem exec_qBuild_valid {nameLen qtype qclass : Half} {s t : State}
    (h : exec (.qBuild nameLen qtype qclass) s = .next t) (hv : t.qv = true) :
    ∃ l rest eos ll, l.length = nameLen.toNat ∧ exec (.qBuild nameLen qtype qclass) s =
      .next ((s.readAs rest eos).commitQuestion (builtBytes qtype qclass (untagged l)) ll) := by
  by_cases hcap : nameLen.toNat + 6 > s.cfg.qcap
  · obtain rfl := Host.Outcome.next.inj ((exec_qBuild_tooLong hcap).symm.trans h)
    rw [State.failQuestion_qv] at hv
    cases hv
  · have hfits : nameLen.toNat + 6 ≤ s.cfg.qcap := Nat.not_lt.1 hcap
    obtain ⟨l, rest, hin, hopen, ⟨hlen, -⟩ | ⟨hlt, heos, -⟩ | ⟨hlt, hrest, heos, -⟩⟩ :=
      readIn_cases nameLen.toNat s.input s.inEos
    · have hexec := exec_qBuild_full qtype qclass hfits hin hopen hlen
      split at hexec
      · obtain rfl := Host.Outcome.next.inj (hexec.symm.trans h)
        rw [State.failQuestion_qv] at hv
        cases hv
      · exact ⟨l, rest, _, _, hlen, hexec⟩
    · obtain rfl := Host.Outcome.next.inj
        ((exec_qBuild_truncated qtype qclass hfits hin hopen hlt heos).symm.trans h)
      rw [State.failQuestion_qv] at hv
      cases hv
    · obtain rfl := Host.Outcome.next.inj
        ((exec_qBuild_waiting qtype qclass hfits hin hopen hlt hrest heos).symm.trans h)
      cases hv

/-- Settles O54: QBUF is the labels `Split` cuts, which join to the name, and ends in the operands. -/
theorem builtQuestionReadsBack : Obligations.BuiltQuestionReadsBack := by
  constructor
  · intro s t u nameLen qtype qclass l rest _ hrsp hout h hlen hcap hlabels hbuild hname
    have hready : HostReady s := by simp [HostReady, hrsp]
    obtain ⟨-, hqbuf, hqlen, hqv, -, -, -, -, -, ⟨houtput, houtReady⟩, -⟩ :=
      (completes_of_commitQuestion hready
        (h.exec_qBuild qtype qclass hlen hcap fun label hl => (hlabels label hl).2)).of_exec hbuild
    have htransport : TransportReady t (joinLabels (split (untagged l))).length := by
      simp [TransportReady, houtReady, hout]
    have hexec := exec_qName_ready hlabels hqbuf ((congrArg List.length hqbuf).trans hqlen.symm) hqv htransport
    rw [← Host.Outcome.next.inj (hexec.symm.trans hname), State.done_output, joinLabels_split, houtput]
  · intro s t nameLen qtype qclass hrsp hbuild hv
    have hready : HostReady s := by simp [HostReady, hrsp]
    obtain ⟨l, rest, eos, ll, hlen, hexec⟩ := exec_qBuild_valid hbuild hv
    obtain ⟨hanswered, hqbuf, hqlen, -⟩ := (completes_of_commitQuestion hready hexec).of_exec hbuild
    have hready' : HostReady t := hanswered.hostReady hrsp
    have htail : t.qbuf =
        (wireLabels (split (untagged l)) ++ [0]) ++ [hi8 qtype, lo8 qtype, hi8 qclass, lo8 qclass] := by
      rw [hqbuf, builtBytes, List.append_assoc]
      rfl
    have hlength : t.qlen = t.qbuf.length := hqlen.trans (congrArg List.length hqbuf).symm
    have htype := exec_qGetType_tail hv htail hlength
    have hclass := exec_qGetClass_tail hv htail hlength
    have hlen' := exec_qGetLen hv
    rw [be16_hi8_lo8] at htype hclass
    rw [hqlen, builtBytes_length, untagged_length, hlen] at hlen'
    exact ⟨reads_of_done hready' htype, reads_of_done hready' hclass, reads_of_done hready' hlen'⟩

/-! ### A loaded question (R206 (c)) -/

/-- Settles O55: the bytes taken are QBUF, and end five bytes after the walk does. -/
theorem loadedQuestionIsStoredAsItCame : Obligations.LoadedQuestionIsStoredAsItCame := by
  constructor
  · intro s t u _ _ hout hload hv hstore
    obtain ⟨l, rest, eos, labels, tail, ll, hin, -, -, -, rfl⟩ := exec_qLoad_valid hload hv
    refine ⟨l, by simpa using hin, by simp, ?_⟩
    have hexec := exec_qStore_ready hv (by simp) (by simp [TransportReady, hout])
    rw [← Host.Outcome.next.inj (hexec.symm.trans hstore)]
    simp
  · intro s t hload hv
    obtain ⟨l, rest, eos, labels, tail, ll, -, hw, ht, hl, rfl⟩ := exec_qLoad_valid hload hv
    rw [State.commitQuestion_qlen, State.commitQuestion_qbuf, hl, walkEnd_wire labels hw]
    simp [ht]

/-! ### A stored question, loaded (R206 (d), (e)) -/

theorem NoEarlyLast.take {l : List TaggedByte} (h : NoEarlyLast l) (n : Nat) : NoEarlyLast (l.take n) := by
  intro x hx
  rw [List.dropLast_take_eq_take_dropLast] at hx
  exact h x (List.mem_of_mem_take hx)

/-- Where LONG_LABEL is that of R27, it is 1 just when one of the labels before the terminator has 64 bytes or more. -/
theorem LabelsSeen.longLabel {labels : List (List Byte)} {tail : List Byte} {ll : Bool} (hw : WireLabels labels)
    (ht : tail.length = 4) (h : LabelsSeen (wireLabels labels ++ 0 :: tail) ll) :
    (labels.any fun label => decide (64 ≤ label.length)) = ll := by
  obtain ⟨labels', tail', hlabels', ht', hbuf, hll⟩ := h
  obtain rfl := wireLabels_unique labels' labels hlabels' hw tail' tail (ht'.trans ht.symm) hbuf.symm
  exact Bool.eq_iff_iff.2 (by simp [hll])

/-- Q_LOAD of the bytes of a buffer that begins with a question: it takes that question and leaves the others. -/
theorem exec_qLoad_tagLast {buf rest' : List Byte} {labels : List (List Byte)} {s : State} {rest : List TaggedByte}
    (hw : WireLabels labels) (hbuf : buf = wireLabels labels ++ 0 :: rest') (hfour : 4 ≤ rest'.length)
    (heos : s.inEos = false) (hin : s.input = tagLast buf ++ rest)
    (hroom : (wireLabels labels).length + 5 ≤ s.cfg.qcap) :
    ∃ eos, exec .qLoad s = .next
      ((s.readAs ((tagLast buf).drop ((wireLabels labels).length + 5) ++ rest) eos).commitQuestion
        (buf.take ((wireLabels labels).length + 5)) (labels.any fun label => decide (64 ≤ label.length))) := by
  generalize hn : (wireLabels labels).length + 5 = n at *
  have hle : n ≤ (tagLast buf).length := by rw [tagLast_length, hbuf, ← hn]; simp; omega
  have hne : buf ≠ [] := by rintro rfl; simp at hbuf
  have htake : buf.take n = wireLabels labels ++ 0 :: rest'.take 4 := by
    rw [hbuf, ← hn, List.take_append]
    simp
  have hbytes : untagged ((tagLast buf).take n) = buf.take n := by rw [untagged_take, untagged_tagLast]
  have havailable : Available s ((tagLast buf).take n) ((tagLast buf).drop n ++ rest) :=
    ⟨by rw [← List.append_assoc, List.take_append_drop, hin], (noEarlyLast_tagLast_of_ne_nil hne).take n, .inl heos⟩
  have hexec := havailable.exec_qLoad hw (List.length_take_of_le hfour) (hbytes.trans htake)
    (by rwa [List.length_take_of_le hle])
  rw [hbytes] at hexec
  exact ⟨_, hexec⟩

/-- Settles O56: the first T + 5 bytes are a question on the wire, and its labels are the only ones that spell it. -/
theorem storedQuestionLoadsBack : Obligations.StoredQuestionLoadsBack := by
  intro s other u rest t hinv hv hwalk _ heos hfits hin hload
  obtain ⟨labels, tail, hw, hbuf, rfl⟩ := walkEnd_some hwalk
  obtain ⟨hfive, -, t', hwalk', hle⟩ := hinv.question hv
  obtain rfl : (wireLabels labels).length = t' := Option.some.inj (hwalk.symm.trans hwalk')
  have hqlen := hinv.bufferLength
  have hparts : s.qbuf.length = (wireLabels labels).length + (tail.length + 1) := by
    rw [hbuf, List.length_append, List.length_cons]
  obtain ⟨eos, hexec⟩ := exec_qLoad_tagLast hw hbuf (by omega) heos hin (by omega)
  obtain rfl := Host.Outcome.next.inj (hexec.symm.trans hload)
  refine ⟨by simp, ?_, by simp, by simp, fun ht => ?_⟩
  · rw [State.commitQuestion_qlen, List.length_take_of_le (by omega)]
  · have hwhole : s.qbuf.take ((wireLabels labels).length + 5) = s.qbuf := List.take_of_length_le (by omega)
    have hseen := hinv.longLabel hv
    rw [hbuf] at hseen
    rw [State.commitQuestion_qbuf, State.commitQuestion_qlen, State.commitQuestion_longLabel,
      State.commitQuestion_longName, hwhole, hqlen, hseen.longLabel hw (by omega), hinv.longName hv]
    exact ⟨rfl, rfl, rfl, rfl⟩

end Sys2Proof.Machine
end

section
/-! PROOFS for 43_stream_status.md: GET_STATUS, IN_NEXT and the end-of-stream flag (R230 to R232). -/

namespace Sys2Proof.Machine

theorem Completes.mono {i : Instr} {s : State} {st : Status} {d : Half} {post post' : State → Prop}
    (h : Completes i s st d post) (hpost : ∀ t, post t → post' t) : Completes i s st d post' := by
  obtain ⟨t, hexec, hanswered, ht⟩ := h
  exact ⟨t, hexec, hanswered, hpost t ht⟩

/-! ### GET_STATUS (R230, 10_state.md R30) -/

theorem statusView_eq (s : State) :
    statusView s = BitVec.ofNat 16 (s.hv.toNat + 2 * s.qv.toNat + 4 * s.inEos.toNat + 16 * s.longLabel.toNat +
      32 * s.longName.toNat) := by
  unfold statusView
  generalize s.hv = hv, s.qv = qv, s.inEos = eos, s.longLabel = ll, s.longName = ln
  decide +revert

/-- Settles O28: GET_STATUS answers the view, which is the sum of its flags' bits. -/
theorem getStatusAnswersTheFlags : Obligations.GetStatusAnswersTheFlags := by
  intro s hready
  rw [← statusView_eq]
  exact completes_of_done hready rfl

/-! ### IN_NEXT by how its loop stops (R231) -/

section
variable {s : State} {l rest : List TaggedByte} (hin : s.input = l ++ rest)
  (hopen : ∀ m x m', l = m ++ x :: m' → (s.inEos || eosOf m) = false)

include hin hopen

/-- The bytes of an open message are discarded. -/
theorem exec_inNext_discards :
    exec .inNext s = .next (s.afterReads (fun _ => .inNext) finishInNext
      (consume drainReader rest (s.inEos || eosOf l) ())) := by
  have hrun := consume_run drainReader l rest s.inEos () fun m x m' e => by rw [hopen m x m' e]; rfl
  rw [← hin] at hrun
  exact congrArg (fun c => Host.Outcome.next (s.afterReads (fun _ => .inNext) finishInNext c)) hrun

/-- The message has ended. -/
theorem exec_inNext_ended (heos : (s.inEos || eosOf l) = true) :
    exec .inNext s = .next (State.done { s with input := rest, inEos := false } 0) := by
  rw [exec_inNext_discards hin hopen, heos, consume_of_ends drainReader rest true () () rfl]
  rfl

/-- The transport has presented no more. -/
theorem exec_inNext_waiting (hrest : rest = []) (heos : (s.inEos || eosOf l) = false) :
    exec .inNext s = .next { s with input := [], activity := .inNext } := by
  have hfalse : s.inEos = false := (Bool.or_eq_false_iff.1 heos).1
  rw [exec_inNext_discards hin hopen, heos, hrest, consume_nil_of_wants drainReader false () rfl, ← hfalse]
  rfl

end

/-- Settles O29: the rest of the message is open up to its end, and the pseudocode's loop stops in the same two ways as
the steps. -/
theorem inNextSkipsToTheNextMessage : Obligations.InNextSkipsToTheNextMessage := by
  refine ⟨fun s l rest hready h => ?_, fun s => ?_⟩
  · have ⟨hin, _, _⟩ := h
    exact ⟨_, exec_inNext_ended hin (fun _ _ _ => h.available.noEos) h.eos,
      State.respond_answered hready _ _ rfl rfl, by simp, by simp, by simp [SameHeaderSlot],
      by simp [SameQuestionSlot], by simp [SameOutput], by simp [SameRest]⟩
  · unfold pseudoInNext
    obtain ⟨l, rest, hin, hopen, ⟨heos, hd⟩ | ⟨hrest, heos, hd⟩⟩ := drain_cases s.input s.inEos
    · simp only [hd]
      exact ⟨fun t ht => (exec_inNext_ended hin hopen heos).trans (congrArg _ (Option.some.inj ht)),
        fun h => nomatch h⟩
    · simp only [hd]
      exact ⟨(fun _ h => nomatch h), fun _ => exec_inNext_waiting hin hopen hrest heos⟩

/-! ### Who clears IN_EOS (R231 (c)) -/

/-- IN_EOS has not returned to 0. -/
def KeepsEos (s t : State) : Prop := s.inEos = true → t.inEos = true

theorem keepsEos_of_eq {s t : State} (h : t.inEos = s.inEos) : KeepsEos s t := h.trans

/-- Reading only sets IN_EOS. -/
theorem keepsEos_afterReads {α ε : Type} {finish : State → ε → State}
    (hf : ∀ s e, (finish s e).inEos = s.inEos) (s : State) (r : Reader α ε) (held : α → Activity) (a : α) :
    KeepsEos s (s.afterReads held finish (consume r s.input s.inEos a)) := by
  intro h
  have hset : ∀ l, (s.inEos || eosOf l) = true := by simp [h]
  obtain ⟨l, rest, -, -, ⟨e, -, hc⟩ | ⟨-, -, hc⟩⟩ := consume_cases r s.input s.inEos a
  · rw [hc]; exact (hf _ _).trans (hset l)
  · rw [hc]; exact hset l

theorem keepsEos_writeFrom {α : Type} {finish : State → α → State} (hf : ∀ s a, (finish s a).inEos = s.inEos)
    (s : State) (next : α → Option (TaggedByte × α)) (bound : Nat) (held : α → Activity) (a : α) :
    KeepsEos s (s.writeFrom next bound held finish a) :=
  State.writeFrom_of (KeepsEos s) _ _ _ _ _ _ (fun _ _ _ _ => keepsEos_of_eq (hf _ _)) fun _ _ _ _ => id

theorem finishHdrLoad_inEos (s : State) (end_ : Option Header) : (finishHdrLoad s end_).inEos = s.inEos := by
  cases end_ <;> simp [finishHdrLoad]

theorem finishQuestion_inEos (s : State) (end_ : Except Status (List Byte × Bool)) :
    (finishQuestion s end_).inEos = s.inEos := by
  cases end_ <;> simp [finishQuestion]

theorem continueHdrLoad_keepsEos (s : State) (staged : List Byte) : KeepsEos s (continueHdrLoad s staged) :=
  keepsEos_afterReads finishHdrLoad_inEos s _ _ _

theorem continueQBuild_keepsEos (s : State) (b : QBuild) : KeepsEos s (continueQBuild s b) :=
  keepsEos_afterReads finishQuestion_inEos s _ _ _

theorem continueQLoad_keepsEos (s : State) (p : QParse) : KeepsEos s (continueQLoad s p) :=
  keepsEos_afterReads finishQuestion_inEos s _ _ _

theorem continueHdrStore_keepsEos (s : State) (k : Nat) : KeepsEos s (continueHdrStore s k) :=
  keepsEos_writeFrom (fun _ _ => State.done_inEos _ _) s _ _ _ _

theorem continueQStore_keepsEos (s : State) (k : Nat) : KeepsEos s (continueQStore s k) :=
  keepsEos_writeFrom (fun _ _ => State.done_inEos _ _) s _ _ _ _

theorem continueQName_keepsEos (s : State) (c : NameCursor) : KeepsEos s (continueQName s c) :=
  keepsEos_writeFrom (fun _ _ => State.done_inEos _ _) s _ _ _ _

theorem Ran.keepsEos {i : Instr} {s t : State} (h : Ran i s t) : KeepsEos s t ∨ i = .inNext := by
  cases h with
  | answered d _ _ _ => exact .inl (keepsEos_of_eq (s.done_inEos d))
  | noHeader _ _ => exact .inl (keepsEos_of_eq (s.fail_inEos _))
  | noQuestion _ _ => exact .inl (keepsEos_of_eq (s.fail_inEos _))
  | illegal _ => exact .inl (keepsEos_of_eq s.illegal_inEos)
  | wrote write _ _ => exact .inl (keepsEos_of_eq (State.done_inEos _ _))
  | cleared => exact .inl (keepsEos_of_eq (State.done_inEos _ _))
  | hdrLoad => exact .inl (continueHdrLoad_keepsEos { s with hv := false } [])
  | hdrStore _ => exact .inl (continueHdrStore_keepsEos s 0)
  | inNext => exact .inr rfl
  | qBuildTooLong _ => exact .inl (keepsEos_of_eq (s.dropQuestion.failQuestion_inEos _))
  | qBuild _ => exact .inl (continueQBuild_keepsEos s.dropQuestion _)
  | qLoad => exact .inl (continueQLoad_keepsEos s.dropQuestion _)
  | qStore _ => exact .inl (continueQStore_keepsEos s 0)
  | qName _ => exact .inl (continueQName_keepsEos s .start)

theorem advance_keepsEos (s : State) : KeepsEos s s.advance ∨ s.activity = .inNext := by
  cases h : s.activity with
  | idle => exact .inl (by rw [State.advance, h]; exact id)
  | hdrLoad staged => exact .inl (advance_hdrLoad h ▸ continueHdrLoad_keepsEos s staged)
  | hdrStore k => exact .inl (advance_hdrStore h ▸ continueHdrStore_keepsEos s k)
  | inNext => exact .inr rfl
  | qBuild b => exact .inl (advance_qBuild h ▸ continueQBuild_keepsEos s b)
  | qLoad p => exact .inl (advance_qLoad h ▸ continueQLoad_keepsEos s p)
  | qStore k => exact .inl (advance_qStore h ▸ continueQStore_keepsEos s k)
  | qName c => exact .inl (advance_qName h ▸ continueQName_keepsEos s c)
  | responding r => exact .inl (advance_responding h ▸ keepsEos_of_eq (s.deliver_inEos r))

/-- Settles O19: the idle step and the refusal of a word keep IN_EOS, and of the commands, accepted or going on, only
IN_NEXT may not. -/
theorem eosIsClearedOnlyByInNextOrReset : Obligations.EosIsClearedOnlyByInNextOrReset := by
  intro s t hstep hset hclear
  have hcleared : ¬ KeepsEos s t := fun hkeeps => Bool.false_ne_true (hclear.symm.trans (hkeeps hset))
  rcases step_cases hstep with ⟨hrst, -⟩ | ⟨-, -, -, rfl⟩ | ⟨-, ha, w, rest, i, hc, hd, hexec⟩ |
    ⟨-, -, w, rest, e, -, -, rfl⟩ | ⟨-, -, rfl⟩
  · exact .inl hrst
  · exact (hcleared id).elim
  · obtain rfl : i = .inNext := (ran_of_exec hexec).keepsEos.resolve_left hcleared
    exact .inr (.inr ⟨ha, w, rest, hc, hd⟩)
  · exact (hcleared (keepsEos_of_eq (s.accept rest).illegal_inEos)).elim
  · exact .inr (.inl ((advance_keepsEos s).resolve_left hcleared))

/-! ### At the end of the message (R232) -/

theorem noEarlyLast_nil : NoEarlyLast [] := by simp [NoEarlyLast]

/-- Nothing can be read of any stream. -/
theorem available_nil (s : State) : Available s [] s.input := ⟨rfl, noEarlyLast_nil, .inr rfl⟩

/-- At IN_EOS = 1 nothing is left of the message. -/
theorem restOfMessage_nil {s : State} (h : s.inEos = true) : RestOfMessage s [] s.input :=
  ⟨rfl, noEarlyLast_nil, .inl ⟨h, rfl⟩⟩

theorem readIn_eos (n : Nat) (input : List TaggedByte) : readIn (n + 1) input true = .underrun input := by
  cases input <;> rfl

theorem unfinished_nil : Unfinished (untagged []) := fun k _ => by rw [untagged_nil, List.take_nil]; rfl

/-- Settles O30: the failures of O33, O50 and O47 at a message with nothing left, and O46 at the empty name. -/
theorem endOfStreamIsSticky : Obligations.EndOfStreamIsSticky := by
  refine ⟨readIn_eos, fun s hready hvalid heos => ?_, fun s qtype qclass hready hcap => ?_⟩
  · have hrest := restOfMessage_nil heos
    have hsame : ∀ t : State, t.input = s.input → t.inEos = true → SameInput s t :=
      fun _ hin hset => ⟨hin, hset.trans heos.symm⟩
    have hqcap : 0 < s.cfg.qcap := Nat.lt_of_lt_of_le (by decide) hvalid.1
    refine ⟨?_, ?_, fun nameLen qtype qclass hlen hcap => ?_⟩
    · exact (hdrLoadOfAShortMessageIsTruncated s [] s.input hready hrest (by decide)).mono
        fun t ⟨_, hin, hset, _⟩ => hsame t hin hset
    · exact ((qLoadFailuresInOrder s [] s.input hready unfinished_nil).1 hrest hqcap).mono
        fun t ⟨_, hin, hset, _⟩ => hsame t hin hset
    · exact ((qBuildFailuresInOrder s nameLen qtype qclass [] s.input hready).2.1 hcap hrest hlen).mono
        fun t ⟨_, hin, hset, _⟩ => hsame t hin hset
  · exact (qBuildEncodesTheName s 0 qtype qclass [] s.input hready (available_nil s) rfl hcap (by decide)).mono
      fun t ⟨_, _, _, _, _, hin, heos', _⟩ => ⟨hin, heos'.trans (Bool.or_false _)⟩

end Sys2Proof.Machine
end

section
/-! PROOFS for 60_exceptions.md R244, R247: a command that lacks its object, and the statuses a command can end in. One
lemma (`Ran.endsWith`) says how a command ends; both statements about what it cannot end in follow from it. -/

namespace Sys2Proof.Machine

/-! ### The object a command needs (R244) -/

/-- The slot that command `i` needs is invalid. -/
def LacksObject (i : Instr) (s : State) : Prop :=
  (needsHeader i = true ∧ s.hv = false) ∨ (needsQuestion i = true ∧ s.qv = false)

theorem not_lacksObject {i : Instr} {s : State} (hh : needsHeader i = true → s.hv = true)
    (hq : needsQuestion i = true → s.qv = true) : ¬ LacksObject i s := by
  rintro (⟨hneeds, hv⟩ | ⟨hneeds, hv⟩)
  · exact Bool.false_ne_true (hv.symm.trans (hh hneeds))
  · exact Bool.false_ne_true (hv.symm.trans (hq hneeds))

/-- Only the generic bit accessors have operands outside their domain. -/
theorem needsHeader_of_not_wellFormed {i : Instr} (h : i.wellFormed = false) :
    needsHeader i = true ∧ needsQuestion i = false := by
  cases i with
  | getBit | setBit => exact ⟨rfl, rfl⟩
  | _ => cases h

theorem wellFormed_of_needsHeader_false {i : Instr} (h : needsHeader i = false) : i.WellFormed :=
  eq_true_of_ne_false fun hbad => absurd (needsHeader_of_not_wellFormed hbad).1 (by simp [h])

theorem wellFormed_of_needsQuestion {i : Instr} (h : needsQuestion i = true) : i.WellFormed :=
  eq_true_of_ne_false fun hbad => absurd (needsHeader_of_not_wellFormed hbad).2 (by simp [h])

/-- A command without its object fails; every other shape of `Ran` has the object or needs none. -/
theorem Ran.eq_fail_of_lacksObject {i : Instr} {s t : State} (h : Ran i s t) (hwf : i.WellFormed)
    (hl : LacksObject i s) : t = s.fail .noObject := by
  cases h with
  | noHeader | noQuestion => rfl
  | answered _ _ hh hq => exact absurd hl (not_lacksObject hh hq)
  | illegal hi => exact absurd (hi.symm.trans hwf) Bool.false_ne_true
  | wrote _ hi hv =>
    obtain ⟨-, hq⟩ := needsHeader_of_headerWrite hi
    exact absurd hl (not_lacksObject (fun _ => hv) (by simp [hq]))
  | cleared | hdrLoad | inNext | qBuildTooLong | qBuild | qLoad => exact absurd hl (not_lacksObject nofun nofun)
  | hdrStore hv => exact absurd hl (not_lacksObject (fun _ => hv) nofun)
  | qStore hv | qName hv => exact absurd hl (not_lacksObject nofun fun _ => hv)

theorem completes_of_lacksObject {i : Instr} {s : State} (hready : HostReady s) (hwf : i.WellFormed)
    (hl : LacksObject i s) : Completes i s .noObject 0 (OnlyAnswers s) := by
  obtain ⟨t, hexec, hran⟩ := exec_ran i s
  obtain rfl := hran.eq_fail_of_lacksObject hwf hl
  exact ⟨_, hexec, State.respond_answered hready _ _ rfl rfl, respond_onlyAnswers s _ _⟩

/-! ### The responses a command may end with (R247, 30_encoding.md R95) -/

/-- `Rsp(st, d)` is a response command `i` may end with when executed in `s`. -/
structure MayEnd (i : Instr) (s : State) (st : Status) (d : Half) : Prop where
  row : st ∈ possibleStatuses i
  data : st ≠ .ok → d = 0
  noObject : st = .noObject → LacksObject i s

theorem mayEnd_ok (i : Instr) (s : State) (d : Half) : MayEnd i s .ok d :=
  ⟨by cases i <;> exact List.mem_cons_self, absurd rfl, nofun⟩

theorem noObject_mem_possibleStatuses {i : Instr} (h : needsHeader i = true ∨ needsQuestion i = true) :
    .noObject ∈ possibleStatuses i := by
  cases i with
  | getStatus | inNext | hdrClear | hdrLoad | qBuild | qLoad => simp [needsHeader, needsQuestion] at h
  | _ => exact List.mem_cons_of_mem _ (List.mem_singleton_self _)

theorem mayEnd_noObject {i : Instr} {s : State} (h : LacksObject i s) : MayEnd i s .noObject 0 :=
  ⟨noObject_mem_possibleStatuses (h.imp And.left And.left), fun _ => rfl, fun _ => h⟩

/-- A failure of a constructor. -/
theorem mayEnd_failure {i : Instr} {s : State} {st : Status} (hrow : st ∈ possibleStatuses i) (hst : st ≠ .noObject) :
    MayEnd i s st 0 :=
  ⟨hrow, fun _ => rfl, fun h => absurd h hst⟩

/-! ### How a command ends -/

/-- If the command that leads from `s` to `t` is over in `t`, it has ended with one response, an allowed one. -/
def EndsWith (allowed : Status → Half → Prop) (s t : State) : Prop :=
  t.activity = .idle → ∃ st d, t.rsp = s.rsp ++ [rspWord st d] ∧ allowed st d

section
variable {allowed : Status → Half → Prop} {s : State}

theorem endsWith_of_holds {t : State} (h : t.activity ≠ .idle) : EndsWith allowed s t := fun hidle => absurd hidle h

theorem endsWith_respond {st : Status} {d : Half} (h : allowed st d) : EndsWith allowed s (s.respond st d) := by
  intro hidle
  rcases s.deliver_rsp (rspWord st d) with ⟨hrsp, -⟩ | ⟨-, hresponding⟩
  · exact ⟨st, d, hrsp, h⟩
  · exact nomatch hidle.symm.trans hresponding

/-- A command that reads ends as its end does, which is one its reader can come to. -/
theorem endsWith_afterReads {α ε : Type} {r : Reader α ε} {held : α → Activity} {finish : State → ε → State}
    (hh : ∀ a, held a ≠ .idle)
    (hf : ∀ a eos e rest, r.ends a eos = some e → EndsWith allowed s (finish { s with input := rest, inEos := eos } e))
    (a : α) : EndsWith allowed s (s.afterReads held finish (consume r s.input s.inEos a)) :=
  State.afterReads_keeps (EndsWith allowed s) (fun _ => True) r s held finish a trivial (fun _ _ _ _ _ => trivial)
    (fun a e rest eos _ he => hf a eos e rest he) fun a _ _ _ => endsWith_of_holds (hh a)

theorem endsWith_writeFrom {α : Type} {next : α → Option (TaggedByte × α)} {bound : Nat} {held : α → Activity}
    (hh : ∀ a, held a ≠ .idle) (data : State → α → Half) (hok : ∀ d, allowed .ok d) (a : α) :
    EndsWith allowed s (s.writeFrom next bound held (fun s' a' => s'.done (data s' a')) a) :=
  State.writeFrom_of (EndsWith allowed s) _ _ _ _ _ _ (fun _ _ _ _ => endsWith_respond (hok _))
    fun _ a' _ _ => endsWith_of_holds (hh a')

/-- The end of a question constructor. -/
theorem endsWith_finishQuestion {end_ : Except Status (List Byte × Bool)} (hok : ∀ d, allowed .ok d)
    (herr : ∀ st, end_ = .error st → allowed st 0) : EndsWith allowed s (finishQuestion s end_) := by
  cases end_ with
  | ok q => exact endsWith_respond (hok _)
  | error st => exact endsWith_respond (herr st rfl)

end

/-! ### The failures of the two question constructors (42_question.md R195, R198) -/

theorem qBuild_ends_error {b : QBuild} {eos : Bool} {st : Status}
    (h : qBuildReader.ends b eos = some (.error st)) : st = .truncatedInput ∨ st = .unencodable := by
  simp only [qBuildReader, QBuild.finish] at h
  split at h
  · split at h <;> cases h
    exact .inr rfl
  · split at h <;> cases h
    exact .inl rfl

theorem qLoad_ends_error {qcap : Nat} {p : QParse} {eos : Bool} {st : Status}
    (h : (qLoadReader qcap).ends p eos = some (.error st)) : st = .capacity ∨ st = .truncatedInput := by
  simp only [qLoadReader] at h
  split at h
  · cases h
  · split at h
    · cases h
      exact .inl rfl
    · split at h <;> cases h
      exact .inr rfl

/-! ### Every command -/

theorem continueHdrLoad_endsWith (s₀ s : State) (staged : List Byte) :
    EndsWith (MayEnd .hdrLoad s₀) s (continueHdrLoad s staged) := by
  refine endsWith_afterReads nofun (fun _ _ end_ _ _ => ?_) staged
  cases end_ with
  | some h => exact endsWith_respond (mayEnd_ok _ _ _)
  | none => exact endsWith_respond (mayEnd_failure (by decide) nofun)

theorem continueQBuild_endsWith (nameLen qtype qclass : Half) (s₀ s : State) (b : QBuild) :
    EndsWith (MayEnd (.qBuild nameLen qtype qclass) s₀) s (continueQBuild s b) := by
  refine endsWith_afterReads nofun (fun _ _ _ _ he => endsWith_finishQuestion (mayEnd_ok _ _) ?_) b
  rintro st rfl
  rcases qBuild_ends_error he with rfl | rfl
  · exact mayEnd_failure (by simp [possibleStatuses]) nofun
  · exact mayEnd_failure (by simp [possibleStatuses]) nofun

theorem continueQLoad_endsWith (s₀ s : State) (p : QParse) :
    EndsWith (MayEnd .qLoad s₀) s (continueQLoad s p) := by
  refine endsWith_afterReads nofun (fun _ _ _ _ he => endsWith_finishQuestion (mayEnd_ok _ _) ?_) p
  rintro st rfl
  rcases qLoad_ends_error he with rfl | rfl
  · exact mayEnd_failure (by decide) nofun
  · exact mayEnd_failure (by decide) nofun

/-- A command that ends, ends with a response it may end with: one case for each shape a command's end can have. -/
theorem Ran.endsWith {i : Instr} {s t : State} (h : Ran i s t) (hwf : i.WellFormed) :
    EndsWith (MayEnd i s) s t := by
  cases h with
  | answered | wrote | cleared => exact endsWith_respond (mayEnd_ok _ _ _)
  | noHeader hi hv => exact endsWith_respond (mayEnd_noObject (.inl ⟨hi, hv⟩))
  | noQuestion hi hv => exact endsWith_respond (mayEnd_noObject (.inr ⟨hi, hv⟩))
  | illegal hi => exact absurd (hi.symm.trans hwf) Bool.false_ne_true
  | hdrLoad => exact continueHdrLoad_endsWith s { s with hv := false } []
  | inNext => exact endsWith_afterReads nofun (fun _ _ _ _ _ => endsWith_respond (mayEnd_ok _ _ _)) ()
  | qBuildTooLong => exact endsWith_respond (mayEnd_failure (by simp [possibleStatuses]) nofun)
  | qBuild => exact continueQBuild_endsWith _ _ _ s s.dropQuestion _
  | qLoad => exact continueQLoad_endsWith s s.dropQuestion _
  | hdrStore => exact endsWith_writeFrom nofun (fun _ _ => 12) (mayEnd_ok _ _) 0
  | qStore => exact endsWith_writeFrom nofun (fun s' _ => BitVec.ofNat 16 s'.qlen) (mayEnd_ok _ _) 0
  | qName => exact endsWith_writeFrom nofun (fun _ (c : NameCursor) => BitVec.ofNat 16 c.e) (mayEnd_ok _ _) .start

/-- Settles O57: without its object a command only answers NO_OBJECT; a command that needs no object lacks none, so
NO_OBJECT is no response it may end with. -/
theorem missingObjectIsRefusedUnchanged : Obligations.MissingObjectIsRefusedUnchanged := by
  refine ⟨fun i s hwf hready hi hv => completes_of_lacksObject hready hwf (.inl ⟨hi, hv⟩),
    fun i s hready hi hv => completes_of_lacksObject hready (wellFormed_of_needsQuestion hi) (.inr ⟨hi, hv⟩),
    fun i s t d hh hq hexec => ?_⟩
  rintro ⟨hrsp, -, hidle⟩
  obtain ⟨st, d', hrsp', hmay⟩ := (ran_of_exec hexec).endsWith (wellFormed_of_needsHeader_false hh) hidle
  have hword : rspWord st d' = rspWord .noObject d :=
    List.singleton_inj.1 (List.append_cancel_left (hrsp'.symm.trans hrsp))
  have hlacks : LacksObject i s := hmay.noObject (rspWord_inj hword).1
  exact not_lacksObject (by simp [hh]) (by simp [hq]) hlacks

/-- Settles O58: how the command ends, taken apart. -/
theorem commandsEndOnlyInTheirStatuses : Obligations.CommandsEndOnlyInTheirStatuses := by
  intro i s t hwf _ hexec hidle
  obtain ⟨st, d, hrsp, hmay⟩ := (ran_of_exec hexec).endsWith hwf hidle
  exact ⟨st, d, hrsp, hmay.row, hmay.data, hmay.noObject⟩

end Sys2Proof.Machine
end

section
/-! PROOFS for 70_reset_and_hazards.md R270: the reset through the pin. -/

namespace Sys2Proof.Machine

/-- Settles O14: each output has rst = 0 as a factor, and the step is the reset, whose fields say the rest. -/
theorem resetPinGivesTheResetState : Obligations.ResetPinGivesTheResetState := by
  intro s hrst
  have houtputs : s.cmdReady = false ∧ s.rspValid = false ∧ s.inReady = false ∧ s.outValid = false := by
    simp [State.cmdReady, State.rspValid, State.inReady, State.outValid, hrst]
  have hstep : step s = .next s.applyReset := if_pos hrst
  exact ⟨houtputs, s.applyReset, hstep, by simp, by simp, by simp [State.cmdReady]⟩

end Sys2Proof.Machine
end

section
/-! PROOFS for 70_reset_and_hazards.md R281: how many bytes a command transfers, and that a command the channels serve
ends. A reading command wants no byte after as many as its bound, nor after the end of the message
(`Reader.StopsAfter`, `Reader.StopsAtEos`): both what it consumes and that it does not hold follow. -/

namespace Sys2Proof.Machine

/-! ### Where a reading command wants no byte -/

/-- Started at `a`, the command wants no byte once it has taken `n`. -/
def Reader.StopsAfter {α ε : Type} (r : Reader α ε) (n : Nat) (a : α) : Prop :=
  ∀ (bytes : List Byte) (eos : Bool), bytes.length = n → r.ends (bytes.foldl r.take a) eos ≠ none

/-- The command wants no byte once the message has ended. -/
def Reader.StopsAtEos {α ε : Type} (r : Reader α ε) : Prop := ∀ a, r.ends a true ≠ none

theorem hdrLoad_stopsAfter : hdrLoadReader.StopsAfter 12 [] := fun bytes eos hlen => by
  rw [hdrLoad_foldl, List.nil_append, hdrLoad_ends_full bytes eos hlen]
  exact Option.some_ne_none _

theorem qBuild_stopsAfter (nameLen qtype qclass : Half) :
    qBuildReader.StopsAfter nameLen.toNat (QBuild.start nameLen qtype qclass) := fun bytes eos hlen => by
  have hends := qBuild_ends_full nameLen qtype qclass bytes eos hlen
  exact fun hnone => nomatch hends.symm.trans hnone

theorem qLoad_stopsAfter (qcap : Nat) : (qLoadReader qcap).StopsAfter qcap .start := fun bytes _ hlen hnone => by
  obtain ⟨-, hroom⟩ := qLoad_wants_byte hnone
  rw [qLoadReader_take, QParse.foldl_start_buf] at hroom
  exact hroom hlen

theorem hdrLoad_stopsAtEos : hdrLoadReader.StopsAtEos := fun staged => by
  by_cases h : staged.length = 12 <;> simp [hdrLoadReader, h]

theorem drain_stopsAtEos : drainReader.StopsAtEos := fun _ => Option.some_ne_none ()

theorem qBuild_stopsAtEos : qBuildReader.StopsAtEos := fun b => by
  by_cases h : b.taken = b.nameLen <;> simp [qBuildReader, h]

theorem qLoad_stopsAtEos (qcap : Nat) : (qLoadReader qcap).StopsAtEos := fun p hnone => by
  obtain ⟨hunfinished, hroom⟩ := qLoad_wants_byte hnone
  simp [qLoadReader, hunfinished, hroom] at hnone

section
variable {α ε : Type} {r : Reader α ε} {n : Nat} {a : α}

/-- Bytes before each of which one was wanted are no more than `n`: before byte `n + 1` none is. -/
theorem Reader.StopsAfter.length_le (hs : r.StopsAfter n a) {l : List TaggedByte} {eos : Bool}
    (hw : ∀ m x m', l = m ++ x :: m' → r.ends ((untagged m).foldl r.take a) (eos || eosOf m) = none) :
    l.length ≤ n := by
  by_contra hgt
  have hsplit : l = l.take n ++ l[n] :: l.drop (n + 1) := by
    rw [List.getElem_cons_drop, List.take_append_drop]
  exact hs (untagged (l.take n)) _ (by rw [untagged_length, List.length_take]; omega) (hw _ _ _ hsplit)

/-- A run of reads consumes at most `n` bytes. -/
theorem Reader.StopsAfter.input_length_le (hs : r.StopsAfter n a) (s : State) (held : α → Activity)
    {finish : State → ε → State} (hf : ∀ e, Answers fun s => finish s e) :
    s.input.length ≤ n + (s.afterReads held finish (consume r s.input s.inEos a)).input.length := by
  obtain ⟨l, rest, hin, hw, hc⟩ := consume_cases r s.input s.inEos a
  have hleft : (s.afterReads held finish (consume r s.input s.inEos a)).input = rest := by
    rcases hc with ⟨e, -, hc⟩ | ⟨rfl, -, hc⟩
    · obtain ⟨hinput, -⟩ := (hf e).moves { s with input := rest, inEos := s.inEos || eosOf l }
      rw [hc]
      exact hinput
    · rw [hc]
      rfl
  have hle := hs.length_le hw
  rw [hleft, hin, List.length_append]
  exact Nat.add_le_add_right hle _

/-- A run of reads comes to the command's end where the message has ended, or ends in the input presented, or as many
bytes as the bound are presented: a hold would have consumed all of them. -/
theorem consume_ends {input : List TaggedByte} {eos : Bool} (heos : r.StopsAtEos)
    (h : eos = true ∨ eosOf input = true ∨ ∃ n, r.StopsAfter n a ∧ n ≤ input.length) (a' : α) (eos' : Bool) :
    consume r input eos a ≠ .holding a' eos' := by
  obtain ⟨l, rest, rfl, hw, ⟨e, -, hc⟩ | ⟨rfl, hwants, -⟩⟩ := consume_cases r input eos a
  · rw [hc]
    exact nofun
  · rw [List.append_nil] at h
    rcases h with rfl | hlast | ⟨n, hs, hle⟩
    · exact absurd hwants (heos _)
    · rw [hlast, Bool.or_true] at hwants
      exact absurd hwants (heos _)
    · have hlen : (untagged l).length = n := (untagged_length l).trans (Nat.le_antisymm (hs.length_le hw) hle)
      exact absurd hwants (hs _ _ hlen)

end

/-! ### What a writing command writes -/

/-- A loop that has nothing left after `b` bytes never writes more. -/
theorem produce_length_le_of_enough {α : Type} {next : α → Option (TaggedByte × α)} {b : Nat} {a : α}
    (h : next (produce next b a).2 = none) (k : Nat) : (produce next k a).1.length ≤ b := by
  rcases Nat.le_total k b with hk | hk
  · exact Nat.le_trans (produce_length_le next k a) hk
  · rw [produce_past next b k a h hk]
    exact produce_length_le next b a

/-- The name of a valid question is at least six bytes shorter than the question, or empty: the walk stops five bytes
before the end at the latest (10_state.md R26). -/
theorem Invariant.nameFits {s : State} (h : Invariant s) (hv : s.qv = true) :
    ∃ labels tail, WireLabels labels ∧ s.qbuf = wireLabels labels ++ 0 :: tail ∧
      (joinLabels labels).length ≤ s.qlen - 6 := by
  obtain ⟨-, -, t, hwalk, ht⟩ := h.question hv
  obtain ⟨labels, tail, hw, hbuf, rfl⟩ := walkEnd_some hwalk
  refine ⟨labels, tail, hw, hbuf, ?_⟩
  rw [h.bufferLength] at ht
  rw [joinLabels_length]
  omega

theorem qName_written_length_le {s : State} (h : Invariant s) (hv : s.qv = true) (k : Nat) :
    (produce (qNameNext s.qbuf) k .start).1.length ≤ s.qlen - 6 := by
  obtain ⟨labels, tail, hw, hbuf, hfits⟩ := h.nameFits hv
  obtain ⟨c, hall, -, hend⟩ := qName_writes hw hbuf
  have hle := produce_length_le_of_enough (by rw [hall]; exact hend) k
  rw [tagLast_length] at hle
  exact Nat.le_trans hle hfits

/-- A writing loop adds to OUT at most its bound. -/
theorem State.writeFrom_output_le {α : Type} (s : State) {next : α → Option (TaggedByte × α)} {bound n : Nat}
    (held : α → Activity) {finish : State → α → State} (hf : ∀ a, Answers fun s => finish s a) {a : α}
    (hle : (produce next (s.outReady.grant bound) a).1.length ≤ n) :
    ∃ written, written.length ≤ n ∧ (s.writeFrom next bound held finish a).output = s.output ++ written :=
  ⟨_, hle, s.writeFrom_output next bound held hf a⟩

theorem produce_grant_length_le {α : Type} (next : α → Option (TaggedByte × α)) (r : Readiness) (bound : Nat)
    (a : α) : (produce next (r.grant bound) a).1.length ≤ bound :=
  Nat.le_trans (produce_length_le _ _ _) (r.grant_le bound)

/-! ### The bounds of every command -/

theorem input_of_not_readsInput {i : Instr} {s t : State} (h : exec i s = .next t) (hi : readsInput i = false) :
    t.input = s.input := by
  by_contra hne
  exact Bool.false_ne_true (hi.symm.trans ((exec_moves h).readsOnly hne))

theorem output_of_not_writesOutput {i : Instr} {s t : State} (h : exec i s = .next t) (hi : writesOutput i = false) :
    t.output = s.output := by
  by_contra hne
  exact Bool.false_ne_true (hi.symm.trans ((exec_moves h).writesOnly hne))

/-- At most `inputBound` bytes are gone from IN. -/
theorem exec_input_length_le {i : Instr} {s t : State} (h : exec i s = .next t) :
    s.input.length ≤ inputBound i s + t.input.length := by
  cases ran_of_exec h with
  | answered | noHeader | noQuestion | illegal | wrote | cleared | qBuildTooLong => simp
  | hdrStore | qStore | qName => exact input_of_not_readsInput h rfl ▸ Nat.le_add_left _ _
  | inNext => exact Nat.le_add_right _ _
  | hdrLoad => exact hdrLoad_stopsAfter.input_length_le { s with hv := false } _ answers_finishHdrLoad
  | qBuild => exact (qBuild_stopsAfter _ _ _).input_length_le s.dropQuestion _ answers_finishQuestion
  | qLoad => exact (qLoad_stopsAfter _).input_length_le s.dropQuestion _ answers_finishQuestion

theorem exec_consumes {i : Instr} {s t : State} (h : exec i s = .next t) :
    ∃ k, k ≤ inputBound i s ∧ t.input = s.input.drop k := by
  obtain ⟨k, hk⟩ := (exec_moves h).input
  have hsuffix : t.input <:+ s.input := hk ▸ List.drop_suffix k s.input
  exact ⟨s.input.length - t.input.length, Nat.sub_le_iff_le_add.2 (exec_input_length_le h),
    List.suffix_iff_eq_drop.1 hsuffix⟩

theorem exec_writes {i : Instr} {s t : State} (hinv : Invariant s) (h : exec i s = .next t) :
    ∃ written, written.length ≤ outputBound i s ∧ t.output = s.output ++ written := by
  cases ran_of_exec h with
  | answered | noHeader | noQuestion | illegal | wrote => exact ⟨[], Nat.zero_le _, by simp⟩
  | cleared | hdrLoad | inNext | qBuildTooLong | qBuild | qLoad =>
    exact ⟨[], Nat.zero_le _, by rw [output_of_not_writesOutput h rfl, List.append_nil]⟩
  | hdrStore =>
    exact s.writeFrom_output_le _ (fun _ => answers_done fun _ _ _ => rfl) (produce_grant_length_le _ _ 12 _)
  | qStore =>
    exact s.writeFrom_output_le _ (fun _ => answers_done fun _ _ _ => rfl) (produce_grant_length_le _ _ s.qlen _)
  | qName hv =>
    exact s.writeFrom_output_le _ (fun _ => answers_done fun _ _ _ => rfl) (qName_written_length_le hinv hv _)

/-- Settles O59: both bounds, command by command. -/
theorem transfersStayWithinTheirBounds : Obligations.TransfersStayWithinTheirBounds :=
  fun _ _ _ hinv h => ⟨exec_consumes h, exec_writes hinv h⟩

/-! ### Commands that end -/

/-- The command that leads from `s` to `t` is over, its one response taken by the host. -/
def Ended (s t : State) : Prop := t.activity = .idle ∧ t.rsp.length = s.rsp.length + 1

/-- A command known to complete has ended. -/
theorem Completes.ended {i : Instr} {s t : State} {st : Status} {d : Half} {post : State → Prop}
    (h : Completes i s st d post) (hexec : exec i s = .next t) : Ended s t := by
  obtain ⟨⟨hrsp, -, hidle⟩, -⟩ := h.of_exec hexec
  exact ⟨hidle, by rw [hrsp, List.length_append]; rfl⟩

section
variable {s s' : State} (hready : HostReady s) (hrsp : s'.rsp = s.rsp) (hhost : s'.rspReady = s.rspReady)

include hready hrsp hhost

/-- A response presented to a host that is ready, whatever else has changed. -/
theorem ended_deliver (r : RspWord) : Ended s (s'.deliver r) := by
  have hready' : HostReady s' := by rw [HostReady, hhost]; exact hready
  rw [State.deliver_ready hready']
  exact ⟨rfl, by simp [hrsp]⟩

theorem Answers.ended {f : State → State} (hf : Answers f) : Ended s (f s') := by
  obtain ⟨u, r, -, hu⟩ := hf s'
  have e : f s' = (u.onChannels s').deliver r := hu s' s'.activity
  rw [e]
  exact ended_deliver (s' := u.onChannels s') hready hrsp hhost r

/-- A reading command that its channel serves. -/
theorem ended_afterReads {α ε : Type} {r : Reader α ε} {a : α} (held : α → Activity)
    {finish : State → ε → State} (hf : ∀ e, Answers fun s => finish s e) (heos : r.StopsAtEos)
    (h : s'.inEos = true ∨ eosOf s'.input = true ∨ ∃ n, r.StopsAfter n a ∧ n ≤ s'.input.length) :
    Ended s (s'.afterReads held finish (consume r s'.input s'.inEos a)) :=
  State.afterReads_of (Ended s) s' held finish _
    (fun e rest eos _ => (hf e).ended (s' := { s' with input := rest, inEos := eos }) hready hrsp hhost)
    fun a' eos' hholds => absurd hholds (consume_ends heos h a' eos')

end

/-- A transport ready for some bytes is ready for fewer. -/
theorem TransportReady.mono {s : State} {m n : Nat} (h : TransportReady s n) (hle : m ≤ n) : TransportReady s m := by
  by_contra hnot
  obtain ⟨k, hk, hlt⟩ := Readiness.of_grant_ne hnot
  simp only [TransportReady, hk, Readiness.grant_times] at h
  omega

theorem completes_qName {s : State} (hinv : Invariant s) (hv : s.qv = true) (hready : HostReady s)
    (hout : TransportReady s (s.qlen - 6)) : ∃ d post, Completes .qName s .ok d post := by
  obtain ⟨labels, tail, hw, hbuf, hfits⟩ := hinv.nameFits hv
  exact ⟨_, _, qNameWritesTheDottedName s labels tail hinv hv hready hw hbuf (hout.mono hfits)⟩

/-- Settles O60: a reading command does not hold (`consume_ends`), a writing command has room for all it writes, and
every other command answers at once. -/
theorem servedCommandsEnd : Obligations.ServedCommandsEnd := by
  intro i s t hinv hready hin hout hexec
  change Ended s t
  cases ran_of_exec hexec with
  | answered | noHeader | noQuestion | illegal | wrote | cleared | qBuildTooLong =>
    exact ended_deliver hready (by rfl) (by rfl) _
  | hdrStore hv => exact (hdrStoreWritesTheHeader s hv hready hout).ended hexec
  | qStore hv => exact (qStoreWritesTheQuestion s hinv hv hready hout).ended hexec
  | qName hv =>
    obtain ⟨d, post, h⟩ := completes_qName hinv hv hready hout
    exact h.ended hexec
  | inNext =>
    exact ended_afterReads hready rfl rfl _ answers_finishInNext drain_stopsAtEos
      (hin.imp_right (.imp_right fun ⟨hne, _⟩ => absurd rfl hne))
  | hdrLoad =>
    exact ended_afterReads (s' := { s with hv := false }) hready rfl rfl _ answers_finishHdrLoad hdrLoad_stopsAtEos
      (hin.imp_right (.imp_right fun ⟨_, hle⟩ => ⟨_, hdrLoad_stopsAfter, hle⟩))
  | qBuild =>
    exact ended_afterReads (s' := s.dropQuestion) hready rfl rfl _ answers_finishQuestion qBuild_stopsAtEos
      (hin.imp_right (.imp_right fun ⟨_, hle⟩ => ⟨_, qBuild_stopsAfter _ _ _, hle⟩))
  | qLoad =>
    exact ended_afterReads (s' := s.dropQuestion) hready rfl rfl _ answers_finishQuestion (qLoad_stopsAtEos _)
      (hin.imp_right (.imp_right fun ⟨_, hle⟩ => ⟨_, qLoad_stopsAfter _, hle⟩))

end Sys2Proof.Machine
end
